-- ==== Sys2Proof/Word.lean ====
section
/-! DEFINITION. The byte, the one width of access of the hardware (00_scope.md R11, 20_memory.md R67). Every other
value of the spec is a mathematical integer (R11) and is a `Nat`, but for the copy source index, an `Int`. -/

namespace Sys2Proof

/-- A byte: 8 bits, read as an unsigned integer 0 to 255 (R11); bit 0 is the least significant (R12). -/
abbrev Byte := BitVec 8

end Sys2Proof
end

