-- ==== Sys2Proof/Config.lean ====
section
/-! DEFINITION. The parameters of the hardware (00_scope.md R9, 10_state.md R36) and the free values: the registers
and bytes of which the spec says that they hold no defined value. -/

namespace Sys2Proof.Config

/-- `SIZE_MAX` (R9): the largest declared size and the largest compressor input. -/
def sizeMax : Nat := 65535
/-- `HDR_LEN` (R9): the bytes of header before the first opcode. -/
def hdrLen : Nat := 2
/-- `SENTINEL` (R9): the byte a copy produces for a negative source index. -/
def sentinel : Byte := 0xFF
/-- `PAD_BYTE` (R9, decision D6): an output byte that no instruction produced. -/
def padByte : Byte := 0x00
/-- `MIN_MATCH` (R9): the shortest match the compressor uses. -/
def minMatch : Nat := 3
/-- `EXT_LEN_MAX` (R9, decision D3): the longest copy one instruction can encode. -/
def extLenMax : Nat := 262
/-- `MAX_MATCH` (R9, decision D14): the cap on a run of the match finder, equal to `EXT_LEN_MAX`. -/
def maxMatch : Nat := 262
/-- `WINDOW` (R9, decision D15): the number of committed history bytes the match finder scans. -/
def window : Nat := 4095
/-- `PEND_MAX` (R9): the capacity of the pending literal buffer. -/
def pendMax : Nat := 16
/-- `OFF_SC_MAX` (R9): the largest ShortCopy offset. -/
def offScMax : Nat := 15
/-- `OFF_MC_ENC_MAX` (R9): the largest offset for which the compressor selects MedCopy. -/
def offMcEncMax : Nat := 1023
/-- `OFF_MC_DEC_MAX` (R9, decision D5): the largest offset a decoded MedCopy can carry. -/
def offMcDecMax : Nat := 4095
/-- `OFF_LC_MAX` (R9): the largest LongCopy offset. -/
def offLcMax : Nat := 1023
/-- `OFF_EC_MAX` (R9): the largest ExtCopy offset. -/
def offEcMax : Nat := 4095
/-- `LL_LEN_MAX` (R9, decision D4): the longest LongLiteral. -/
def llLenMax : Nat := 1040
/-- The capacity of `CS` (R31, R36, R60): `2 + 65535 + ceil(65535 / 16)`. -/
def csMax : Nat := 69633

/-- The registers that can hold no defined value (R39, R41, R233, R246), by name. -/
inductive FreeReg where
  | inLen | declaredSize | inPtr | outPtr | outLen | compSize | produced
  | srcLen | cur | committed | pending | csLen
  | origLen | expectedLen | actualLen | firstOffset | mismatchCount
  deriving DecidableEq, Repr

/-- The memories that can hold bytes of no defined value (R39, R41, R246), by name. -/
inductive FreeMem where
  | inMem | outMem | srcMem | shadowMem | pendMem | csMem | origMem
  deriving DecidableEq, Repr

/-- The flags that can hold no defined value (R233, R246), by name. -/
inductive FreeFlag where
  | short | kind
  deriving DecidableEq, Repr

/-- FREE VALUE: what the register holds at the given draw. Nothing constrains it (log 4). -/
opaque freeNat : FreeReg → Nat → Nat
/-- FREE VALUE: what the flag holds at the given draw (log 4). -/
opaque freeBit : FreeFlag → Nat → Bool
/-- FREE VALUE: what the byte at an index of the memory holds at the given draw (log 4). -/
opaque freeByte : FreeMem → Nat → Nat → Byte

end Sys2Proof.Config
end

