-- ==== Sys2Proof/Syntax.lean ====
section
/-! DEFINITION. The instruction set: the six forms of the opcode table (30_encoding.md R90, R100, R105), each an
instruction descriptor `(form, length, offset)` as R105 has it. The payload of a literal is not part of the
descriptor: it is read from `IN` when the instruction executes (R91, R140). -/

namespace Sys2Proof

/-- The six instruction kinds (R18, R93). -/
inductive Form where
  | shortCopy | medCopy | longCopy | extCopy | shortLiteral | longLiteral
  deriving DecidableEq, Repr

/-- An instruction as R105 returns it: the decoded length, and for a copy the decoded offset (a distance minus one,
R100). The bits `cmd[4:2]` of LongLiteral are no part of it: "any value decodes to the same instruction" (R99). -/
inductive Instr where
  /-- ShortCopy (R126). -/
  | shortCopy (length offset : Nat)
  /-- MedCopy (R127). -/
  | medCopy (length offset : Nat)
  /-- LongCopy (R128). -/
  | longCopy (length offset : Nat)
  /-- ExtCopy (R129). -/
  | extCopy (length offset : Nat)
  /-- ShortLiteral (R143). -/
  | shortLiteral (length : Nat)
  /-- LongLiteral (R144). -/
  | longLiteral (length : Nat)
  deriving DecidableEq, Repr

/-- The form of an instruction. -/
def Instr.form : Instr → Form
  | .shortCopy _ _ => .shortCopy
  | .medCopy _ _ => .medCopy
  | .longCopy _ _ => .longCopy
  | .extCopy _ _ => .extCopy
  | .shortLiteral _ => .shortLiteral
  | .longLiteral _ => .longLiteral

/-- The length operand of an instruction. -/
def Instr.length : Instr → Nat
  | .shortCopy length _ => length
  | .medCopy length _ => length
  | .longCopy length _ => length
  | .extCopy length _ => length
  | .shortLiteral length => length
  | .longLiteral length => length

/-- The payload bytes of an instruction: the length of a literal, and none of a copy (R91). -/
def Instr.payload (i : Instr) : Nat :=
  match i with
  | .shortCopy _ _ => 0
  | .medCopy _ _ => 0
  | .longCopy _ _ => 0
  | .extCopy _ _ => 0
  | .shortLiteral length => length
  | .longLiteral length => length

/-- The distance of a copy from the write position back to its source, `offset + 1` (R18), and 0 for a literal. -/
def Instr.distance (i : Instr) : Nat :=
  match i with
  | .shortCopy _ offset => offset + 1
  | .medCopy _ offset => offset + 1
  | .longCopy _ offset => offset + 1
  | .extCopy _ offset => offset + 1
  | .shortLiteral _ => 0
  | .longLiteral _ => 0

end Sys2Proof
end

