-- ==== Sys2Proof/WellFormed.lean ====
section
/-! DEFINITION. Which instructions an encoding can carry: the operand ranges of 30_encoding.md R100 and R106. -/

namespace Sys2Proof

/-- `lo <= v <= hi`, as a Bool. -/
def inRange (lo hi v : Nat) : Bool := decide (lo ≤ v) && decide (v ≤ hi)

/-- The operand ranges of R100, one line per form. -/
def Instr.wf : Instr → Bool
  | .shortCopy length offset => inRange 3 6 length && inRange 0 Config.offScMax offset
  | .medCopy length offset => inRange 3 6 length && inRange 0 Config.offMcDecMax offset
  | .longCopy length offset => inRange 7 22 length && inRange 0 Config.offLcMax offset
  | .extCopy length offset => inRange 7 Config.extLenMax length && inRange 0 Config.offEcMax offset
  | .shortLiteral length => inRange 1 16 length
  | .longLiteral length => inRange 17 Config.llLenMax length

end Sys2Proof
end

