-- ==== Sys2Proof/Decode.lean ====
section
/-! DEFINITION. Decoding (30_encoding.md R93 to R105), total on any bytes and rejecting by name; and, after it, the
encoder, written from the packing rules (R94 to R99, 44_instruction_encoder.md R202, R205 to R207). -/

namespace Sys2Proof

/-! ### Bit fields (00_scope.md R12) -/

/-- `v[hi:lo]` of R12: `(v >> lo) & ((1 << (hi-lo+1)) - 1)`, written as a quotient and a remainder. -/
def bits (hi lo v : Nat) : Nat := v / 2 ^ lo % 2 ^ (hi - lo + 1)

/-- `a : b` of R12 with `b` of width `w`: `(a << w) | b`, written as a sum (`b < 2 ^ w`). -/
def concat (w a b : Nat) : Nat := a * 2 ^ w + b

/-! ### Forms (R93, R101) -/

/-- The form of an opcode byte: the primary selector `cmd[7:6]`, and under `11` the secondary selector `cmd[5:4]`
(R93). The last arm is the refusing arm that R102 and U3 ask a decoder to keep; no opcode reaches it (R101). -/
def formOf (cmd : Byte) : Option Form :=
  let primary := bits 7 6 cmd.toNat
  let secondary := bits 5 4 cmd.toNat
  if primary = 0b00 then some .shortCopy
  else if primary = 0b01 then some .medCopy
  else if primary = 0b10 then some .longCopy
  else if primary = 0b11 ∧ secondary = 0b00 then some .extCopy
  else if primary = 0b11 ∧ secondary = 0b01 then some .shortLiteral
  else if primary = 0b11 ∧ bits 5 5 cmd.toNat = 1 then some .longLiteral
  else none

/-- `k`, the number of extra bytes of the fixed part after `cmd` (R91, R93). -/
def Form.extraBytes : Form → Nat
  | .shortCopy => 0
  | .medCopy => 1
  | .longCopy => 1
  | .extCopy => 2
  | .shortLiteral => 0
  | .longLiteral => 1

/-! ### Decode (R94 to R99, R105) -/

/-- `Decode(cmd, extra1, extra2)` of R105, one line per form. A form that has no `extra1` or `extra2` reads none. -/
def decodeForm (form : Form) (cmd extra1 extra2 : Nat) : Instr :=
  match form with
  | .shortCopy => .shortCopy (bits 1 0 cmd + 3) (bits 5 2 cmd)
  | .medCopy => .medCopy (bits 1 0 cmd + 3) (concat 8 (bits 5 2 cmd) extra1)
  | .longCopy => .longCopy (bits 5 2 cmd + 7) (concat 8 (bits 1 0 cmd) extra1)
  | .extCopy => .extCopy (concat 4 (bits 3 0 cmd) (bits 7 4 extra1) + 7) (concat 8 (bits 3 0 extra1) extra2)
  | .shortLiteral => .shortLiteral (bits 3 0 cmd + 1)
  | .longLiteral => .longLiteral (concat 8 (bits 1 0 cmd) extra1 + 17)

/-- Why bytes do not decode. -/
inductive DecodeError where
  /-- There is no opcode byte: the loop test of 42_decompressor_engine.md R152 ends the run before it decodes. -/
  | noOpcode
  /-- Fewer extra bytes remain than the form needs: TruncatedStreamError (R155, R243). -/
  | truncated
  /-- The opcode matches no form: FormatError, which no opcode reaches (R102, R156, R242). -/
  | unknownOpcode
  deriving DecidableEq, Repr

/-- One instruction from the front of a stream of bytes, with the bytes after its fixed part. The extra bytes are
checked once, all `k` of them (R155). -/
def decode : List Byte → Except DecodeError (Instr × List Byte)
  | [] => .error .noOpcode
  | cmd :: rest =>
    match formOf cmd with
    | none => .error .unknownOpcode
    | some form =>
      if rest.length < form.extraBytes then .error .truncated
      else
        .ok (decodeForm form cmd.toNat (rest.getD 0 0).toNat (rest.getD 1 0).toNat, rest.drop form.extraBytes)

/-! ### The words of the opcode table (the host's numbering) -/

/-- The first bytes of the instruction whose table word is `w`: byte `j` is bits `8j+7 .. 8j` of `w`, every bit at or
above `nbits` taken as 0. Three bytes hold the longest fixed part (R91). -/
def tableBytes (nbits w : Nat) : List Byte :=
  let v := w % 2 ^ nbits
  [BitVec.ofNat 8 (bits 7 0 v), BitVec.ofNat 8 (bits 15 8 v), BitVec.ofNat 8 (bits 23 16 v)]

/-- The instruction that `decode` reads from a table word. -/
def decodeTableWord (nbits w : Nat) : Option Instr :=
  match decode (tableBytes nbits w) with
  | .ok (i, _) => some i
  | .error _ => none

/-! ### Encoding -/

/-- The fixed part of an instruction, in stream order: R94 to R99, packed as R202 and R205 to R207 write it. LongLiteral
takes 0 for its ignored bits `cmd[4:2]`, the default of R106. -/
def encode : Instr → List Byte
  | .shortCopy length offset => [BitVec.ofNat 8 (concat 2 offset (length - 3))]
  | .medCopy length offset =>
    [BitVec.ofNat 8 (concat 6 0b01 (concat 2 (offset / 2 ^ 8) (length - 3))), BitVec.ofNat 8 (bits 7 0 offset)]
  | .longCopy length offset =>
    [BitVec.ofNat 8 (concat 6 0b10 (concat 2 (length - 7) (offset / 2 ^ 8))), BitVec.ofNat 8 (bits 7 0 offset)]
  | .extCopy length offset =>
    [BitVec.ofNat 8 (concat 4 0b1100 ((length - 7) / 2 ^ 4)),
     BitVec.ofNat 8 (concat 4 (bits 3 0 (length - 7)) (offset / 2 ^ 8)),
     BitVec.ofNat 8 (bits 7 0 offset)]
  | .shortLiteral length => [BitVec.ofNat 8 (concat 4 0b1101 (length - 1))]
  | .longLiteral length =>
    [BitVec.ofNat 8 (concat 5 0b111 ((length - 17) / 2 ^ 8)), BitVec.ofNat 8 (bits 7 0 (length - 17))]

/-- LongLiteral with the value `x` in its ignored bits `cmd[4:2]` (R99, the operand `x` of R106). -/
def encodeLongLiteral (length x : Nat) : List Byte :=
  [BitVec.ofNat 8 (concat 5 0b111 (concat 2 x ((length - 17) / 2 ^ 8))), BitVec.ofNat 8 (bits 7 0 (length - 17))]

end Sys2Proof
end

