-- ==== Sys2Proof/Machine/State.lean ====
section
/-! DEFINITION. The state of the three units (10_state.md R20, R21, R29, R31, R37, R38), as plain data, and its value
after reset (R41). Every field is listed with its rule and its reset value in INVENTORY.md. -/

namespace Sys2Proof.Machine

/-- The address spaces (20_memory.md R60), for naming an access. `CAND` is the `IN` of VER's inner DEC and is accessed
under that name. -/
inductive Space where
  | IN | OUT | SRC | SHADOW | PEND | CS | ORIG
  deriving DecidableEq, Repr

/-- Why the machine stops. No rule of the spec makes either access; both are here because the spec says the access has
no meaning. Safe: the model stops where the spec gives no value. -/
inductive Fault where
  /-- Raised by the memory operations of Ops.lean: an index at or beyond the end of its space (R60, R68, R69). Safe. -/
  | outsideSpace (space : Space) (index : Nat)
  /-- Raised by a read of `SHADOW` at or above `C`, or of `PEND` at or above `P`: bytes that hold no defined value
  (R33, R40, U11). Safe. -/
  | undefinedByte (space : Space) (index : Nat)
  deriving DecidableEq, Repr

/-- What the model gives no meaning to. -/
inductive Refusal where
  /-- Raised by `exec` for an instruction that has no meaning yet; no arm does so. Safe. -/
  | notModelled (mnemonic : String)
  /-- Raised by the host moves of HostCalls.lean on a unit that is RUNNING: "A unit in state RUNNING accepts no new
  call" (R284), and the host must not touch it (R285, U12). Safe. -/
  | callInProgress
  deriving DecidableEq, Repr

/-- The four values of a `status` register (R28). -/
inductive Status where
  | idle | running | done | failed
  deriving DecidableEq, Repr

/-- The values of an `err` register (60_exceptions.md R241), by name. -/
inductive ErrCode where
  | none | formatHeaderTooShort | formatUnknownOpcode | truncatedStream | inputTooLarge | verifyMismatch
  deriving DecidableEq, Repr

/-- The two kinds of VerificationMismatchError (45_round_trip_verifier.md R233). -/
inductive MismatchKind where
  | length | content
  deriving DecidableEq, Repr

/-- The three units (R20). -/
inductive Agent where
  | dec | cmp | ver
  deriving DecidableEq, Repr

/-- A byte space: pairs of an index and a byte, indices strictly rising, no entry equal to what an unlisted index reads
as (`Memory.wf` in Ops.lean). -/
abbrev Memory := List Host.Cell

/-- A DEC (R21, R29). -/
structure Dec where
  /-- `IN`. -/
  inMem : Memory
  /-- `in_len`. -/
  inLen : Nat
  /-- `declared_size`. -/
  declaredSize : Nat
  /-- `in_ptr`, the program counter (R22). -/
  inPtr : Nat
  /-- `out_ptr` (R23). -/
  outPtr : Nat
  /-- `OUT`. -/
  outMem : Memory
  /-- `status`. -/
  status : Status
  /-- `err`. -/
  err : ErrCode
  /-- `out_len` (R29). -/
  outLen : Nat
  /-- `comp_size` (R29, R161). -/
  compSize : Nat
  /-- `produced` (R29). -/
  produced : Nat
  /-- `short` (R29). -/
  short : Bool
  /-- The model's own, a DESIGN CHOICE: this call has done its header step (R151; log 3). -/
  headerRead : Bool
  deriving DecidableEq, Repr

/-- The CMP (R31, R37). -/
structure Cmp where
  /-- `SRC`. -/
  srcMem : Memory
  /-- `src_len`. -/
  srcLen : Nat
  /-- `cur` (R32). -/
  cur : Nat
  /-- `SHADOW` (R33). -/
  shadowMem : Memory
  /-- `C`, the committed length (R33). -/
  committed : Nat
  /-- `PEND` (R34). -/
  pendMem : Memory
  /-- `P`, the pending count (R34). -/
  pending : Nat
  /-- `CS` (R36). -/
  csMem : Memory
  /-- `cs_len` (R36). -/
  csLen : Nat
  /-- `status`. -/
  status : Status
  /-- `err`. -/
  err : ErrCode
  /-- The model's own, a DESIGN CHOICE: this call has done its size check and header step (R200; log 3). -/
  headerWritten : Bool
  deriving DecidableEq, Repr

/-- The VER (R38). `CAND` and `cand_len` are `inner.inMem` and `inner.inLen`. -/
structure Ver where
  /-- `ORIG`. -/
  origMem : Memory
  /-- `orig_len`. -/
  origLen : Nat
  /-- The inner DEC (R38, R231). -/
  inner : Dec
  /-- `status`. -/
  status : Status
  /-- `err`. -/
  err : ErrCode
  /-- `kind` (R233). -/
  kind : MismatchKind
  /-- `expected_len` (R233). -/
  expectedLen : Nat
  /-- `actual_len` (R233). -/
  actualLen : Nat
  /-- `first_offset` (R233). -/
  firstOffset : Nat
  /-- `mismatch_count` (R233). -/
  mismatchCount : Nat
  deriving DecidableEq, Repr

/-- The machine: the three units, which share no state (R20), and two fields of the model's own. -/
structure State where
  /-- The model's own, a DESIGN CHOICE: the unit `step` serves (log 2). -/
  turn : Agent
  /-- DEC. -/
  dec : Dec
  /-- CMP. -/
  cmp : Cmp
  /-- VER. -/
  ver : Ver
  /-- The model's own, a DESIGN CHOICE: the number of the next draw of free values (log 4). -/
  freeSeed : Nat
  deriving DecidableEq, Repr

/-- A DEC after reset: IDLE, NONE (R41); the other values are a DESIGN CHOICE (log 1). -/
def Dec.reset : Dec where
  inMem := []
  inLen := 0
  declaredSize := 0
  inPtr := 0
  outPtr := 0
  outMem := []
  status := .idle
  err := .none
  outLen := 0
  compSize := 0
  produced := 0
  short := false
  headerRead := false

/-- The CMP after reset: IDLE, NONE (R41); the other values are a DESIGN CHOICE (log 1). -/
def Cmp.reset : Cmp where
  srcMem := []
  srcLen := 0
  cur := 0
  shadowMem := []
  committed := 0
  pendMem := []
  pending := 0
  csMem := []
  csLen := 0
  status := .idle
  err := .none
  headerWritten := false

/-- The VER after reset: IDLE, NONE (R41); the other values are a DESIGN CHOICE (log 1). -/
def Ver.reset : Ver where
  origMem := []
  origLen := 0
  inner := Dec.reset
  status := .idle
  err := .none
  kind := .length
  expectedLen := 0
  actualLen := 0
  firstOffset := 0
  mismatchCount := 0

/-- The machine right after reset: no call has started (R28, R41). -/
def State.reset : State where
  turn := .dec
  dec := Dec.reset
  cmp := Cmp.reset
  ver := Ver.reset
  freeSeed := 0

end Sys2Proof.Machine
end

