-- ==== Sys2Proof/Machine/Flags.lean ====
section
/-! DEFINITION. Status values. The instruction set has no condition codes (10_state.md R28) and no instruction writes a
flag (R124, R142); what the spec computes is the numeric value of `status`, `err` and `kind`, and the result flag
`short` (R29). -/

namespace Sys2Proof.Machine

/-- The numeric value of a `status` register (R28). -/
def Status.code : Status → Nat
  | .idle => 0
  | .running => 1
  | .done => 2
  | .failed => 3

/-- The numeric value of an `err` register (60_exceptions.md R241). -/
def ErrCode.code : ErrCode → Nat
  | .none => 0
  | .formatHeaderTooShort => 1
  | .formatUnknownOpcode => 2
  | .truncatedStream => 3
  | .inputTooLarge => 4
  | .verifyMismatch => 5

/-- The numeric value of `kind` (45_round_trip_verifier.md R233). -/
def MismatchKind.code : MismatchKind → Nat
  | .length => 0
  | .content => 1

/-- `short = (produced < out_len)` (R29), that is `out_ptr < declared_size` (R160). -/
def Dec.shortFlag (d : Dec) : Bool := decide (d.outPtr < d.declaredSize)

end Sys2Proof.Machine
end

