-- ==== Sys2Proof/Machine/Ops.lean ====
section
/-! DEFINITION. The named operations over the state: bytes of a memory (20_memory.md R60 to R70), the byte accesses of
each unit to its spaces, taking an exception (60_exceptions.md R246), ending a call, and what a unit holds between
calls and at the start of a call (10_state.md R39 to R41). -/

namespace Sys2Proof.Machine

/-! ### Memory -/

/-- What an index that a memory does not list reads as: `PAD_BYTE`. In `OUT` that is the value of a byte no instruction
produced (R62); in every other space each byte below its length is host data or was written, and the choice of which
value is left unlisted is representation only, a DESIGN CHOICE (log 15). -/
def Memory.unlisted : Byte := Config.padByte

/-- The byte at an index. -/
def Memory.read : Memory → Nat → Byte
  | [], _ => Memory.unlisted
  | (k, v) :: rest, a => if k = a then v else Memory.read rest a

/-- Store a byte at an index, keeping the canonical form. -/
def Memory.write : Memory → Nat → Byte → Memory
  | [], a, b => if b = Memory.unlisted then [] else [(a, b)]
  | (k, v) :: rest, a, b =>
    if k < a then (k, v) :: Memory.write rest a b
    else
      let tail := if k = a then rest else (k, v) :: rest
      if b = Memory.unlisted then tail else (a, b) :: tail

/-- The canonical form: indices strictly rising, and no entry equal to what an unlisted index reads as. -/
abbrev Memory.wf (m : Memory) : Prop :=
  m.Pairwise (fun c c' => c.1 < c'.1) ∧ ∀ c ∈ m, c.2 ≠ Memory.unlisted

/-- Nothing is listed at or above an index. -/
abbrev Memory.below (m : Memory) (n : Nat) : Prop := ∀ c ∈ m, c.1 < n

/-- The memory that holds a byte sequence from an index on. -/
def Memory.ofBytesFrom : Nat → List Byte → Memory
  | _, [] => []
  | a, b :: rest =>
    if b = Memory.unlisted then Memory.ofBytesFrom (a + 1) rest else (a, b) :: Memory.ofBytesFrom (a + 1) rest

/-- The memory that holds a byte sequence from index 0 on. -/
def Memory.ofBytes (bytes : List Byte) : Memory := Memory.ofBytesFrom 0 bytes

/-- `S[a..b)` of R13, for `a = 0`. -/
def Memory.toBytes (m : Memory) (n : Nat) : List Byte := (List.range n).map (Memory.read m)

/-- A memory of `n` bytes of no defined value: free values (log 4). -/
def Memory.free (tag : Config.FreeMem) (draw n : Nat) : Memory :=
  Memory.ofBytes ((List.range n).map (Config.freeByte tag draw))

/-- Bytes stored one after another from an index on. -/
def Memory.writeAll (m : Memory) : Nat → List Byte → Memory
  | _, [] => m
  | a, b :: rest => Memory.writeAll (Memory.write m a b) (a + 1) rest

/-- Nothing listed from index `a` to `a + n - 1`. -/
def Memory.clear (m : Memory) (a n : Nat) : Memory := m.filter (fun c => !(decide (a ≤ c.1) && decide (c.1 < a + n)))

/-! ### The byte accesses of DEC (R13, R62, R68, R69) -/

/-- `IN[i]`. -/
def Dec.readIn (d : Dec) (i : Nat) : Except Fault Byte :=
  if i < d.inLen then .ok (d.inMem.read i) else .error (.outsideSpace .IN i)

/-- `OutRead(i)` of R62: the sentinel at a negative index, and `OUT[i]` at any other. -/
def Dec.readOut (d : Dec) (i : Int) : Except Fault Byte :=
  if i < 0 then .ok Config.sentinel
  else if i.toNat < d.declaredSize then .ok (d.outMem.read i.toNat)
  else .error (.outsideSpace .OUT i.toNat)

/-- `OUT[i] <- b`. -/
def Dec.writeOut (d : Dec) (i : Nat) (b : Byte) : Except Fault Dec :=
  if i < d.declaredSize then .ok { d with outMem := d.outMem.write i b } else .error (.outsideSpace .OUT i)

/-! ### The byte accesses of CMP (R31, R33, R34, R36) -/

/-- `SRC[i]`. -/
def Cmp.readSrc (c : Cmp) (i : Nat) : Except Fault Byte :=
  if i < c.srcLen then .ok (c.srcMem.read i) else .error (.outsideSpace .SRC i)

/-- `SHADOW[i]`; a byte at or above `C` holds no defined value (R33). -/
def Cmp.readShadow (c : Cmp) (i : Nat) : Except Fault Byte :=
  if c.srcLen ≤ i then .error (.outsideSpace .SHADOW i)
  else if c.committed ≤ i then .error (.undefinedByte .SHADOW i)
  else .ok (c.shadowMem.read i)

/-- `PEND[i]`; a byte at or above `P` holds no defined value (R34, R40). -/
def Cmp.readPend (c : Cmp) (i : Nat) : Except Fault Byte :=
  if Config.pendMax ≤ i then .error (.outsideSpace .PEND i)
  else if c.pending ≤ i then .error (.undefinedByte .PEND i)
  else .ok (c.pendMem.read i)

/-- `SHADOW[C] <- b; C <- C + 1`. -/
def Cmp.appendShadow (c : Cmp) (b : Byte) : Except Fault Cmp :=
  if c.committed < c.srcLen then
    .ok { c with shadowMem := c.shadowMem.write c.committed b, committed := c.committed + 1 }
  else .error (.outsideSpace .SHADOW c.committed)

/-- `PEND[P] <- b; P <- P + 1`. -/
def Cmp.appendPend (c : Cmp) (b : Byte) : Except Fault Cmp :=
  if c.pending < Config.pendMax then
    .ok { c with pendMem := c.pendMem.write c.pending b, pending := c.pending + 1 }
  else .error (.outsideSpace .PEND c.pending)

/-- `CS[cs_len] <- b; cs_len <- cs_len + 1`. -/
def Cmp.appendCs (c : Cmp) (b : Byte) : Except Fault Cmp :=
  if c.csLen < Config.csMax then .ok { c with csMem := c.csMem.write c.csLen b, csLen := c.csLen + 1 }
  else .error (.outsideSpace .CS c.csLen)

/-- Bytes appended to `CS` one after another. -/
def Cmp.appendCsAll (c : Cmp) : List Byte → Except Fault Cmp
  | [] => .ok c
  | b :: rest =>
    match c.appendCs b with
    | .ok c' => c'.appendCsAll rest
    | .error f => .error f

/-! ### The byte access of VER (R60) -/

/-- `ORIG[i]`. -/
def Ver.readOrig (v : Ver) (i : Nat) : Except Fault Byte :=
  if i < v.origLen then .ok (v.origMem.read i) else .error (.outsideSpace .ORIG i)

/-! ### The DEC an instruction acts on -/

/-- The DEC whose instruction the machine executes: VER's inner DEC when it is VER's turn, and DEC otherwise. -/
def State.curDec (s : State) : Dec :=
  match s.turn with
  | .ver => s.ver.inner
  | .dec => s.dec
  | .cmp => s.dec

/-- That DEC replaced. -/
def State.setCurDec (s : State) (d : Dec) : State :=
  match s.turn with
  | .ver => { s with ver := { s.ver with inner := d } }
  | .dec => { s with dec := d }
  | .cmp => { s with dec := d }

/-! ### Units that hold no defined value (R39, R40, R41) -/

/-- A DEC between calls: IDLE and NONE, and everything else of no defined value (R41, U10). -/
def Dec.unspecified (draw : Nat) : Dec where
  inMem := Memory.free .inMem draw (Config.freeNat .inLen draw)
  inLen := Config.freeNat .inLen draw
  declaredSize := Config.freeNat .declaredSize draw
  inPtr := Config.freeNat .inPtr draw
  outPtr := Config.freeNat .outPtr draw
  outMem := Memory.free .outMem draw (Config.freeNat .declaredSize draw)
  status := .idle
  err := .none
  outLen := Config.freeNat .outLen draw
  compSize := Config.freeNat .compSize draw
  produced := Config.freeNat .produced draw
  short := Config.freeBit .short draw
  headerRead := false

/-- The start of a DEC call (R39): RUNNING, NONE, `IN` and `in_len` as they are, everything else of no defined value
until the header step. -/
def Dec.begin (d : Dec) (draw : Nat) : Dec :=
  { Dec.unspecified draw with inMem := d.inMem, inLen := d.inLen, status := .running }

/-- A CMP between calls (R41, U10). -/
def Cmp.unspecified (draw : Nat) : Cmp where
  srcMem := Memory.free .srcMem draw (Config.freeNat .srcLen draw)
  srcLen := Config.freeNat .srcLen draw
  cur := Config.freeNat .cur draw
  shadowMem := Memory.free .shadowMem draw (Config.freeNat .committed draw)
  committed := Config.freeNat .committed draw
  pendMem := Memory.free .pendMem draw (Config.freeNat .pending draw)
  pending := Config.freeNat .pending draw
  csMem := Memory.free .csMem draw (Config.freeNat .csLen draw)
  csLen := Config.freeNat .csLen draw
  status := .idle
  err := .none
  headerWritten := false

/-- The start of a CMP call (R40): RUNNING, NONE, `SRC` and `src_len` as they are, everything else of no defined value
until the header step. -/
def Cmp.begin (c : Cmp) (draw : Nat) : Cmp :=
  { Cmp.unspecified draw with srcMem := c.srcMem, srcLen := c.srcLen, status := .running }

/-- A VER between calls (R41, U10). -/
def Ver.unspecified (draw : Nat) : Ver where
  origMem := Memory.free .origMem draw (Config.freeNat .origLen draw)
  origLen := Config.freeNat .origLen draw
  inner := Dec.unspecified draw
  status := .idle
  err := .none
  kind := if Config.freeBit .kind draw then .content else .length
  expectedLen := Config.freeNat .expectedLen draw
  actualLen := Config.freeNat .actualLen draw
  firstOffset := Config.freeNat .firstOffset draw
  mismatchCount := Config.freeNat .mismatchCount draw

/-- The start of a VER call: RUNNING, NONE, `ORIG`, `orig_len`, `CAND` and `cand_len` as they are; the inner DEC not
started; everything else of no defined value (R38, R41). -/
def Ver.begin (v : Ver) (draw : Nat) : Ver :=
  { Ver.unspecified draw with
    origMem := v.origMem
    origLen := v.origLen
    inner := { Dec.unspecified draw with inMem := v.inner.inMem, inLen := v.inner.inLen }
    status := .running }

/-! ### Taking an exception, and what stands beside it -/

/-- A DEC whose call ends with `raise E` (R246): FAILED, the code of `E`; `out_len`, `comp_size`, `produced`, `short`
and the bytes of `OUT` hold no defined value. No program counter or cause beyond `err` is saved, and there is no
handler. -/
def Dec.afterRaise (d : Dec) (e : ErrCode) (draw : Nat) : Dec :=
  { d with
    status := .failed
    err := e
    outMem := Memory.free .outMem draw d.declaredSize
    outLen := Config.freeNat .outLen draw
    compSize := Config.freeNat .compSize draw
    produced := Config.freeNat .produced draw
    short := Config.freeBit .short draw }

/-- A CMP whose call ends with `raise E` (R244, R246): FAILED, the code of `E`, `cs_len = 0` and `CS` empty (R37). -/
def Cmp.afterRaise (c : Cmp) (e : ErrCode) : Cmp :=
  { c with status := .failed, err := e, csLen := 0, csMem := [] }

/-- A VER whose call ends with `raise E` (R245, R246): FAILED and the code of `E`; the five result registers keep what
the procedure of R231 put there. -/
def Ver.afterRaise (v : Ver) (e : ErrCode) : Ver := { v with status := .failed, err := e }

/-- `raise E` (R14, R246), the one way an exception is taken: the unit's call ends, and control goes to the host. Under
`Agent.dec` the unit is the DEC that executes, VER's inner DEC when it is VER's turn. -/
def State.raise (s : State) (u : Agent) (e : ErrCode) : State :=
  match u with
  | .dec => { s.setCurDec (s.curDec.afterRaise e s.freeSeed) with freeSeed := s.freeSeed + 1 }
  | .cmp => { s with cmp := s.cmp.afterRaise e }
  | .ver => { s with ver := s.ver.afterRaise e }

/-- There is no return from an error (R250): a failed call is over, and so is a finished one. What the host can do is
acknowledge the result (R28), which puts the unit between calls (R41): IDLE, NONE and nothing else defined. -/
def State.toIdle (s : State) (u : Agent) : State :=
  match u with
  | .dec => { s with dec := Dec.unspecified s.freeSeed, freeSeed := s.freeSeed + 1 }
  | .cmp => { s with cmp := Cmp.unspecified s.freeSeed, freeSeed := s.freeSeed + 1 }
  | .ver => { s with ver := Ver.unspecified s.freeSeed, freeSeed := s.freeSeed + 1 }

/-- `halt(DONE)` of DEC (R14, R152) with the result registers of R29, R160, R161. -/
def Dec.afterHalt (d : Dec) : Dec :=
  { d with
    status := .done
    outLen := d.declaredSize
    compSize := d.inPtr
    produced := d.outPtr
    short := d.shortFlag }

/-- The status register of a unit. -/
def State.statusOf (s : State) (u : Agent) : Status :=
  match u with
  | .dec => s.dec.status
  | .cmp => s.cmp.status
  | .ver => s.ver.status

/-! ### The outcome of an operation that may fault -/

/-- The outcome of a step whose new state is made from the result of an operation. -/
def outcomeOf {α : Type} (x : Except Fault α) (k : α → State) : Host.Outcome State Fault Refusal :=
  match x with
  | .ok a => .next (k a)
  | .error f => .fault f

end Sys2Proof.Machine
end

