-- ==== Sys2Proof/Machine/MatchFinder.lean ====
section
/-! DEFINITION. The match finder of CMP (43_match_finder.md R180 to R193): the history-buffer scan and the longest-match
selector, with the form selector of 44_instruction_encoder.md R204 that it calls. -/

namespace Sys2Proof.Machine

/-- `SelectForm(len, offset)` (R204): the first test that holds wins. -/
def selectForm (len offset : Nat) : Option Form :=
  if len ≤ 6 ∧ offset ≤ Config.offScMax then some .shortCopy
  else if len ≤ 6 ∧ offset ≤ Config.offMcEncMax then some .medCopy
  else if 7 ≤ len ∧ len ≤ 22 ∧ offset ≤ Config.offLcMax then some .longCopy
  else if 7 ≤ len ∧ len ≤ Config.extLenMax ∧ offset ≤ Config.offEcMax then some .extCopy
  else none

/-- `maxlen` (R182). -/
def Cmp.maxLen (c : Cmp) : Nat := min Config.maxMatch (c.srcLen - c.cur)

/-- `V(i)`, the virtual history (R181): committed bytes, then pending literals, then the bytes of the copy itself. -/
def Cmp.virt (c : Cmp) (i : Nat) : Except Fault Byte :=
  if i < c.committed then c.readShadow i
  else if i < c.committed + c.pending then c.readPend (i - c.committed)
  else c.readSrc (c.cur + (i - (c.committed + c.pending)))

/-- The loop of `Run(p)` (R184), from a run of `run` bytes on, with `fuel = maxlen - run`. -/
def Cmp.runFrom (c : Cmp) (p run : Nat) : Nat → Except Fault Nat
  | 0 => .ok run
  | fuel + 1 =>
    match c.virt (p + run), c.readSrc (c.cur + run) with
    | .ok v, .ok b => if v = b then c.runFrom p (run + 1) fuel else .ok run
    | .error f, _ => .error f
    | _, .error f => .error f

/-- `Run(p)` (R184). -/
def Cmp.runAt (c : Cmp) (p : Nat) : Except Fault Nat := c.runFrom p 0 c.maxLen

/-- A candidate position with its run length. -/
structure Candidate where
  pos : Nat
  len : Nat
  deriving DecidableEq, Repr

/-- `best_len`, 0 before any candidate was kept (R186). -/
def bestLen (best : Option Candidate) : Nat :=
  match best with
  | none => 0
  | some b => b.len

/-- The loop of R186 over the `n` candidates `lo .. lo + n - 1`, from the most recent to the oldest; a candidate is kept
only when its run is strictly longer. -/
def Cmp.scan (c : Cmp) (lo : Nat) : Nat → Option Candidate → Except Fault (Option Candidate)
  | 0, best => .ok best
  | n + 1, best =>
    match c.runAt (lo + n) with
    | .error f => .error f
    | .ok r => c.scan lo n (if bestLen best < r then some ⟨lo + n, r⟩ else best)

/-- The oldest candidate, `max(0, C - 4095)` (R183). -/
def Cmp.windowStart (c : Cmp) : Nat := if c.committed ≤ Config.window then 0 else c.committed - Config.window

/-- The candidates of R183 scanned (R186). -/
def Cmp.bestCandidate (c : Cmp) : Except Fault (Option Candidate) :=
  c.scan c.windowStart (c.committed - c.windowStart) none

/-- A usable match (R180, R188). -/
structure Match where
  pos : Nat
  len : Nat
  effOff : Nat
  form : Form
  deriving DecidableEq, Repr

/-- `eff_off` (R187): the offset as if the pending literals were flushed. -/
def Cmp.effOff (c : Cmp) (pos : Nat) : Nat := c.committed + c.pending - pos - 1

/-- The usability test of the one selected candidate (R188). -/
def Cmp.usable (c : Cmp) (best : Option Candidate) : Option Match :=
  match best with
  | none => none
  | some b =>
    if b.len < Config.minMatch then none
    else
      match selectForm b.len (c.effOff b.pos) with
      | none => none
      | some form => some ⟨b.pos, b.len, c.effOff b.pos, form⟩

/-- `FindMatch()` (R189). It writes no state. -/
def Cmp.findMatch (c : Cmp) : Except Fault (Option Match) :=
  match c.bestCandidate with
  | .error f => .error f
  | .ok best => .ok (c.usable best)

end Sys2Proof.Machine
end

