-- ==== Sys2Proof/Machine/Encoder.lean ====
section
/-! DEFINITION. The instruction encoder of CMP (44_instruction_encoder.md R200 to R220): the header step, the literal-run
buffer and its flush, copy emission, and one step of CMP. -/

namespace Sys2Proof.Machine

/-- The header step (R200), after the size check: the little-endian source length in `CS[0..2)`, and `cur`, `C`, `P`
zero. `SHADOW` and `PEND` list nothing: they hold no defined value (R40). -/
def Cmp.headerStep (c : Cmp) : Except Fault Cmp :=
  { c with
    cur := 0
    shadowMem := []
    committed := 0
    pendMem := []
    pending := 0
    csMem := []
    csLen := 0
    headerWritten := true }.appendCsAll
      [BitVec.ofNat 8 (bits 7 0 c.srcLen), BitVec.ofNat 8 (c.srcLen / 2 ^ 8)]

/-- The loop of R202: each pending byte goes to `CS` and to `SHADOW`, from `PEND[j]` on. -/
def Cmp.flushLoop : Nat → Nat → Cmp → Except Fault Cmp
  | 0, _, c => .ok c
  | n + 1, j, c =>
    match c.readPend j with
    | .error f => .error f
    | .ok b =>
      match c.appendCs b with
      | .error f => .error f
      | .ok c1 =>
        match c1.appendShadow b with
        | .error f => .error f
        | .ok c2 => Cmp.flushLoop n (j + 1) c2

/-- `Flush()` (R202): one ShortLiteral with the pending bytes, or nothing for an empty buffer. -/
def Cmp.flush (c : Cmp) : Except Fault Cmp :=
  if 0 < c.pending then
    match c.appendCsAll (encode (.shortLiteral c.pending)) with
    | .error f => .error f
    | .ok c1 =>
      match Cmp.flushLoop c.pending 0 c1 with
      | .error f => .error f
      | .ok c2 => .ok { c2 with pending := 0, pendMem := [] }
  else .ok c

/-- The instruction that carries a match of a form (R205 to R207). `SelectForm` gives copy forms only, and CMP emits no
LongLiteral (R203). -/
def matchInstr (m : Match) : Instr :=
  match m.form with
  | .shortCopy => .shortCopy m.len m.effOff
  | .medCopy => .medCopy m.len m.effOff
  | .longCopy => .longCopy m.len m.effOff
  | .extCopy => .extCopy m.len m.effOff
  | .shortLiteral => .shortLiteral m.len
  | .longLiteral => .longLiteral m.len

/-- The loop of R208: the matched bytes appended to `SHADOW` one at a time, each read from `SHADOW` (R214). -/
def Cmp.shadowLoop : Nat → Nat → Cmp → Except Fault Cmp
  | 0, _, c => .ok c
  | n + 1, p, c =>
    match c.readShadow p with
    | .error f => .error f
    | .ok b =>
      match c.appendShadow b with
      | .error f => .error f
      | .ok c' => Cmp.shadowLoop n (p + 1) c'

/-- `EmitCopy` (R208): the flush, the fixed part of the copy, the bytes of the history, the source position. -/
def Cmp.emitCopy (c : Cmp) (m : Match) : Except Fault Cmp :=
  match c.flush with
  | .error f => .error f
  | .ok c1 =>
    match c1.appendCsAll (encode (matchInstr m)) with
    | .error f => .error f
    | .ok c2 =>
      match Cmp.shadowLoop m.len m.pos c2 with
      | .error f => .error f
      | .ok c3 => .ok { c3 with cur := c3.cur + m.len }

/-- `PushLiteral` (R209): one source byte into `PEND`, and a flush when it is full. -/
def Cmp.pushLiteral (c : Cmp) : Except Fault Cmp :=
  match c.readSrc c.cur with
  | .error f => .error f
  | .ok b =>
    match c.appendPend b with
    | .error f => .error f
    | .ok c1 =>
      if c1.pending = Config.pendMax then Cmp.flush { c1 with cur := c1.cur + 1 }
      else .ok { c1 with cur := c1.cur + 1 }

/-- `CmpStep()` (R210): the longest usable match is taken at once, and a literal when there is none. -/
def Cmp.cmpStep (c : Cmp) : Except Fault Cmp :=
  match c.findMatch with
  | .error f => .error f
  | .ok none => c.pushLiteral
  | .ok (some m) => c.emitCopy m

/-- The end of a call (R211): the last flush and `halt(DONE)`. -/
def Cmp.finish (c : Cmp) : Except Fault Cmp :=
  match c.flush with
  | .error f => .error f
  | .ok c' => .ok { c' with status := .done }

/-- One step of CMP (R212): the size check and header step, then a `CmpStep` for each source position, then the end. -/
def State.serveCmp (s : State) : Host.Outcome State Fault Refusal :=
  if s.cmp.headerWritten then
    if s.cmp.cur < s.cmp.srcLen then outcomeOf s.cmp.cmpStep (fun c => { s with cmp := c })
    else outcomeOf s.cmp.finish (fun c => { s with cmp := c })
  else if Config.sizeMax < s.cmp.srcLen then .next (s.raise .cmp .inputTooLarge)
  else outcomeOf s.cmp.headerStep (fun c => { s with cmp := c })

end Sys2Proof.Machine
end

