-- ==== Sys2Proof/Machine/Operands.lean ====
section
/-! DEFINITION. The operand forms (F6): a source in `OUT` at `out_ptr - (offset + 1)` with post-increment and the
sentinel below index 0 (copies), a source in `IN` at `in_ptr` with post-increment (literals), the destination `OUT` at
`out_ptr` with post-increment; and the clamped byte counts. -/

namespace Sys2Proof.Machine

/-- `n` of a copy: `min(length, declared_size - out_ptr)` (40_copy_instructions.md R120). -/
def Dec.copyCount (d : Dec) (length : Nat) : Nat := min length (d.declaredSize - d.outPtr)

/-- `src_idx` at the start of a copy: `out_ptr - (offset + 1)`, signed (R120, R125). -/
def Dec.copySource (d : Dec) (offset : Nat) : Int := (d.outPtr : Int) - ((offset : Int) + 1)

/-- `n` of a literal: `min(length, in_len - in_ptr, declared_size - out_ptr)` (41_literal_instructions.md R140). -/
def Dec.literalCount (d : Dec) (length : Nat) : Nat :=
  min length (min (d.inLen - d.inPtr) (d.declaredSize - d.outPtr))

/-- `OUT[out_ptr] <- b; out_ptr <- out_ptr + 1` (R120, R140). -/
def Dec.produce (d : Dec) (b : Byte) : Except Fault Dec :=
  match d.writeOut d.outPtr b with
  | .ok d' => .ok { d' with outPtr := d.outPtr + 1 }
  | .error f => .error f

/-- `b <- IN[in_ptr]; in_ptr <- in_ptr + 1` (42_decompressor_engine.md R154, R155, 41_literal_instructions.md R140). -/
def Dec.consume (d : Dec) : Except Fault (Byte × Dec) :=
  match d.readIn d.inPtr with
  | .ok b => .ok (b, { d with inPtr := d.inPtr + 1 })
  | .error f => .error f

end Sys2Proof.Machine
end

