-- ==== Sys2Proof/Machine/Copy.lean ====
section
/-! DEFINITION. The four copy instructions: the back-reference resolver (40_copy_instructions.md R120 to R132). -/

namespace Sys2Proof.Machine

/-- The byte loop of R120: byte `k` is written before the source byte for `k + 1` is read (R121), and the test for a
negative source index is made for every byte (R122). -/
def Dec.copyLoop : Nat → Int → Dec → Except Fault Dec
  | 0, _, d => .ok d
  | n + 1, src, d =>
    match d.readOut src with
    | .error f => .error f
    | .ok b =>
      match d.produce b with
      | .error f => .error f
      | .ok d' => Dec.copyLoop n (src + 1) d'

/-- `ExecCopy(length, offset)` (R120). -/
def Dec.execCopy (d : Dec) (length offset : Nat) : Except Fault Dec :=
  Dec.copyLoop (d.copyCount length) (d.copySource offset) d

/-- `ExecCopy` on the DEC that executes. -/
def State.execCopy (s : State) (length offset : Nat) : Host.Outcome State Fault Refusal :=
  outcomeOf (s.curDec.execCopy length offset) s.setCurDec

/-- ShortCopy (R126). -/
def execShortCopy (length offset : Nat) (s : State) : Host.Outcome State Fault Refusal := s.execCopy length offset

/-- MedCopy (R127). -/
def execMedCopy (length offset : Nat) (s : State) : Host.Outcome State Fault Refusal := s.execCopy length offset

/-- LongCopy (R128). -/
def execLongCopy (length offset : Nat) (s : State) : Host.Outcome State Fault Refusal := s.execCopy length offset

/-- ExtCopy (R129). -/
def execExtCopy (length offset : Nat) (s : State) : Host.Outcome State Fault Refusal := s.execCopy length offset

end Sys2Proof.Machine
end

