-- ==== Sys2Proof/Machine/Literal.lean ====
section
/-! DEFINITION. The two literal instructions: the literal-run copier (41_literal_instructions.md R140 to R147). -/

namespace Sys2Proof.Machine

/-- The byte loop of R140. -/
def Dec.literalLoop : Nat → Dec → Except Fault Dec
  | 0, d => .ok d
  | n + 1, d =>
    match d.consume with
    | .error f => .error f
    | .ok (b, d') =>
      match d'.produce b with
      | .error f => .error f
      | .ok d'' => Dec.literalLoop n d''

/-- `ExecLiteral(length)` (R140). -/
def Dec.execLiteral (d : Dec) (length : Nat) : Except Fault Dec := Dec.literalLoop (d.literalCount length) d

/-- `ExecLiteral` on the DEC that executes. -/
def State.execLiteral (s : State) (length : Nat) : Host.Outcome State Fault Refusal :=
  outcomeOf (s.curDec.execLiteral length) s.setCurDec

/-- ShortLiteral (R143). -/
def execShortLiteral (length : Nat) (s : State) : Host.Outcome State Fault Refusal := s.execLiteral length

/-- LongLiteral (R144). -/
def execLongLiteral (length : Nat) (s : State) : Host.Outcome State Fault Refusal := s.execLiteral length

end Sys2Proof.Machine
end

