-- ==== Sys2Proof/Machine/Dispatch.lean ====
section
/-! DEFINITION. The meaning of every instruction, one arm per constructor of Instr. -/

namespace Sys2Proof.Machine

def exec (i : Instr) (s : State) : Host.Outcome State Fault Refusal :=
  match i with
  | .shortCopy length offset => Sys2Proof.Machine.execShortCopy length offset s
  | .medCopy length offset => Sys2Proof.Machine.execMedCopy length offset s
  | .longCopy length offset => Sys2Proof.Machine.execLongCopy length offset s
  | .extCopy length offset => Sys2Proof.Machine.execExtCopy length offset s
  | .shortLiteral length => Sys2Proof.Machine.execShortLiteral length s
  | .longLiteral length => Sys2Proof.Machine.execLongLiteral length s

end Sys2Proof.Machine
end

