-- ==== Sys2Proof/Machine/Engine.lean ====
section
/-! DEFINITION. The output sequencer of DEC (42_decompressor_engine.md R150 to R166): the header step, the loop test, the
fetch of an instruction, and one step of the DEC that executes. -/

namespace Sys2Proof.Machine

/-- The header step (R151), with the declared size little-endian (R64). `OUT` lists nothing: each of its
`declared_size` bytes is `PAD_BYTE`. -/
def Dec.headerStep (d : Dec) : Except Fault Dec :=
  match d.readIn 0, d.readIn 1 with
  | .ok b0, .ok b1 =>
    .ok { d with
      declaredSize := concat 8 b1.toNat b0.toNat
      inPtr := Config.hdrLen
      outPtr := 0
      outMem := []
      headerRead := true }
  | .error f, _ => .error f
  | _, .error f => .error f

/-- `k` bytes consumed from `IN` one after another (R155). -/
def Dec.consumeMany : Nat → Dec → Except Fault (List Byte × Dec)
  | 0, d => .ok ([], d)
  | k + 1, d =>
    match d.consume with
    | .error f => .error f
    | .ok (b, d') =>
      match Dec.consumeMany k d' with
      | .error f => .error f
      | .ok (bs, d'') => .ok (b :: bs, d'')

/-- What a fetch gives: an instruction, or the error the step raises; and the DEC with the bytes consumed. -/
inductive Fetched where
  | instr (i : Instr) (d : Dec)
  | raises (e : ErrCode) (d : Dec)
  deriving DecidableEq, Repr

/-- The fetch of one instruction (R153 to R156): `cmd`, the one check for all `k` extra bytes, the extra bytes,
`Decode`. -/
def Dec.fetch (d : Dec) : Except Fault Fetched :=
  match d.consume with
  | .error f => .error f
  | .ok (cmd, d1) =>
    match formOf cmd with
    | none => .ok (.raises .formatUnknownOpcode d1)
    | some form =>
      if d1.inLen < d1.inPtr + form.extraBytes then .ok (.raises .truncatedStream d1)
      else
        match d1.consumeMany form.extraBytes with
        | .error f => .error f
        | .ok (extra, d2) =>
          .ok (.instr (decodeForm form cmd.toNat (extra.getD 0 0).toNat (extra.getD 1 0).toNat) d2)

/-- `Step()` of R153: fetch, decode and execute one instruction, or raise. -/
def State.instrStep (s : State) : Host.Outcome State Fault Refusal :=
  match s.curDec.fetch with
  | .error f => .fault f
  | .ok (.raises e d) => .next ((s.setCurDec d).raise .dec e)
  | .ok (.instr i d) => exec i (s.setCurDec d)

/-- One step of the DEC that executes: before the header step the header check (R150) and the header step (R151), after
it the loop test (R152) and `Step()` or `halt(DONE)`. -/
def State.serveDec (s : State) : Host.Outcome State Fault Refusal :=
  if s.curDec.headerRead then
    if s.curDec.outPtr < s.curDec.declaredSize ∧ s.curDec.inPtr < s.curDec.inLen then s.instrStep
    else .next (s.setCurDec s.curDec.afterHalt)
  else if s.curDec.inLen < Config.hdrLen then .next (s.raise .dec .formatHeaderTooShort)
  else outcomeOf s.curDec.headerStep s.setCurDec

end Sys2Proof.Machine
end

