-- ==== Sys2Proof/Machine/Verifier.lean ====
section
/-! DEFINITION. The round-trip verifier VER (45_round_trip_verifier.md R230 to R235). -/

namespace Sys2Proof.Machine

/-- The indices at which the decompressed bytes differ from the original, from `i` on over `n` indices, ascending
(R231). -/
def Ver.mismatches (v : Ver) : Nat → Nat → Except Fault (List Nat)
  | 0, _ => .ok []
  | n + 1, i =>
    match v.inner.readOut (i : Int), v.readOrig i with
    | .ok a, .ok b =>
      match v.mismatches n (i + 1) with
      | .error f => .error f
      | .ok rest => .ok (if a = b then rest else i :: rest)
    | .error f, _ => .error f
    | _, .error f => .error f

/-- The five result registers written (R233). -/
def Ver.report (v : Ver) (kind : MismatchKind) (firstOffset mismatchCount : Nat) : Ver :=
  { v with
    kind := kind
    expectedLen := v.origLen
    actualLen := v.inner.outLen
    firstOffset := firstOffset
    mismatchCount := mismatchCount }

/-- The comparison of R231, when the inner DEC is DONE: the length first, then the content. -/
def State.compareStep (s : State) : Host.Outcome State Fault Refusal :=
  if s.ver.inner.outLen ≠ s.ver.origLen then
    .next ({ s with ver := s.ver.report .length (min s.ver.origLen s.ver.inner.outLen) 0 }.raise .ver .verifyMismatch)
  else
    match s.ver.mismatches s.ver.origLen 0 with
    | .error f => .fault f
    | .ok [] => .next { s with ver := { s.ver with status := .done } }
    | .ok (first :: rest) =>
      .next ({ s with ver := s.ver.report .content first (rest.length + 1) }.raise .ver .verifyMismatch)

/-- One step of VER (R231): the inner DEC is started, runs step by step as any DEC does, and at its end its error is
passed on or its output compared. -/
def State.serveVer (s : State) : Host.Outcome State Fault Refusal :=
  match s.ver.inner.status with
  | .idle =>
    .next { s with ver := { s.ver with inner := s.ver.inner.begin s.freeSeed }, freeSeed := s.freeSeed + 1 }
  | .running => s.serveDec
  | .failed => .next (s.raise .ver s.ver.inner.err)
  | .done => s.compareStep

end Sys2Proof.Machine
end

