-- ==== Sys2Proof/Machine/HostCalls.lean ====
section
/-! DEFINITION. The host's side (70_reset_and_hazards.md R282 to R286): starting a call, acknowledging and reading a
result, and the placing of an instruction for the host of this model. None of them is a step of the machine. -/

namespace Sys2Proof.Machine

/-! ### Starting a call (R39, R40, R282 to R285) -/

/-- A decode call: the host hands over `IN` and `in_len`. A RUNNING unit accepts no new call (R284). -/
def startDecode (input : List Byte) (s : State) : Host.Outcome State Fault Refusal :=
  if s.dec.status = .running then .refused .callInProgress
  else
    .next { s with
      turn := .dec
      dec := { s.dec with inMem := Memory.ofBytes input, inLen := input.length }.begin s.freeSeed
      freeSeed := s.freeSeed + 1 }

/-- An encode call: the host hands over `SRC` and `src_len`. -/
def startEncode (source : List Byte) (s : State) : Host.Outcome State Fault Refusal :=
  if s.cmp.status = .running then .refused .callInProgress
  else
    .next { s with
      turn := .cmp
      cmp := { s.cmp with srcMem := Memory.ofBytes source, srcLen := source.length }.begin s.freeSeed
      freeSeed := s.freeSeed + 1 }

/-- A verify call: the host hands over `ORIG`, `orig_len`, `CAND` and `cand_len`. -/
def startVerify (original candidate : List Byte) (s : State) : Host.Outcome State Fault Refusal :=
  if s.ver.status = .running then .refused .callInProgress
  else
    .next { s with
      turn := .ver
      ver :=
        { s.ver with
          origMem := Memory.ofBytes original
          origLen := original.length
          inner := { s.ver.inner with inMem := Memory.ofBytes candidate, inLen := candidate.length } }.begin s.freeSeed
      freeSeed := s.freeSeed + 1 }

/-! ### The end of a call -/

/-- The host acknowledges the last result of a unit (R28). There is none to acknowledge on an IDLE unit, and the host
must not touch a RUNNING one (R285). -/
def acknowledge (u : Agent) (s : State) : Host.Outcome State Fault Refusal :=
  match s.statusOf u with
  | .idle => .next s
  | .running => .refused .callInProgress
  | .done => .next (s.toIdle u)
  | .failed => .next (s.toIdle u)

/-- What a DONE decode call gives the host (R29, R285). -/
structure DecResult where
  out : List Byte
  outLen : Nat
  compSize : Nat
  produced : Nat
  short : Bool
  deriving DecidableEq, Repr

/-- What a FAILED verify call carries for VERIFY_MISMATCH (R233, R245). -/
structure MismatchReport where
  kind : MismatchKind
  expectedLen : Nat
  actualLen : Nat
  firstOffset : Nat
  mismatchCount : Nat
  deriving DecidableEq, Repr

/-- The result of a decode call; none before its end. A failed call carries its error and nothing else (R246). -/
def decResult (d : Dec) : Option (Except ErrCode DecResult) :=
  match d.status with
  | .idle => none
  | .running => none
  | .done => some (.ok ⟨d.outMem.toBytes d.outLen, d.outLen, d.compSize, d.produced, d.short⟩)
  | .failed => some (.error d.err)

/-- The result of an encode call (R37): `CS[0..cs_len)`. -/
def cmpResult (c : Cmp) : Option (Except ErrCode (List Byte)) :=
  match c.status with
  | .idle => none
  | .running => none
  | .done => some (.ok (c.csMem.toBytes c.csLen))
  | .failed => some (.error c.err)

/-- The result of a verify call: none yet, DONE, the five registers for VERIFY_MISMATCH, or another error passed on
(R231, R233). -/
def verResult (v : Ver) : Option (Except (ErrCode × Option MismatchReport) Unit) :=
  match v.status with
  | .idle => none
  | .running => none
  | .done => some (.ok ())
  | .failed =>
    some (.error (v.err,
      if v.err = .verifyMismatch then
        some ⟨v.kind, v.expectedLen, v.actualLen, v.firstOffset, v.mismatchCount⟩
      else none))

/-! ### Which unit moves -/

/-- The unit to serve when the call of the unit whose turn it is has ended: another unit that is RUNNING, and the same
one when there is none: a DESIGN CHOICE (log 2). -/
def State.nextTurn (s : State) : Agent :=
  if s.dec.status = .running then .dec
  else if s.cmp.status = .running then .cmp
  else if s.ver.status = .running then .ver
  else s.turn

/-! ### Placing one instruction -/

/-- The longest whole instruction: a LongLiteral of 1040 payload bytes (R91). -/
def instrSpan : Nat := 1042

/-- A DEC at an instruction boundary with an instruction to fetch next. -/
def Dec.atInstr (d : Dec) : Bool := d.status = .running && d.headerRead && decide (d.outPtr < d.declaredSize)

/-- A DEC that runs, past a header that declares `SIZE_MAX`, with nothing produced. -/
def Dec.loaded (d : Dec) : Dec :=
  { d with
    inMem := Memory.ofBytes [0xFF, 0xFF]
    inLen := Config.hdrLen
    declaredSize := Config.sizeMax
    inPtr := Config.hdrLen
    outPtr := 0
    outMem := []
    status := .running
    err := .none
    headerRead := true }

/-- The bytes of an instruction placed at `in_ptr`, followed by zeros up to the longest instruction. -/
def Dec.withInstrBytes (d : Dec) (bytes : List Byte) : Dec :=
  { d with
    inMem := Memory.writeAll (Memory.clear d.inMem d.inPtr instrSpan) d.inPtr bytes
    inLen := max d.inLen (d.inPtr + instrSpan) }

end Sys2Proof.Machine
end

