-- ==== Sys2Proof/Machine/Step.lean ====
section
/-! DEFINITION. One step of the machine (00_scope.md R15). -/

namespace Sys2Proof.Machine

/-- The unit whose turn it is takes one step of its call. -/
def State.serve (s : State) : Host.Outcome State Fault Refusal :=
  match s.turn with
  | .dec => s.serveDec
  | .cmp => s.serveCmp
  | .ver => s.serveVer

/-- One step: the unit whose turn it is moves when it is RUNNING; otherwise the turn passes to a unit that is RUNNING;
with none RUNNING the machine waits for the host, unchanged (R246: a unit takes no step outside a call). -/
def step (s : State) : Host.Outcome State Fault Refusal :=
  if s.statusOf s.turn = .running then s.serve else .next { s with turn := s.nextTurn }

/-- The state with the instruction of a table word where `step` fetches its next instruction: at `in_ptr` of DEC. A DEC
that is not at an instruction boundary is first taken to the start of the decode loop, as a host's decode call and the
header step leave it: a DESIGN CHOICE (log 16). -/
def State.withFetchWord (s : State) (nbits w : Nat) : State :=
  { s with
    turn := .dec
    dec := (if s.dec.atInstr then s.dec else s.dec.loaded).withInstrBytes (tableBytes nbits w) }

end Sys2Proof.Machine
end

