-- ==== Sys2Proof/Safety.lean ====
section
/-! DEFINITION. The vocabulary of the claims: what a sound state is (the invariants of the spec), which states a run
reaches, and what a call gives. -/

namespace Sys2Proof.Machine

/-! ### DEC -/

/-- The value of the header of `IN` (20_memory.md R64). -/
def Dec.headerValue (d : Dec) : Nat := concat 8 (d.inMem.read 1).toNat (d.inMem.read 0).toNat

/-- `IN[in_ptr .. in_len)`: what the stream still holds. -/
def Dec.window (d : Dec) : List Byte :=
  (List.range (d.inLen - d.inPtr)).map (fun k => d.inMem.read (d.inPtr + k))

/-- What holds of a DEC past its header step, in a call or at the end of one that is DONE (R22 to R24, R62, R68,
R69). -/
structure Dec.InLoop (d : Dec) : Prop where
  headerRead : d.headerRead = true
  header : d.declaredSize = d.headerValue
  inPtrLow : 2 ≤ d.inPtr
  inPtrHigh : d.inPtr ≤ d.inLen
  outPtrHigh : d.outPtr ≤ d.declaredSize
  padAbove : d.outMem.below d.outPtr

/-- What holds of a DEC that is DONE (R29, R160, R161, R164). -/
structure Dec.Finished (d : Dec) : Prop where
  inLoop : d.InLoop
  ended : d.outPtr = d.declaredSize ∨ d.inPtr = d.inLen
  outLen : d.outLen = d.declaredSize
  compSize : d.compSize = d.inPtr
  produced : d.produced = d.outPtr
  short : d.short = decide (d.outPtr < d.declaredSize)

/-- The invariant of a DEC. -/
structure Dec.Inv (d : Dec) : Prop where
  inWf : d.inMem.wf
  inBelow : d.inMem.below d.inLen
  outWf : d.outMem.wf
  outBelow : d.outMem.below d.declaredSize
  errNone : d.err = .none ↔ d.status ≠ .failed
  errFailed : d.status = .failed → d.err = .formatHeaderTooShort ∨ d.err = .truncatedStream
  running : d.status = .running → d.headerRead = true → d.InLoop
  done : d.status = .done → d.Finished

/-! ### CMP -/

/-- What holds of a CMP past its header step at a step boundary: R215 (a) to (d), the header in `CS` (R200), and the
bound that R36 rests on. -/
structure Cmp.InLoop (c : Cmp) : Prop where
  headerWritten : c.headerWritten = true
  srcMax : c.srcLen ≤ Config.sizeMax
  curHigh : c.cur ≤ c.srcLen
  curEq : c.cur = c.committed + c.pending
  shadow : ∀ i < c.committed, c.shadowMem.read i = c.srcMem.read i
  pend : ∀ j < c.pending, c.pendMem.read j = c.srcMem.read (c.committed + j)
  pendMax : c.pending ≤ 15
  csLow : 2 ≤ c.csLen
  csHigh : c.csLen ≤ 2 + c.committed + c.committed / 16
  header0 : c.csMem.read 0 = BitVec.ofNat 8 c.srcLen
  header1 : c.csMem.read 1 = BitVec.ofNat 8 (c.srcLen / 256)

/-- What holds of a CMP that is DONE (R36, R37, R211, R215). -/
structure Cmp.Finished (c : Cmp) : Prop where
  srcMax : c.srcLen ≤ Config.sizeMax
  cur : c.cur = c.srcLen
  committed : c.committed = c.srcLen
  pending : c.pending = 0
  shadow : ∀ i < c.srcLen, c.shadowMem.read i = c.srcMem.read i
  csLow : 2 ≤ c.csLen
  csHigh : c.csLen ≤ 2 + c.srcLen + (c.srcLen + 15) / 16
  header0 : c.csMem.read 0 = BitVec.ofNat 8 c.srcLen
  header1 : c.csMem.read 1 = BitVec.ofNat 8 (c.srcLen / 256)

/-- The invariant of a CMP. -/
structure Cmp.Inv (c : Cmp) : Prop where
  srcWf : c.srcMem.wf
  srcBelow : c.srcMem.below c.srcLen
  shadowWf : c.shadowMem.wf
  shadowBelow : c.shadowMem.below c.committed
  pendWf : c.pendMem.wf
  pendBelow : c.pendMem.below c.pending
  csWf : c.csMem.wf
  csBelow : c.csMem.below c.csLen
  errNone : c.err = .none ↔ c.status ≠ .failed
  errFailed : c.status = .failed → c.err = .inputTooLarge ∧ Config.sizeMax < c.srcLen ∧ c.csLen = 0
  running : c.status = .running → c.headerWritten = true → c.InLoop
  done : c.status = .done → c.Finished

/-! ### VER -/

/-- The indices below `orig_len` at which the decompressed output differs from the original. -/
def Ver.differing (v : Ver) : List Nat :=
  (List.range v.origLen).filter (fun i => v.inner.outMem.read i != v.origMem.read i)

/-- What the five registers hold after VERIFY_MISMATCH (R231, R233). -/
structure Ver.Reported (v : Ver) : Prop where
  innerDone : v.inner.status = .done
  expectedLen : v.expectedLen = v.origLen
  actualLen : v.actualLen = v.inner.outLen
  length : v.kind = .length →
    v.expectedLen ≠ v.actualLen ∧ v.firstOffset = min v.expectedLen v.actualLen ∧ v.mismatchCount = 0
  content : v.kind = .content →
    v.expectedLen = v.actualLen ∧ v.mismatchCount = v.differing.length ∧ v.differing.head? = some v.firstOffset

/-- The invariant of a VER. -/
structure Ver.Inv (v : Ver) : Prop where
  origWf : v.origMem.wf
  origBelow : v.origMem.below v.origLen
  inner : v.inner.Inv
  errNone : v.err = .none ↔ v.status ≠ .failed
  failed : v.status = .failed →
    (v.err = .verifyMismatch ∧ v.Reported) ∨ (v.inner.status = .failed ∧ v.err = v.inner.err)
  done : v.status = .done → v.inner.status = .done ∧ v.inner.outLen = v.origLen ∧ v.differing = []

/-! ### The machine -/

/-- The invariant of the machine. -/
structure State.Inv (s : State) : Prop where
  dec : s.dec.Inv
  cmp : s.cmp.Inv
  ver : s.ver.Inv

/-- `step` serves the DEC that executes: DEC on its turn, or VER's inner DEC on VER's turn, in a call. -/
abbrev State.Serving (s : State) : Prop :=
  (s.turn = .dec ∧ s.dec.status = .running) ∨
  (s.turn = .ver ∧ s.ver.status = .running ∧ s.ver.inner.status = .running)

/-- That DEC is entered at an instruction: `out_ptr < declared_size` and `in_ptr < in_len` (R153). -/
abbrev State.AtInstr (s : State) : Prop :=
  s.Serving ∧ s.curDec.headerRead = true ∧ s.curDec.outPtr < s.curDec.declaredSize ∧
    s.curDec.inPtr < s.curDec.inLen

/-- `step` serves CMP past its header step with a source byte left (R210). -/
abbrev State.AtCmpStep (s : State) : Prop :=
  s.turn = .cmp ∧ s.cmp.status = .running ∧ s.cmp.headerWritten = true ∧ s.cmp.cur < s.cmp.srcLen

/-- The four copy instructions with given operands. -/
def copyForms (length offset : Nat) : List Instr :=
  [.shortCopy length offset, .medCopy length offset, .longCopy length offset, .extCopy length offset]

/-- The two literal instructions with a given operand. -/
def literalForms (length : Nat) : List Instr := [.shortLiteral length, .longLiteral length]

/-- A position the match finder may start at, with its run: the last 4095 committed bytes (R183, R184). -/
def Cmp.CandidateRun (c : Cmp) (p run : Nat) : Prop :=
  c.windowStart ≤ p ∧ p < c.committed ∧ c.runAt p = .ok run

/-- The candidate R186 selects: no candidate has a longer run, and none more recent has as long a run. -/
def Cmp.Selected (c : Cmp) (p run : Nat) : Prop :=
  c.CandidateRun p run ∧ (∀ q r, c.CandidateRun q r → r ≤ run) ∧ (∀ q r, c.CandidateRun q r → p < q → r < run)

/-- The DEC that executes is at an instruction that runs whole: its payload lies in the stream and its bytes in `OUT`, so
that no clamp applies (R120, R140), and a copy starts inside the output, so that no sentinel arises (R122). -/
def State.AtWholeInstr (s : State) : Prop :=
  s.AtInstr ∧ ∃ i rest, decode s.curDec.window = .ok (i, rest) ∧ i.payload ≤ rest.length ∧
    s.curDec.outPtr + i.length ≤ s.curDec.declaredSize ∧ i.distance ≤ s.curDec.outPtr

/-- Steps that each run one whole instruction. -/
inductive WholeRun : State → State → Prop where
  | refl (s : State) : WholeRun s s
  | tail {s t u : State} : WholeRun s t → t.AtWholeInstr → step t = .next u → WholeRun s u

/-- Decompressing a stream with its header produces exactly `out` as its first bytes, with `in_ptr` at the end of the
stream and no error, no clamp and no sentinel byte (R215 (e)): any decode call on it goes, by its header step and whole
instructions, to a DEC that has consumed it all and has produced `out`. -/
def DecodesTo (stream out : List Byte) : Prop :=
  ∀ s s1 : State, startDecode stream s = .next s1 → ∃ s2 t, step s1 = .next s2 ∧ WholeRun s2 t ∧
    t.dec.status = .running ∧ t.dec.err = .none ∧ t.dec.inPtr = stream.length ∧
    t.dec.outMem.toBytes t.dec.outPtr = out

/-- R215 (e), at every step boundary of a CMP call past its header step, and at its end. -/
def State.StreamInv (s : State) : Prop :=
  (s.cmp.status = .running ∧ s.cmp.headerWritten = true) ∨ s.cmp.status = .done →
    DecodesTo (s.cmp.csMem.toBytes s.cmp.csLen) (s.cmp.shadowMem.toBytes s.cmp.committed)

/-- `t` is reached from `s` by `k` steps. -/
def StepsTo (k : Nat) (s t : State) : Prop := Sys2Proof.core.run k s = .next t

/-- A state of some run from reset, with the host's moves between steps. -/
inductive Reachable : State → Prop where
  | reset : Reachable State.reset
  | step {s t : State} : Reachable s → Machine.step s = .next t → Reachable t
  | startDecode {s t : State} (input : List Byte) : Reachable s → Machine.startDecode input s = .next t → Reachable t
  | startEncode {s t : State} (source : List Byte) : Reachable s → Machine.startEncode source s = .next t → Reachable t
  | startVerify {s t : State} (original candidate : List Byte) :
      Reachable s → Machine.startVerify original candidate s = .next t → Reachable t
  | acknowledge {s t : State} (u : Agent) : Reachable s → Machine.acknowledge u s = .next t → Reachable t

end Sys2Proof.Machine
end

