-- ==== Sys2Proof/Certificates/Slice0/Obligations.lean ====
section
/-! DEFINITION. The statements for the provers, one definition each; OBLIGATIONS.json lists them. -/

open Sys2Proof Sys2Proof.Machine

/-- O1. Words written out from the encodings decode to their instructions (95_test_vectors.md T1; 30_encoding.md R94 to
R99). One fixed part of every form, written bit by bit from its encoding, decodes to the instruction it stands for,
with the byte that follows left over. The ExtCopy and LongLiteral words rest on the decisions D3 and D4 of the spec
(log 6, log 7). -/
def Obligations.SpecWordsDecode : Prop :=
  decode [0b00001101, 0xAA] = .ok (.shortCopy 4 3, [0xAA]) ∧
  decode [0b01111111, 0b11111111, 0xAA] = .ok (.medCopy 6 4095, [0xAA]) ∧
  decode [0b10001100, 0b00000000, 0xAA] = .ok (.longCopy 10 0, [0xAA]) ∧
  decode [0b11001000, 0b10000101, 0b00110100, 0xAA] = .ok (.extCopy 143 1332, [0xAA]) ∧
  decode [0b11010011, 0xAA] = .ok (.shortLiteral 4, [0xAA]) ∧
  decode [0b11100001, 0b00000001, 0xAA] = .ok (.longLiteral 274, [0xAA])

/-- O2. The 256 opcodes divide into the six forms of the opcode map (30_encoding.md R101 (derived from R93, decision
D2)). For each row of the map (form, first and last cmd, mask, match, count): an opcode has the form exactly when it
lies in the range, exactly when masking it gives the match, and the number of such opcodes is the count; every
opcode has exactly one form. The selector positions are the decision D2 (log 5). -/
def Obligations.OpcodeMapPartitionsAllOpcodes : Prop :=
  (∀ row ∈ [(Form.shortCopy, 0x00, 0x3F, (0xC0 : Byte), (0x00 : Byte), 64), (.medCopy, 0x40, 0x7F, 0xC0, 0x40, 64),
      (.longCopy, 0x80, 0xBF, 0xC0, 0x80, 64), (.extCopy, 0xC0, 0xCF, 0xF0, 0xC0, 16),
      (.shortLiteral, 0xD0, 0xDF, 0xF0, 0xD0, 16), (.longLiteral, 0xE0, 0xFF, 0xE0, 0xE0, 32)],
    (∀ cmd : Byte, (formOf cmd = some row.1 ↔ row.2.1 ≤ cmd.toNat ∧ cmd.toNat ≤ row.2.2.1) ∧
      (formOf cmd = some row.1 ↔ cmd &&& row.2.2.2.1 = row.2.2.2.2.1)) ∧
    ((List.range 256).filter (fun n => formOf (BitVec.ofNat 8 n) == some row.1)).length = row.2.2.2.2.2) ∧
  (∀ cmd : Byte, ∃ form, formOf cmd = some form ∧ ∀ form', formOf cmd = some form' → form' = form)

/-- O3. Decoding gives the shift-and-mask formulas of the source table, form by form (30_encoding.md R90, R93 to R99,
R105; 00_scope.md R12). For every opcode byte and every extra byte: the primary selector cmd>>6 and the secondary
selector (cmd>>4)&3 choose the form, the length and offset are the formulas of the source table written with &, |,
<< and >>, and exactly the extra bytes of the form are read, so that the rest of the stream is left over. The
positions the source does not state are the decisions D2, D3, D4 (log 5, log 6, log 7). -/
def Obligations.DecodeFollowsSourceFormulas : Prop :=
  ∀ (cmd e1 e2 : Byte) (rest : List Byte),
    (cmd.toNat >>> 6 = 0 → decode (cmd :: rest) = .ok (.shortCopy ((cmd.toNat &&& 3) + 3) (cmd.toNat >>> 2), rest)) ∧
    (cmd.toNat >>> 6 = 1 → decode (cmd :: e1 :: rest) =
      .ok (.medCopy ((cmd.toNat &&& 3) + 3) (((cmd.toNat >>> 2) &&& 0xF) <<< 8 ||| e1.toNat), rest)) ∧
    (cmd.toNat >>> 6 = 2 → decode (cmd :: e1 :: rest) =
      .ok (.longCopy (((cmd.toNat >>> 2) &&& 0xF) + 7) ((cmd.toNat &&& 3) <<< 8 ||| e1.toNat), rest)) ∧
    (cmd.toNat >>> 6 = 3 → (cmd.toNat >>> 4) &&& 3 = 0 → decode (cmd :: e1 :: e2 :: rest) =
      .ok (.extCopy (((cmd.toNat &&& 0xF) <<< 4 ||| e1.toNat >>> 4) + 7) ((e1.toNat &&& 0xF) <<< 8 ||| e2.toNat), rest)) ∧
    (cmd.toNat >>> 6 = 3 → (cmd.toNat >>> 4) &&& 3 = 1 →
      decode (cmd :: rest) = .ok (.shortLiteral ((cmd.toNat &&& 0xF) + 1), rest)) ∧
    (cmd.toNat >>> 6 = 3 → 2 ≤ (cmd.toNat >>> 4) &&& 3 → decode (cmd :: e1 :: rest) =
      .ok (.longLiteral (((cmd.toNat &&& 3) <<< 8) + e1.toNat + 0x11), rest))

/-- O4. Decoding an encoded well-formed instruction gives it back, for every operand of every form (30_encoding.md R94
to R100, R105; 44_instruction_encoder.md R205 to R207). For every instruction whose operands lie in the ranges of
R100, and whatever bytes follow, decoding its encoding gives the instruction and leaves the bytes that follow. No
bit of an encoding is dropped. (The packing of copies as the inverse of decoding is the decision D17.) -/
def Obligations.DecodeOfEncodeIsIdentity : Prop :=
  ∀ (i : Instr) (rest : List Byte), i.wf = true → decode (encode i ++ rest) = .ok (i, rest)

/-- O5. Whatever decodes is well-formed, and its bytes are an encoding of it (30_encoding.md R99 to R103, R106). If
bytes decode to an instruction with some bytes left over, the instruction is well-formed, and the bytes consumed are
its encoding, or, for a LongLiteral, its encoding with some value x below 8 in the ignored bits. -/
def Obligations.DecodedBytesAreAnEncoding : Prop :=
  ∀ (bytes rest : List Byte) (i : Instr), decode bytes = .ok (i, rest) →
    i.wf = true ∧ ∃ fixed, bytes = fixed ++ rest ∧ fixed.length = 1 + i.form.extraBytes ∧
      (fixed = encode i ∨ ∃ length x, i = .longLiteral length ∧ x < 8 ∧ fixed = encodeLongLiteral length x)

/-- O6. A LongLiteral decodes alike for every value of its ignored bits (30_encoding.md R99, R106 (decision D4)). For
every length 17 to 1040 and every value x of cmd[4:2], the LongLiteral encoded with x decodes to the same
instruction. That the bits are ignored is the decision D4 of the spec (log 7). -/
def Obligations.LongLiteralIgnoresThreeBits : Prop :=
  ∀ (length x : Nat) (rest : List Byte), 17 ≤ length → length ≤ 1040 → x < 8 →
    decode (encodeLongLiteral length x ++ rest) = .ok (.longLiteral length, rest)

/-- O7. The refusing arm of the decoder is unreachable (30_encoding.md R102; 42_decompressor_engine.md R156). No bytes
decode to the error unknownOpcode, and the fetch of a DEC never raises FORMAT_UNKNOWN_OPCODE. (Decision D22 of the
spec, log 11.) -/
def Obligations.NoOpcodeIsUnknown : Prop :=
  (∀ bytes : List Byte, decode bytes ≠ .error .unknownOpcode) ∧
  (∀ d d' : Dec, d.fetch ≠ .ok (.raises .formatUnknownOpcode d'))

/-- O8. Every copy completes with the closed form of its result (40_copy_instructions.md R120, R121, R123, R126 to
R129). For each of the four copy forms, every state whose OUT is in canonical form and every operands: exec answers
a next state; with o = out_ptr, d = offset + 1 and n = min(length, declared_size - o), out_ptr becomes o + n, and
byte o + k for k < n is 0xFF when o + k < d, the old byte o + k - d when d <= o + k and k < d, and the new byte o +
k - d when d <= k; every other byte of OUT reads as before. -/
def Obligations.CopyClosedForm : Prop :=
  ∀ (s : State) (length offset : Nat), s.curDec.outMem.wf → ∀ i ∈ copyForms length offset,
    ∃ t, exec i s = .next t ∧
      t.curDec.outPtr = s.curDec.outPtr + min length (s.curDec.declaredSize - s.curDec.outPtr) ∧
      (∀ k < min length (s.curDec.declaredSize - s.curDec.outPtr),
        (s.curDec.outPtr + k < offset + 1 → t.curDec.outMem.read (s.curDec.outPtr + k) = 0xFF) ∧
        (offset + 1 ≤ s.curDec.outPtr + k → k < offset + 1 →
          t.curDec.outMem.read (s.curDec.outPtr + k) = s.curDec.outMem.read (s.curDec.outPtr + k - (offset + 1))) ∧
        (offset + 1 ≤ k →
          t.curDec.outMem.read (s.curDec.outPtr + k) = t.curDec.outMem.read (s.curDec.outPtr + (k - (offset + 1))))) ∧
      (∀ a, (a < s.curDec.outPtr ∨ s.curDec.outPtr + min length (s.curDec.declaredSize - s.curDec.outPtr) ≤ a) →
        t.curDec.outMem.read a = s.curDec.outMem.read a)

/-- O9. A copy completes in every state and changes out_ptr and its own bytes of OUT only (40_copy_instructions.md R120,
R124, R132; 10_state.md R25). For each of the four copy forms, every state and every operands (no hypothesis): exec
answers a next state in which, of the DEC that executes, in_ptr, in_len, IN, declared_size, status, err, out_len,
comp_size, produced, short and the place in the call are unchanged, every byte of OUT outside the min(length,
declared_size - out_ptr) bytes from out_ptr reads as before, and CMP, the other DEC and the registers of VER are
unchanged. -/
def Obligations.CopyFrame : Prop :=
  ∀ (s : State) (length offset : Nat), ∀ i ∈ copyForms length offset,
    ∃ t, exec i s = .next t ∧
      t.curDec = { s.curDec with outMem := t.curDec.outMem, outPtr := t.curDec.outPtr } ∧
      (∀ a, (a < s.curDec.outPtr ∨ s.curDec.outPtr + s.curDec.copyCount length ≤ a) →
        t.curDec.outMem.read a = s.curDec.outMem.read a) ∧
      t.turn = s.turn ∧ t.freeSeed = s.freeSeed ∧ t.cmp = s.cmp ∧
      (s.turn = .ver → t.dec = s.dec ∧ t.ver = { s.ver with inner := t.curDec }) ∧
      (s.turn ≠ .ver → t.dec = t.curDec ∧ t.ver = s.ver)

/-- O10. A copy that starts before the output fills with the sentinel and then copies real bytes
(40_copy_instructions.md R122, R131; 20_memory.md R62; 70_reset_and_hazards.md R288). For each copy form with offset
+ 1 > out_ptr and OUT canonical: exec answers a next state with status and err unchanged in which the first (offset
+ 1) - out_ptr produced bytes are 0xFF and each later produced byte k is the byte of OUT at index k - ((offset + 1)
- out_ptr) as it stands after the copy. -/
def Obligations.CopyBeforeStartGivesSentinel : Prop :=
  ∀ (s : State) (length offset : Nat), s.curDec.outMem.wf → s.curDec.outPtr < offset + 1 →
    ∀ i ∈ copyForms length offset, ∃ t, exec i s = .next t ∧
      t.curDec.status = s.curDec.status ∧ t.curDec.err = s.curDec.err ∧
      (∀ k < min length (s.curDec.declaredSize - s.curDec.outPtr),
        (k < offset + 1 - s.curDec.outPtr → t.curDec.outMem.read (s.curDec.outPtr + k) = 0xFF) ∧
        (offset + 1 - s.curDec.outPtr ≤ k → t.curDec.outMem.read (s.curDec.outPtr + k) =
          t.curDec.outMem.read (k - (offset + 1 - s.curDec.outPtr))))

/-- O11. A copy from inside the output repeats its last offset + 1 bytes as a pattern (40_copy_instructions.md R121;
70_reset_and_hazards.md R287). For each copy form with offset + 1 <= out_ptr and OUT canonical: exec answers a next
state in which produced byte k is the old byte of OUT at out_ptr - (offset + 1) + (k mod (offset + 1)), whether or
not source and destination overlap. -/
def Obligations.SelfOverlapRepeatsPattern : Prop :=
  ∀ (s : State) (length offset : Nat), s.curDec.outMem.wf → offset + 1 ≤ s.curDec.outPtr →
    ∀ i ∈ copyForms length offset, ∃ t, exec i s = .next t ∧
      (∀ k < min length (s.curDec.declaredSize - s.curDec.outPtr),
        t.curDec.outMem.read (s.curDec.outPtr + k) =
          s.curDec.outMem.read (s.curDec.outPtr - (offset + 1) + k % (offset + 1)))

/-- O12. A copy longer than the room left fills OUT, raises nothing, and the next step halts DONE
(40_copy_instructions.md R130; 42_decompressor_engine.md R152). When the DEC that executes is served past its header
with out_ptr <= declared_size and a copy has length > declared_size - out_ptr: exec answers a next state with
out_ptr = declared_size, status and err unchanged, and step from there halts with DONE. -/
def Obligations.CopyClampEndsTheRun : Prop :=
  ∀ (s : State) (length offset : Nat), s.Serving → s.curDec.headerRead = true →
    s.curDec.outPtr ≤ s.curDec.declaredSize → s.curDec.declaredSize - s.curDec.outPtr < length →
    ∀ i ∈ copyForms length offset, ∃ t, exec i s = .next t ∧
      t.curDec.outPtr = s.curDec.declaredSize ∧ t.curDec.status = s.curDec.status ∧ t.curDec.err = s.curDec.err ∧
      ∃ u, step t = .next u ∧ u.curDec.status = .done ∧ u.curDec.short = false

/-- O13. Every literal completes and moves its payload to the output (41_literal_instructions.md R140, R143, R144,
R147). For both literal forms, every state whose OUT is canonical and every length: exec answers a next state; with
n = min(length, in_len - in_ptr, declared_size - out_ptr), in_ptr and out_ptr grow by n and byte out_ptr + k of OUT
is byte in_ptr + k of IN for k < n; every other byte of OUT reads as before. (That in_ptr grows by the bytes moved
is the decision D7, log 9.) -/
def Obligations.LiteralMovesPayload : Prop :=
  ∀ (s : State) (length : Nat), s.curDec.outMem.wf → ∀ i ∈ literalForms length,
    ∃ t n, exec i s = .next t ∧
      n = min length (min (s.curDec.inLen - s.curDec.inPtr) (s.curDec.declaredSize - s.curDec.outPtr)) ∧
      t.curDec.inPtr = s.curDec.inPtr + n ∧ t.curDec.outPtr = s.curDec.outPtr + n ∧
      (∀ k < n, t.curDec.outMem.read (s.curDec.outPtr + k) = s.curDec.inMem.read (s.curDec.inPtr + k)) ∧
      (∀ a, (a < s.curDec.outPtr ∨ s.curDec.outPtr + n ≤ a) → t.curDec.outMem.read a = s.curDec.outMem.read a)

/-- O14. A literal completes in every state and changes in_ptr, out_ptr and its own bytes of OUT only
(41_literal_instructions.md R140, R142; 10_state.md R25). For both literal forms, every state and every length (no
hypothesis): exec answers a next state in which, of the DEC that executes, IN, in_len, declared_size, status, err,
out_len, comp_size, produced, short and the place in the call are unchanged, every byte of OUT outside the produced
ones reads as before, and CMP, the other DEC and the registers of VER are unchanged. -/
def Obligations.LiteralFrame : Prop :=
  ∀ (s : State) (length : Nat), ∀ i ∈ literalForms length,
    ∃ t, exec i s = .next t ∧
      t.curDec = { s.curDec with
        outMem := t.curDec.outMem, outPtr := t.curDec.outPtr, inPtr := t.curDec.inPtr } ∧
      (∀ a, (a < s.curDec.outPtr ∨ s.curDec.outPtr + s.curDec.literalCount length ≤ a) →
        t.curDec.outMem.read a = s.curDec.outMem.read a) ∧
      t.turn = s.turn ∧ t.freeSeed = s.freeSeed ∧ t.cmp = s.cmp ∧
      (s.turn = .ver → t.dec = s.dec ∧ t.ver = { s.ver with inner := t.curDec }) ∧
      (s.turn ≠ .ver → t.dec = t.curDec ∧ t.ver = s.ver)

/-- O15. A literal cut short by the declared size or by the input is not an error (41_literal_instructions.md R141,
R145, R146). For both literal forms, with in_ptr <= in_len and out_ptr <= declared_size: exec answers a next state
with status and err unchanged; if the declared size is the smallest bound, out_ptr becomes declared_size and in_ptr
grows by declared_size - out_ptr only; if the input is strictly the smallest bound, in_ptr becomes in_len and
out_ptr stays below declared_size. -/
def Obligations.LiteralClampsAreNoErrors : Prop :=
  ∀ (s : State) (length : Nat), s.curDec.inPtr ≤ s.curDec.inLen → s.curDec.outPtr ≤ s.curDec.declaredSize →
    ∀ i ∈ literalForms length, ∃ t, exec i s = .next t ∧
      t.curDec.status = s.curDec.status ∧ t.curDec.err = s.curDec.err ∧
      (s.curDec.declaredSize - s.curDec.outPtr ≤ length →
        s.curDec.declaredSize - s.curDec.outPtr ≤ s.curDec.inLen - s.curDec.inPtr →
        t.curDec.outPtr = s.curDec.declaredSize ∧
          t.curDec.inPtr = s.curDec.inPtr + (s.curDec.declaredSize - s.curDec.outPtr)) ∧
      (s.curDec.inLen - s.curDec.inPtr < length →
        s.curDec.inLen - s.curDec.inPtr < s.curDec.declaredSize - s.curDec.outPtr →
        t.curDec.inPtr = s.curDec.inLen ∧ t.curDec.outPtr < s.curDec.declaredSize)

/-- O16. A step of DEC is exec of the decoded instruction, with in_ptr past its fixed part (42_decompressor_engine.md
R153 to R155, R157). When the DEC that executes is at an instruction and the bytes of IN from in_ptr decode to i,
step is exec of i at the state whose in_ptr has moved past the 1 + k bytes of the fixed part, and nothing else is
added. -/
def Obligations.StepRunsTheDecodedInstruction : Prop :=
  ∀ (s : State) (i : Instr) (rest : List Byte), s.AtInstr → decode s.curDec.window = .ok (i, rest) →
    step s = exec i (s.setCurDec { s.curDec with inPtr := s.curDec.inPtr + (1 + i.form.extraBytes) })

/-- O17. A stream that ends inside a fixed part raises TruncatedStreamError (42_decompressor_engine.md R155;
60_exceptions.md R243, R246). When the DEC that executes is at an instruction, its opcode has a form and fewer extra
bytes remain than the form needs: step answers a next state with status FAILED and err TRUNCATED_STREAM (code 3),
in_ptr past cmd, out_ptr, declared_size, IN and in_len unchanged, CMP unchanged; the result of the call is that
error and nothing else. (What R246 says of the results is the decision D11, log 4.) -/
def Obligations.TruncatedFixedPartRaises : Prop :=
  ∀ (s : State) (cmd : Byte) (rest : List Byte) (form : Form), s.AtInstr → s.curDec.window = cmd :: rest →
    formOf cmd = some form → rest.length < form.extraBytes →
    ∃ t, step s = .next t ∧ t.curDec.status = .failed ∧ t.curDec.err = .truncatedStream ∧ t.curDec.err.code = 3 ∧
      t.curDec.inPtr = s.curDec.inPtr + 1 ∧ t.curDec.outPtr = s.curDec.outPtr ∧
      t.curDec.declaredSize = s.curDec.declaredSize ∧ t.curDec.inMem = s.curDec.inMem ∧
      t.curDec.inLen = s.curDec.inLen ∧ t.cmp = s.cmp ∧ t.turn = s.turn ∧
      decResult t.curDec = some (.error .truncatedStream)

/-- O18. A stream shorter than its header raises FormatError, reads no byte of IN and sets nothing but what raise sets
(42_decompressor_engine.md R150; 60_exceptions.md R246 (decision D11)). When the DEC that executes begins a call
with in_len < 2: step answers a next state in which that DEC is FAILED with err FORMAT_HEADER_TOO_SHORT, which is
the whole result of the call; of it IN, in_len, in_ptr, out_ptr, declared_size and the place in the call are
unchanged (OUT, out_len, comp_size, produced and short hold no defined value after raise, R246, and are free values,
log 4: nothing is said of them); CMP, the other DEC, the registers of VER and the turn are unchanged. IN is not
read: with any other bytes in IN the step does the same. -/
def Obligations.ShortHeaderRaises : Prop :=
  ∀ s : State, s.Serving → s.curDec.headerRead = false → s.curDec.inLen < 2 →
    ∃ t, step s = .next t ∧ decResult t.curDec = some (.error .formatHeaderTooShort) ∧
      t.curDec = { s.curDec with
        status := .failed, err := .formatHeaderTooShort, outMem := t.curDec.outMem, outLen := t.curDec.outLen,
        compSize := t.curDec.compSize, produced := t.curDec.produced, short := t.curDec.short } ∧
      t.turn = s.turn ∧ t.cmp = s.cmp ∧
      (s.turn = .ver → t.dec = s.dec ∧ t.ver = { s.ver with inner := t.curDec }) ∧
      (s.turn ≠ .ver → t.dec = t.curDec ∧ t.ver = s.ver) ∧
      (∀ m : Memory, step (s.setCurDec { s.curDec with inMem := m }) =
        .next (t.setCurDec { t.curDec with inMem := m }))

/-- O19. The header step loads the little-endian size, puts in_ptr at 2 and out_ptr at 0, and pads OUT
(42_decompressor_engine.md R151; 20_memory.md R62, R64). When the DEC that executes begins a call with in_len >= 2:
step answers a next state with declared_size = IN[0] | (IN[1] << 8), in_ptr = 2, out_ptr = 0, every byte of OUT
PAD_BYTE, still RUNNING, and IN, in_len, err and the result registers unchanged. That PAD_BYTE is 0x00 is the
decision D6 (log 10). -/
def Obligations.HeaderStepStartsTheLoop : Prop :=
  ∀ s : State, s.Serving → s.curDec.headerRead = false → 2 ≤ s.curDec.inLen →
    ∃ t, step s = .next t ∧
      t.curDec.declaredSize = (s.curDec.inMem.read 0).toNat ||| ((s.curDec.inMem.read 1).toNat <<< 8) ∧
      t.curDec.inPtr = 2 ∧ t.curDec.outPtr = 0 ∧ (∀ a, t.curDec.outMem.read a = Config.padByte) ∧
      t.curDec = { s.curDec with
        declaredSize := t.curDec.declaredSize, inPtr := 2, outPtr := 0, outMem := t.curDec.outMem,
        headerRead := true } ∧
      t.cmp = s.cmp ∧ t.turn = s.turn

/-- O20. The run ends DONE exactly at a full output or an exhausted input, with the result registers of R29
(42_decompressor_engine.md R152, R160, R161, R164; 10_state.md R29). When the DEC that executes is served past its
header: if out_ptr >= declared_size or in_ptr >= in_len, step answers a next state with status DONE, out_len =
declared_size, comp_size = in_ptr, produced = out_ptr, short = (out_ptr < declared_size), and IN, OUT, in_ptr,
out_ptr, err and CMP unchanged; if neither holds, step answers a next state that is not DONE. (R29 is the decision
D9.) -/
def Obligations.LoopTestEndsTheRun : Prop :=
  ∀ s : State, s.Serving → s.curDec.headerRead = true →
    ((s.curDec.declaredSize ≤ s.curDec.outPtr ∨ s.curDec.inLen ≤ s.curDec.inPtr) →
      ∃ t, step s = .next t ∧ t.turn = s.turn ∧ t.cmp = s.cmp ∧
        t.curDec = { s.curDec with
          status := .done, outLen := s.curDec.declaredSize, compSize := s.curDec.inPtr,
          produced := s.curDec.outPtr, short := decide (s.curDec.outPtr < s.curDec.declaredSize) }) ∧
    (s.curDec.outPtr < s.curDec.declaredSize → s.curDec.inPtr < s.curDec.inLen →
      ∃ t, step s = .next t ∧ t.curDec.status ≠ .done)

/-- O21. A stream that declares size zero gives an empty output and compressed size 2 (R162). A decode call on 00 00 and
any bytes after it ends after some number of steps with the result: empty output, out_len 0, comp_size 2, produced
0, short 0. No instruction is read and no byte after the header: in_ptr is then still 2, and the result is the same
whatever the bytes after the header are. -/
def Obligations.DeclaredSizeZeroGivesEmptyOutput : Prop :=
  ∀ (rest : List Byte) (s s1 : State), startDecode (0x00 :: 0x00 :: rest) s = .next s1 →
    ∃ k t, StepsTo k s1 t ∧ t.dec.status = .done ∧ decResult t.dec = some (.ok ⟨[], 0, 2, 0, false⟩) ∧
      t.dec.declaredSize = 0 ∧ t.dec.inPtr = 2 ∧ t.dec.outPtr = 0

/-- O22. Every instruction step moves in_ptr forward inside the stream and never moves out_ptr back or past the end
(42_decompressor_engine.md R157, R158; 20_memory.md R68, R69). From a sound state at an instruction: step answers a
next state in which in_ptr has grown by at least 1 and is at most in_len, out_ptr has not fallen and is at most
declared_size, declared_size, IN and in_len are unchanged; and when the decoded instruction is a copy, out_ptr has
grown by at least 1 and in_ptr by exactly 1 + k. -/
def Obligations.InstructionStepMakesProgress : Prop :=
  ∀ s : State, s.Inv → s.AtInstr → ∃ t, step s = .next t ∧
    s.curDec.inPtr < t.curDec.inPtr ∧ t.curDec.inPtr ≤ t.curDec.inLen ∧
    s.curDec.outPtr ≤ t.curDec.outPtr ∧ t.curDec.outPtr ≤ t.curDec.declaredSize ∧
    t.curDec.declaredSize = s.curDec.declaredSize ∧ t.curDec.inMem = s.curDec.inMem ∧
    t.curDec.inLen = s.curDec.inLen ∧
    (∀ i rest, decode s.curDec.window = .ok (i, rest) →
      i.form ∈ [.shortCopy, .medCopy, .longCopy, .extCopy] →
      s.curDec.outPtr < t.curDec.outPtr ∧ t.curDec.inPtr = s.curDec.inPtr + (1 + i.form.extraBytes))

/-- O23. Every decode call ends, DONE or FAILED, within as many steps as the stream has bytes (42_decompressor_engine.md
R158). From any state in which DEC accepts a call, a decode call on any bytes reaches DONE or FAILED after at most
max(1, in_len) steps (the header step, at most in_len - 2 instructions, the loop test). There is no hang, no fault
and no refusal. R158 counts the instructions only; that the header step and the halting loop test are steps of their
own is the model's choice (log 3, DESIGN CHOICE). -/
def Obligations.DecodeCallTerminates : Prop :=
  ∀ (input : List Byte) (s s1 : State), startDecode input s = .next s1 →
    ∃ k t, k ≤ max 1 input.length ∧ StepsTo k s1 t ∧ (t.dec.status = .done ∨ t.dec.status = .failed)

/-- O24. Decoding the same stream twice gives the same result, whatever the states the calls start from
(42_decompressor_engine.md R166; 20_memory.md R75). Two decode calls on the same bytes, from any two states, that
have both ended give the host equal results (output, out_len, comp_size, produced, short, or the error). -/
def Obligations.DecodeResultDependsOnStreamOnly : Prop :=
  ∀ (input : List Byte) (s s' s1 s1' t t' : State) (k k' : Nat),
    startDecode input s = .next s1 → startDecode input s' = .next s1' →
    StepsTo k s1 t → StepsTo k' s1' t' → t.dec.status ≠ .running → t'.dec.status ≠ .running →
    decResult t.dec = decResult t'.dec ∧ decResult t.dec ≠ none

/-- O25. A finished decode gives exactly as many bytes as its header declares, padded after an early stop
(42_decompressor_engine.md R160, R161; 10_state.md R29). When a decode call on bytes of at least the header length
has ended with a result: the output and out_len have the length the first two bytes declare, produced <= out_len,
comp_size lies between 2 and the stream length, short says whether produced < out_len, and every byte from produced
on is PAD_BYTE (decision D6, log 10). -/
def Obligations.OutputHasDeclaredLength : Prop :=
  ∀ (b0 b1 : Byte) (rest : List Byte) (s s1 t : State) (k : Nat) (r : DecResult),
    startDecode (b0 :: b1 :: rest) s = .next s1 → StepsTo k s1 t → decResult t.dec = some (.ok r) →
    r.out.length = b0.toNat + 256 * b1.toNat ∧ r.outLen = r.out.length ∧ r.produced ≤ r.outLen ∧
    2 ≤ r.compSize ∧ r.compSize ≤ rest.length + 2 ∧ (r.short = true ↔ r.produced < r.outLen) ∧
    (r.short = true → r.compSize = rest.length + 2) ∧
    (∀ a, r.produced ≤ a → a < r.outLen → r.out.getD a 0xFF = Config.padByte)

/-- O26. After reset every unit is IDLE with no error (10_state.md R41 (decision D9)). In the reset state DEC, CMP, VER
and its inner DEC have status IDLE and err NONE, as R41 says. The last clause is the model's choice (log 2 and log
16, DESIGN CHOICE) and not R41's: a step leaves the state as it is, because the machine waits for the host. -/
def Obligations.ResetIsIdle : Prop :=
  State.reset.dec.status = .idle ∧ State.reset.dec.err = .none ∧ State.reset.cmp.status = .idle ∧
  State.reset.cmp.err = .none ∧ State.reset.ver.status = .idle ∧ State.reset.ver.err = .none ∧
  State.reset.ver.inner.status = .idle ∧ State.reset.ver.inner.err = .none ∧
  step State.reset = .next State.reset

/-- O27. The reset state satisfies the invariant (10_state.md R41; 20_memory.md R60). State.Inv holds of State.reset:
every memory is in canonical form and nothing is listed beyond its length, err is NONE exactly when status is not
FAILED. (The reset values the spec does not give are the model's choice, log 1.) -/
def Obligations.ResetIsSound : Prop :=
  State.reset.Inv

/-- O28. From every sound state a step completes, without fault or refusal, in a sound state (20_memory.md R62, R68,
R69; 10_state.md R21 to R24; 44_instruction_encoder.md R215; 45_round_trip_verifier.md R233). For every state that
satisfies State.Inv (canonical memories with nothing listed beyond their lengths; DEC: the cursor bounds, the
declared size equal to the header, OUT padded above out_ptr, the result registers when DONE, err when FAILED; CMP:
R215 (a) to (d), the header in CS, the bound on cs_len; VER: what its registers report), step answers a next state
that satisfies it. -/
def Obligations.SoundStateStepsToSoundState : Prop :=
  ∀ s : State, s.Inv → ∃ t, step s = .next t ∧ t.Inv

/-- O29. Every state of every run from reset, with the host's moves in between, is sound (20_memory.md R62, R68, R69;
44_instruction_encoder.md R215; 70_reset_and_hazards.md R285). State.Inv holds of every state that reset, steps,
decode, encode and verify calls on any bytes, and acknowledgements reach, in any order. -/
def Obligations.ReachableStatesAreSound : Prop :=
  ∀ s : State, Reachable s → s.Inv

/-- O30. A unit that is not RUNNING is left alone by every step (60_exceptions.md R246, R250; 10_state.md R28). If step
answers a next state, then DEC, CMP and VER are each unchanged when their status is not RUNNING: after DONE or
FAILED, and before any call, a unit takes no step. -/
def Obligations.EndedUnitTakesNoStep : Prop :=
  ∀ s t : State, step s = .next t →
    (s.dec.status ≠ .running → t.dec = s.dec) ∧ (s.cmp.status ≠ .running → t.cmp = s.cmp) ∧
    (s.ver.status ≠ .running → t.ver = s.ver)

/-- O31. A step changes one unit only: the units share no state (10_state.md R20; 60_exceptions.md R255; 20_memory.md
R60). If step answers a next state, every unit other than the one whose turn it is is unchanged. (The field turn is
the model's own, log 2.) -/
def Obligations.StepServesOneUnit : Prop :=
  ∀ s t : State, step s = .next t →
    (s.turn ≠ .dec → t.dec = s.dec) ∧ (s.turn ≠ .cmp → t.cmp = s.cmp) ∧ (s.turn ≠ .ver → t.ver = s.ver)

/-- O32. No step writes IN, SRC, ORIG or CAND, or their lengths (20_memory.md R60, R76; 10_state.md R42). If step
answers a next state, the input memories and their length registers of DEC, CMP, VER and its inner DEC (CAND) are
unchanged. -/
def Obligations.InputsAreNeverWritten : Prop :=
  ∀ s t : State, step s = .next t →
    t.dec.inMem = s.dec.inMem ∧ t.dec.inLen = s.dec.inLen ∧ t.cmp.srcMem = s.cmp.srcMem ∧
    t.cmp.srcLen = s.cmp.srcLen ∧ t.ver.origMem = s.ver.origMem ∧ t.ver.origLen = s.ver.origLen ∧
    t.ver.inner.inMem = s.ver.inner.inMem ∧ t.ver.inner.inLen = s.ver.inner.inLen

/-- O33. Each unit can hold only its own errors, and FORMAT_UNKNOWN_OPCODE never occurs (60_exceptions.md R241, R242,
R249). In every reachable state err of DEC is NONE, FORMAT_HEADER_TOO_SHORT or TRUNCATED_STREAM, err of CMP is NONE
or INPUT_TOO_LARGE, err of VER is NONE, one of DEC's two or VERIFY_MISMATCH, and each is NONE exactly when the unit
is not FAILED. (The codes are the decision D10.) -/
def Obligations.OnlyTheListedErrorsOccur : Prop :=
  ∀ s : State, Reachable s →
    (s.dec.err = .none ∨ s.dec.err = .formatHeaderTooShort ∨ s.dec.err = .truncatedStream) ∧
    (s.cmp.err = .none ∨ s.cmp.err = .inputTooLarge) ∧
    (s.ver.err = .none ∨ s.ver.err = .formatHeaderTooShort ∨ s.ver.err = .truncatedStream ∨
      s.ver.err = .verifyMismatch) ∧
    (s.dec.err = .none ↔ s.dec.status ≠ .failed) ∧ (s.cmp.err = .none ↔ s.cmp.status ≠ .failed) ∧
    (s.ver.err = .none ↔ s.ver.status ≠ .failed)

/-- O34. A host move on a RUNNING unit is refused, and on any other unit it is accepted (70_reset_and_hazards.md R284,
R285 (decision D21)). A decode, encode or verify call and an acknowledgement are refused exactly when the unit is
RUNNING. -/
def Obligations.RunningUnitAcceptsNoCall : Prop :=
  ∀ (a b : List Byte) (s : State),
    (s.dec.status = .running → startDecode a s = .refused .callInProgress) ∧
    (s.dec.status ≠ .running → ∃ t, startDecode a s = .next t) ∧
    (s.cmp.status = .running → startEncode a s = .refused .callInProgress) ∧
    (s.cmp.status ≠ .running → ∃ t, startEncode a s = .next t) ∧
    (s.ver.status = .running → startVerify a b s = .refused .callInProgress) ∧
    (s.ver.status ≠ .running → ∃ t, startVerify a b s = .next t) ∧
    (∀ u, s.statusOf u = .running → acknowledge u s = .refused .callInProgress) ∧
    (∀ u, s.statusOf u ≠ .running → ∃ t, acknowledge u s = .next t)

/-- O35. A call starts RUNNING, with no error, from the host's bytes and nothing else, and leaves the other units alone
(10_state.md R39, R40, R41; 70_reset_and_hazards.md R280, R282, R283). After a decode (encode, verify) call is
started: the unit is RUNNING with err NONE, its input space holds exactly the host's bytes and its length register
their number, and the other two units are unchanged. Nothing carries over from an earlier call: two calls on the
same bytes, whatever their units held before, start from the same unit, every register and memory of it, when their
free values (log 4) are the same draw. That the unit is before its header step, and the inner DEC of VER not
started, is the place in the call that the model marks (log 3, DESIGN CHOICE). -/
def Obligations.CallStartsFromItsInputOnly : Prop :=
  (∀ (input : List Byte) (s t : State), startDecode input s = .next t →
    t.dec.status = .running ∧ t.dec.err = .none ∧ t.dec.headerRead = false ∧ t.dec.inLen = input.length ∧
    t.dec.inMem.toBytes t.dec.inLen = input ∧ t.cmp = s.cmp ∧ t.ver = s.ver ∧
    (∀ s' t' : State, startDecode input s' = .next t' → s'.freeSeed = s.freeSeed → t'.dec = t.dec)) ∧
  (∀ (source : List Byte) (s t : State), startEncode source s = .next t →
    t.cmp.status = .running ∧ t.cmp.err = .none ∧ t.cmp.headerWritten = false ∧ t.cmp.srcLen = source.length ∧
    t.cmp.srcMem.toBytes t.cmp.srcLen = source ∧ t.dec = s.dec ∧ t.ver = s.ver ∧
    (∀ s' t' : State, startEncode source s' = .next t' → s'.freeSeed = s.freeSeed → t'.cmp = t.cmp)) ∧
  (∀ (original candidate : List Byte) (s t : State), startVerify original candidate s = .next t →
    t.ver.status = .running ∧ t.ver.err = .none ∧ t.ver.inner.status = .idle ∧ t.ver.origLen = original.length ∧
    t.ver.origMem.toBytes t.ver.origLen = original ∧ t.ver.inner.inLen = candidate.length ∧
    t.ver.inner.inMem.toBytes t.ver.inner.inLen = candidate ∧ t.dec = s.dec ∧ t.cmp = s.cmp ∧
    (∀ s' t' : State, startVerify original candidate s' = .next t' → s'.freeSeed = s.freeSeed → t'.ver = t.ver))

/-- O36. Acknowledging a result returns the unit to IDLE and leaves the other units alone (10_state.md R28, R41
(decision D9); 60_exceptions.md R250). An acknowledgement that is accepted leaves the unit IDLE, with err NONE if it
had a result, and the other two units unchanged. -/
def Obligations.AcknowledgeReturnsToIdle : Prop :=
  ∀ (u : Agent) (s t : State), acknowledge u s = .next t →
    t.statusOf u = .idle ∧ t.turn = s.turn ∧
    (u ≠ .dec → t.dec = s.dec) ∧ (u ≠ .cmp → t.cmp = s.cmp) ∧ (u ≠ .ver → t.ver = s.ver) ∧
    (s.statusOf u ≠ .idle →
      (u = .dec → t.dec.err = .none) ∧ (u = .cmp → t.cmp.err = .none) ∧ (u = .ver → t.ver.err = .none))

/-- O37. An input above 65535 bytes raises InputTooLargeError before anything is written (R244). When CMP begins a call
with src_len > 65535, step answers a next state with status FAILED, err INPUT_TOO_LARGE, cs_len = 0 and an empty CS,
and every other register and memory of the machine unchanged (nothing is recorded); with src_len = 65535 step
completes without error. -/
def Obligations.OversizedInputRaises : Prop :=
  (∀ s : State, s.turn = .cmp → s.cmp.status = .running → s.cmp.headerWritten = false → 65535 < s.cmp.srcLen →
    step s = .next { s with cmp := { s.cmp with status := .failed, err := .inputTooLarge, csLen := 0, csMem := [] } }) ∧
  (∀ s : State, s.turn = .cmp → s.cmp.status = .running → s.cmp.headerWritten = false → s.cmp.srcLen = 65535 →
    ∃ t, step s = .next t ∧ t.cmp.status = .running ∧ t.cmp.err = s.cmp.err)

/-- O38. The header step of CMP writes the little-endian source length and clears the counters
(44_instruction_encoder.md R200; 10_state.md R40; 20_memory.md R64). When CMP begins a call with src_len <= 65535,
step answers a next state with CS[0] = src_len & 0xFF, CS[1] = src_len >> 8, cs_len = 2, cur = C = P = 0, still
RUNNING, SRC, src_len, err, DEC and VER unchanged. (The order of the size check is the decision D25.) -/
def Obligations.CompressorHeaderStep : Prop :=
  ∀ s : State, s.turn = .cmp → s.cmp.status = .running → s.cmp.headerWritten = false → s.cmp.srcLen ≤ 65535 →
    ∃ t, step s = .next t ∧ t.cmp.csMem.toBytes t.cmp.csLen =
        [BitVec.ofNat 8 (s.cmp.srcLen &&& 0xFF), BitVec.ofNat 8 (s.cmp.srcLen >>> 8)] ∧
      t.cmp.csLen = 2 ∧ t.cmp.cur = 0 ∧ t.cmp.committed = 0 ∧ t.cmp.pending = 0 ∧ t.cmp.status = .running ∧
      t.cmp.headerWritten = true ∧ t.cmp.srcMem = s.cmp.srcMem ∧ t.cmp.srcLen = s.cmp.srcLen ∧
      t.cmp.err = s.cmp.err ∧ t.dec = s.dec ∧ t.ver = s.ver ∧ t.turn = s.turn

/-- O39. A flush turns the pending bytes into one ShortLiteral and appends them to the history
(44_instruction_encoder.md R202 (decision D16)). For a CMP with canonical CS and SHADOW, 1 <= P <= 16 and room for
the bytes: Flush completes with CS[cs_len] = 0xD0 | (P - 1), then the P pending bytes; the same bytes appended to
SHADOW at C; cs_len, C and P as R202 says; every other byte of CS and SHADOW as before. With P = 0 it changes
nothing. -/
def Obligations.FlushEmitsOneShortLiteral : Prop :=
  ∀ c : Cmp, c.csMem.wf → c.shadowMem.wf →
    (c.pending = 0 → c.flush = .ok c) ∧
    (1 ≤ c.pending → c.pending ≤ 16 → c.csLen + 1 + c.pending ≤ 69633 → c.committed + c.pending ≤ c.srcLen →
      ∃ c', c.flush = .ok c' ∧ c'.pending = 0 ∧ c'.csLen = c.csLen + 1 + c.pending ∧
        c'.committed = c.committed + c.pending ∧
        c'.csMem.read c.csLen = BitVec.ofNat 8 (0xD0 ||| (c.pending - 1)) ∧
        (∀ j < c.pending, c'.csMem.read (c.csLen + 1 + j) = c.pendMem.read j ∧
          c'.shadowMem.read (c.committed + j) = c.pendMem.read j) ∧
        (∀ a, a < c.csLen ∨ c'.csLen ≤ a → c'.csMem.read a = c.csMem.read a) ∧
        (∀ a, a < c.committed ∨ c'.committed ≤ a → c'.shadowMem.read a = c.shadowMem.read a) ∧
        c' = { c with
          csMem := c'.csMem, csLen := c'.csLen, shadowMem := c'.shadowMem, committed := c'.committed,
          pendMem := [], pending := 0 })

/-- O40. Which matches fit no copy form, and the boundary between ShortCopy and MedCopy (43_match_finder.md R190;
44_instruction_encoder.md R204). For lengths 3 to 262 and offsets 0 to 4109, SelectForm gives none exactly when the
length is at most 6 and the offset above 1023, or the length is at least 7 and the offset above 4095; length 6 at
offset 15 is a ShortCopy packed as 3F, and at offset 16 a MedCopy packed as 43 10. -/
def Obligations.UnusableLengthsAndOffsets : Prop :=
  (∀ len offset : Nat, 3 ≤ len → len ≤ 262 → offset ≤ 4109 →
    (selectForm len offset = none ↔ (len ≤ 6 ∧ 1023 < offset) ∨ (7 ≤ len ∧ 4095 < offset))) ∧
  selectForm 6 15 = some .shortCopy ∧ encode (.shortCopy 6 15) = [0x3F] ∧
  selectForm 6 16 = some .medCopy ∧ encode (.medCopy 6 16) = [0x43, 0x10]

/-- O41. The selected copy form carries the match, and no copy form that carries it is shorter
(44_instruction_encoder.md R204 (decisions D3, D5)). If SelectForm gives a form for a length of at least 3, the
instruction of that form is well-formed, and every well-formed copy instruction with the same length and offset has
an encoding at least as long. -/
def Obligations.SelectedFormIsSmallest : Prop :=
  ∀ (pos len offset : Nat) (form : Form), 3 ≤ len → selectForm len offset = some form →
    (matchInstr ⟨pos, len, offset, form⟩).wf = true ∧ (matchInstr ⟨pos, len, offset, form⟩) ∈ copyForms len offset ∧
    ∀ i ∈ copyForms len offset, i.wf = true →
      (encode (matchInstr ⟨pos, len, offset, form⟩)).length ≤ (encode i).length

/-- O42. FindMatch gives the longest run, at its most recent position, when it is usable, and none otherwise
(43_match_finder.md R183, R184, R186 to R189 (decisions D12 to D15)). For a CMP whose C, P and cur are in bounds,
FindMatch completes. If it gives a match, that is the selected candidate (no candidate of the window has a longer
run, no more recent one as long a run), its length is at least 3, its offset is C + P - pos - 1 and its form is
SelectForm of both. If it gives none, no selected candidate of length at least 3 has a form. (Log 12, 13, 14.) -/
def Obligations.FindMatchSelectsLongestMostRecent : Prop :=
  ∀ c : Cmp, c.committed ≤ c.srcLen → c.pending ≤ 16 → c.cur ≤ c.srcLen →
    ∃ found, c.findMatch = .ok found ∧
      (∀ m, found = some m → c.Selected m.pos m.len ∧ 3 ≤ m.len ∧ m.effOff = c.committed + c.pending - m.pos - 1 ∧
        selectForm m.len m.effOff = some m.form) ∧
      (found = none → ∀ p run, c.Selected p run → 3 ≤ run →
        selectForm run (c.committed + c.pending - p - 1) = none)

/-- O43. The effective offset is as if the pending literals were flushed, lies in 0 to 4094 + P, and leads the decoder
to the match (43_match_finder.md R187). For a CMP with the invariants of a step boundary and the position p of a
selected match, usable or not: the effective offset is (C + P) - p - 1, which is at least 0, at most 4094 + P and at
most 4109; it is the offset that p has after the pending literals are flushed, when C is the old C + P and P is 0; a
copy with that offset by a DEC whose out_ptr is C + P has its source index at p; and the match that FindMatch gives
is a selected one and carries this offset. (That the decoder's out_ptr is C + P at the copy is R215 (e), which O57
states.) -/
def Obligations.EffectiveOffsetIsTheDecoders : Prop :=
  ∀ c : Cmp, c.InLoop →
    (∀ p run, c.Selected p run →
      (c.effOff p : Int) = ((c.committed : Int) + c.pending) - p - 1 ∧ c.effOff p ≤ 4094 + c.pending ∧
      c.effOff p ≤ 4109 ∧
      (∃ c', c.flush = .ok c' ∧ c'.committed = c.committed + c.pending ∧ c'.pending = 0 ∧
        c.effOff p = c'.effOff p ∧ ∀ d : Dec, d.outPtr = c'.committed → d.copySource (c.effOff p) = p)) ∧
    (∀ m, c.findMatch = .ok (some m) → c.Selected m.pos m.len ∧ m.effOff = c.effOff m.pos)

/-- O44. A run against the history buffers equals the run on the source alone (43_match_finder.md R184, R185;
44_instruction_encoder.md R215). For a CMP with the invariants of a step boundary and a position p < C: Run(p)
completes with the largest r <= maxlen such that SRC[p + j] = SRC[cur + j] for all j < r. -/
def Obligations.HistoryRunIsSourceRun : Prop :=
  ∀ (c : Cmp) (p : Nat), c.InLoop → p < c.committed →
    ∃ r, c.runAt p = .ok r ∧ r ≤ min 262 (c.srcLen - c.cur) ∧
      (∀ j < r, c.srcMem.read (p + j) = c.srcMem.read (c.cur + j)) ∧
      (∀ r', r' ≤ min 262 (c.srcLen - c.cur) → (∀ j < r', c.srcMem.read (p + j) = c.srcMem.read (c.cur + j)) → r' ≤ r)

/-- O45. Without a usable match a step of CMP pushes one literal, and flushes when it is the sixteenth
(44_instruction_encoder.md R202, R209, R210). From a sound state at a source position where FindMatch gives none:
step answers a next state with cur + 1; if P < 15 the byte is appended at PEND[P] and CS, SHADOW and C are
unchanged; if P = 15, P becomes 0 and CS grows by 0xDF and the sixteen bytes SRC[C..C+16), which are appended to
SHADOW at C, its bytes below C as before, and C grows by 16; DEC and VER are unchanged. -/
def Obligations.PushLiteralStep : Prop :=
  ∀ s : State, s.cmp.Inv → s.AtCmpStep → s.cmp.findMatch = .ok none →
    ∃ t, step s = .next t ∧ t.cmp.cur = s.cmp.cur + 1 ∧ t.dec = s.dec ∧ t.ver = s.ver ∧
      t.cmp.status = .running ∧ t.cmp.err = .none ∧
      (s.cmp.pending < 15 → t.cmp.pending = s.cmp.pending + 1 ∧
        t.cmp.pendMem.read s.cmp.pending = s.cmp.srcMem.read s.cmp.cur ∧
        (∀ j < s.cmp.pending, t.cmp.pendMem.read j = s.cmp.pendMem.read j) ∧
        t.cmp.csMem = s.cmp.csMem ∧ t.cmp.csLen = s.cmp.csLen ∧ t.cmp.shadowMem = s.cmp.shadowMem ∧
        t.cmp.committed = s.cmp.committed) ∧
      (s.cmp.pending = 15 → t.cmp.pending = 0 ∧ t.cmp.committed = s.cmp.committed + 16 ∧
        t.cmp.csMem.toBytes t.cmp.csLen = s.cmp.csMem.toBytes s.cmp.csLen ++ (0xDF : Byte) ::
          (List.range 16).map (fun j => s.cmp.srcMem.read (s.cmp.committed + j)) ∧
        (∀ j < 16, t.cmp.shadowMem.read (s.cmp.committed + j) = s.cmp.srcMem.read (s.cmp.committed + j)) ∧
        (∀ i < s.cmp.committed, t.cmp.shadowMem.read i = s.cmp.shadowMem.read i))

/-- O46. With a usable match a step of CMP flushes the literals, emits the copy and extends the history
(44_instruction_encoder.md R208, R210, R213, R214). From a sound state at a source position where FindMatch gives a
match: step answers a next state in which CS has grown by the ShortLiteral of the pending bytes (if any) and then by
the packed copy with the effective offset; C has grown by P and the match length, P is 0, cur has grown by the match
length, SHADOW below C equals SRC, and DEC and VER are unchanged. -/
def Obligations.EmitCopyStep : Prop :=
  ∀ (s : State) (m : Match), s.cmp.Inv → s.AtCmpStep → s.cmp.findMatch = .ok (some m) →
    ∃ t, step s = .next t ∧ t.cmp.cur = s.cmp.cur + m.len ∧ t.cmp.pending = 0 ∧
      t.cmp.committed = s.cmp.committed + s.cmp.pending + m.len ∧
      t.cmp.csMem.toBytes t.cmp.csLen = s.cmp.csMem.toBytes s.cmp.csLen ++
        (if s.cmp.pending = 0 then [] else
          encode (.shortLiteral s.cmp.pending) ++ s.cmp.pendMem.toBytes s.cmp.pending) ++ encode (matchInstr m) ∧
      (∀ i < t.cmp.committed, t.cmp.shadowMem.read i = s.cmp.srcMem.read i) ∧
      t.cmp.status = .running ∧ t.cmp.err = .none ∧ t.dec = s.dec ∧ t.ver = s.ver

/-- O47. Every encode call ends: DONE within src_len + 2 steps, or FAILED at once when the input is too large
(44_instruction_encoder.md R212, R220; 60_exceptions.md R244). From any state in which CMP accepts a call: on at
most 65535 bytes it is DONE after at most src_len + 2 steps (header step, one step for each position at most, last
flush); on more it is FAILED with INPUT_TOO_LARGE after one step, with an empty result. R212 counts the positions
only; that the header step and the last flush with halt are steps of their own is the model's choice (log 3, DESIGN
CHOICE). -/
def Obligations.EncodeCallTerminates : Prop :=
  ∀ (source : List Byte) (s s1 : State), startEncode source s = .next s1 →
    (source.length ≤ 65535 →
      ∃ k t, k ≤ source.length + 2 ∧ StepsTo k s1 t ∧ t.cmp.status = .done ∧ t.cmp.err = .none) ∧
    (65535 < source.length →
      ∃ t, StepsTo 1 s1 t ∧ cmpResult t.cmp = some (.error .inputTooLarge) ∧ t.cmp.csLen = 0 ∧ t.cmp.csMem = [])

/-- O48. A compressed stream is at most 2 + src_len + ceil(src_len / 16) bytes long (10_state.md R36;
70_reset_and_hazards.md R283). When an encode call has ended with a result, its length is cs_len, at least 2 and at
most 2 + src_len + ceil(src_len / 16), hence at most 69633, and its first two bytes are the little-endian source
length. -/
def Obligations.CompressedLengthBound : Prop :=
  ∀ (source bytes : List Byte) (s s1 t : State) (k : Nat), startEncode source s = .next s1 → StepsTo k s1 t →
    cmpResult t.cmp = some (.ok bytes) →
    bytes.length = t.cmp.csLen ∧ 2 ≤ bytes.length ∧ bytes.length ≤ 2 + source.length + (source.length + 15) / 16 ∧
    bytes.length ≤ 69633 ∧ bytes.take 2 = [BitVec.ofNat 8 source.length, BitVec.ofNat 8 (source.length / 256)]

/-- O49. Compressing nothing gives the two zero bytes, and decompressing them gives nothing (R218). An encode call on
the empty input ends after some number of steps with the result 00 00, cs_len 2, and cur, C and P still 0: no
position was handled and the last flush emitted nothing. A decode call on 00 00 ends after some number of steps with
an empty output. -/
def Obligations.EmptyInputGivesZeroHeader : Prop :=
  (∀ s s1 : State, startEncode [] s = .next s1 →
    ∃ k t, StepsTo k s1 t ∧ cmpResult t.cmp = some (.ok [0x00, 0x00]) ∧ t.cmp.csLen = 2 ∧
      t.cmp.cur = 0 ∧ t.cmp.committed = 0 ∧ t.cmp.pending = 0) ∧
  (∀ s s1 : State, startDecode [0x00, 0x00] s = .next s1 →
    ∃ k t r, StepsTo k s1 t ∧ decResult t.dec = some (.ok r) ∧ r.out = [])

/-- O50. Without any usable match the compressed size is exactly 2 + ceil(n / 16) + n (44_instruction_encoder.md R219).
When no step of an encode call on at most 65535 bytes finds a usable match, the call ends DONE with cs_len = 2 +
ceil(src_len / 16) + src_len. -/
def Obligations.LiteralOnlySizeIsExact : Prop :=
  ∀ (source : List Byte) (s s1 : State), source.length ≤ 65535 → startEncode source s = .next s1 →
    (∀ k u, StepsTo k s1 u → u.AtCmpStep → u.cmp.findMatch = .ok none) →
    ∃ k t, StepsTo k s1 t ∧ t.cmp.status = .done ∧
      t.cmp.csLen = 2 + (source.length + 15) / 16 + source.length

/-- O51. The shape of every stream CMP makes (44_instruction_encoder.md R203, R217). The result of every encode call is
the header followed by well-formed instructions, each with its payload: none is a LongLiteral, a ShortLiteral
carries exactly its length of payload and a copy none, a MedCopy has offset 16 to 1023, and a ShortLiteral directly
followed by another has length 16. -/
def Obligations.CompressorNeverEmitsLongLiteral : Prop :=
  ∀ (source bytes : List Byte) (s s1 t : State) (k : Nat), startEncode source s = .next s1 → StepsTo k s1 t →
    cmpResult t.cmp = some (.ok bytes) →
    ∃ prog : List (Instr × List Byte),
      bytes = [BitVec.ofNat 8 source.length, BitVec.ofNat 8 (source.length / 256)] ++
        prog.flatMap (fun p => encode p.1 ++ p.2) ∧
      (∀ p ∈ prog, p.1.wf = true ∧ p.1.form ≠ .longLiteral ∧
        p.2.length = (if p.1.form = .shortLiteral then p.1.length else 0) ∧
        (∀ length offset, p.1 = .medCopy length offset → 16 ≤ offset ∧ offset ≤ 1023)) ∧
      (∀ before p q after, prog = before ++ p :: q :: after → p.1.form = .shortLiteral → q.1.form = .shortLiteral →
        p.1.length = 16)

/-- O52. Decompressing what the compressor makes gives back the source, byte for byte (44_instruction_encoder.md R215,
R216). For every source of at most 65535 bytes and every state in which CMP accepts a call: the encode call ends
DONE; and a decode call on its result, from any state in which DEC accepts a call, ends DONE with OUT = the source,
out_len = its length, comp_size = cs_len, produced = its length and short = 0. -/
def Obligations.RoundTripIsExact : Prop :=
  ∀ (source : List Byte) (s s1 : State), source.length ≤ 65535 → startEncode source s = .next s1 →
    ∃ k t, StepsTo k s1 t ∧ t.cmp.status = .done ∧ t.cmp.err = .none ∧
      ∀ s' s1' : State, startDecode (t.cmp.csMem.toBytes t.cmp.csLen) s' = .next s1' →
        ∃ k' t', StepsTo k' s1' t' ∧
          decResult t'.dec = some (.ok ⟨source, source.length, t.cmp.csLen, source.length, false⟩)

/-- O53. With its inner DEC DONE, VER reports a length mismatch, a content mismatch, or DONE (45_round_trip_verifier.md
R231, R233 (decision D18); 60_exceptions.md R249). When VER is served with its inner DEC DONE and sound: step
answers a next state. If out_len differs from orig_len it is FAILED with VERIFY_MISMATCH, kind LENGTH, both lengths,
first_offset the smaller, mismatch_count 0. If the lengths agree and some byte differs it is FAILED with
VERIFY_MISMATCH, kind CONTENT, first_offset the least differing index and mismatch_count their number. If none
differs it is DONE. DEC, CMP, ORIG and the inner DEC are unchanged. -/
def Obligations.VerifyComparesLengthThenContent : Prop :=
  ∀ s : State, s.turn = .ver → s.ver.status = .running → s.ver.inner.Inv → s.ver.inner.status = .done →
    ∃ t, step s = .next t ∧ t.dec = s.dec ∧ t.cmp = s.cmp ∧ t.ver.inner = s.ver.inner ∧
      t.ver.origMem = s.ver.origMem ∧ t.ver.origLen = s.ver.origLen ∧
      (s.ver.inner.outLen ≠ s.ver.origLen →
        verResult t.ver = some (.error (.verifyMismatch, some
          ⟨.length, s.ver.origLen, s.ver.inner.outLen, min s.ver.origLen s.ver.inner.outLen, 0⟩))) ∧
      (s.ver.inner.outLen = s.ver.origLen →
        (∀ first rest, s.ver.differing = first :: rest →
          verResult t.ver = some (.error (.verifyMismatch, some
            ⟨.content, s.ver.origLen, s.ver.origLen, first, rest.length + 1⟩)) ∧
          (∀ i < first, s.ver.inner.outMem.read i = s.ver.origMem.read i)) ∧
        (s.ver.differing = [] → verResult t.ver = some (.ok ())))

/-- O54. VER passes on the error of its inner DEC unchanged (45_round_trip_verifier.md R231; 60_exceptions.md R251).
When VER is served and its inner DEC has FAILED, step answers a next state in which VER is FAILED with the inner
DEC's error code, everything else unchanged. -/
def Obligations.VerifyPassesOnDecoderErrors : Prop :=
  ∀ s : State, s.turn = .ver → s.ver.status = .running → s.ver.inner.status = .failed →
    step s = .next { s with ver := { s.ver with status := .failed, err := s.ver.inner.err } }

/-- O55. An original above 65535 bytes can only give a length mismatch or a decoder error (45_round_trip_verifier.md
R234). When a verify call on an original of more than 65535 bytes has ended, it is FAILED, and its error is a length
mismatch with expected_len the original's length, or an error of the inner DEC. -/
def Obligations.OversizedOriginalNeverVerifies : Prop :=
  ∀ (original candidate : List Byte) (s s1 t : State) (k : Nat), 65535 < original.length →
    startVerify original candidate s = .next s1 → StepsTo k s1 t → t.ver.status ≠ .running →
    t.ver.status = .failed ∧
    ((t.ver.err = .verifyMismatch ∧ t.ver.kind = .length ∧ t.ver.expectedLen = original.length ∧
        t.ver.actualLen ≤ 65535) ∨
      t.ver.err = .formatHeaderTooShort ∨ t.ver.err = .truncatedStream)

/-- O56. The gate: verifying a source against its own compressed stream ends DONE (45_round_trip_verifier.md R235;
44_instruction_encoder.md R216). For every source of at most 65535 bytes: the encode call ends DONE, and a verify
call on the source and the stream it made, from any state in which VER accepts a call, ends DONE. -/
def Obligations.CompressedStreamAlwaysVerifies : Prop :=
  ∀ (source : List Byte) (s s1 : State), source.length ≤ 65535 → startEncode source s = .next s1 →
    ∃ k t, StepsTo k s1 t ∧ t.cmp.status = .done ∧
      ∀ s' s1' : State, startVerify source (t.cmp.csMem.toBytes t.cmp.csLen) s' = .next s1' →
        ∃ k' t', StepsTo k' s1' t' ∧ verResult t'.ver = some (.ok ())

/-- O57. Every step keeps R215: the stream emitted so far decompresses to exactly the committed history
(44_instruction_encoder.md R215; 10_state.md R32 to R36; 42_decompressor_engine.md R153). For every sound state
(State.Inv, with R215 (a) to (d)) in which R215 (e) holds of CMP when it is past its header step or DONE: step
answers a next state that is sound and in which R215 (e) holds. R215 (e): every decode call on CS[0..cs_len) goes,
by its header step and instructions that run whole (no clamp, no sentinel), to a DEC that is RUNNING with no error,
in_ptr = cs_len and exactly SHADOW[0..C) produced. -/
def Obligations.EveryStepKeepsTheEmittedStreamDecodable : Prop :=
  ∀ s : State, s.Inv → s.StreamInv → ∃ t, step s = .next t ∧ t.Inv ∧ t.StreamInv

/-- O58. The reset state is sound, and every host move that is accepted keeps a sound state sound
(44_instruction_encoder.md R215; 10_state.md R39, R40, R41; 70_reset_and_hazards.md R285). R215 (e), and State.Inv,
hold of the reset state; and from a sound state in which R215 (e) holds, a decode, encode or verify call on any
bytes, and an acknowledgement of any unit, gives, where it is accepted, a sound state in which R215 (e) holds. With
EveryStepKeepsTheEmittedStreamDecodable this is R215 in every state of every run. -/
def Obligations.ResetAndHostMovesKeepSoundness : Prop :=
  (State.reset.Inv ∧ State.reset.StreamInv) ∧
  ∀ s : State, s.Inv → s.StreamInv →
    (∀ input t, startDecode input s = .next t → t.Inv ∧ t.StreamInv) ∧
    (∀ source t, startEncode source s = .next t → t.Inv ∧ t.StreamInv) ∧
    (∀ original candidate t, startVerify original candidate s = .next t → t.Inv ∧ t.StreamInv) ∧
    (∀ u t, acknowledge u s = .next t → t.Inv ∧ t.StreamInv)

/-- O59. Encoding the same source twice gives the same stream, whatever the states the calls start from
(44_instruction_encoder.md R217; 20_memory.md R75; 70_reset_and_hazards.md R280). Two encode calls on the same
bytes, from any two states, that have both ended give the host equal results (the stream, or the error). -/
def Obligations.EncodeResultDependsOnSourceOnly : Prop :=
  ∀ (source : List Byte) (s s' s1 s1' t t' : State) (k k' : Nat),
    startEncode source s = .next s1 → startEncode source s' = .next s1' →
    StepsTo k s1 t → StepsTo k' s1' t' → t.cmp.status ≠ .running → t'.cmp.status ≠ .running →
    cmpResult t.cmp = cmpResult t'.cmp ∧ cmpResult t.cmp ≠ none
end

