-- ==== Sys2Proof/Laws/Memory.lean ====
section
/-! SUPPORT. The laws of a memory: a read after a write, the canonical form kept by every operation, and equal reads make
equal memories. -/

namespace Sys2Proof.Machine

theorem Memory.read_write_same (m : Memory) (a : Nat) (b : Byte) (hm : m.wf) : (m.write a b).read a = b := by
  induction m with
  | nil =>
    by_cases hb : b = Memory.unlisted <;> simp [Memory.write, Memory.read, hb]
  | cons c rest ih =>
    obtain ⟨k, v⟩ := c
    obtain ⟨hp, hv⟩ := hm
    rw [List.pairwise_cons] at hp
    have hrest : Memory.read rest k = Memory.unlisted ∧ (∀ a', a' ≤ k → Memory.read rest a' = Memory.unlisted) := by
      have : ∀ (l : Memory), (∀ c ∈ l, k < c.1) → ∀ a', a' ≤ k → Memory.read l a' = Memory.unlisted := by
        intro l hl a' ha'
        induction l with
        | nil => rfl
        | cons c l ihl =>
          have h1 := hl c (by simp)
          have h2 : c.1 ≠ a' := by omega
          simp only [Memory.read, h2, if_false]
          exact ihl (fun c hc => hl c (by simp [hc]))
      exact ⟨this rest hp.1 k (le_refl _), this rest hp.1⟩
    simp only [Memory.write]
    by_cases h : k < a
    · have : k ≠ a := by omega
      simp only [h, if_true, Memory.read, this, if_false]
      exact ih ⟨hp.2, fun c hc => hv c (by simp [hc])⟩
    · simp only [h, if_false]
      by_cases hb : b = Memory.unlisted
      · by_cases hk : k = a
        · subst hk
          simp [hb, hrest.1]
        · simp [hb, hk, Memory.read, hrest.2 a (by omega)]
      · simp [hb, Memory.read]

theorem Memory.read_write_other (m : Memory) (a a' : Nat) (b : Byte) (h : a' ≠ a) :
    (m.write a b).read a' = m.read a' := by
  induction m with
  | nil =>
    by_cases hb : b = Memory.unlisted <;> simp [Memory.write, Memory.read, hb, Ne.symm h]
  | cons c rest ih =>
    obtain ⟨k, v⟩ := c
    simp only [Memory.write]
    by_cases h1 : k < a
    · simp only [h1, if_true, Memory.read, ih]
    · by_cases hk : k = a
      · subst hk
        by_cases hb : b = Memory.unlisted <;> simp [hb, Memory.read, Ne.symm h]
      · by_cases hb : b = Memory.unlisted <;> simp [h1, hk, hb, Memory.read, Ne.symm h]

theorem Memory.mem_write (m : Memory) (a : Nat) (b : Byte) (c : Host.Cell) (hc : c ∈ m.write a b) :
    c = (a, b) ∨ c ∈ m := by
  induction m with
  | nil =>
    by_cases hb : b = Memory.unlisted <;> simp_all [Memory.write]
  | cons d rest ih =>
    obtain ⟨k, v⟩ := d
    simp only [Memory.write] at hc
    split at hc
    · rcases List.mem_cons.1 hc with h | h
      · exact .inr (by simp [h])
      · exact (ih h).imp_right (fun h => by simp [h])
    · by_cases hk : k = a <;> by_cases hb : b = Memory.unlisted <;> (simp_all; try tauto)

theorem Memory.write_wf (m : Memory) (a : Nat) (b : Byte) (hm : m.wf) : (m.write a b).wf := by
  induction m with
  | nil =>
    by_cases hb : b = Memory.unlisted <;> simp [Memory.write, hb, Memory.wf]
  | cons c rest ih =>
    obtain ⟨k, v⟩ := c
    obtain ⟨hp, hv⟩ := hm
    rw [List.pairwise_cons] at hp
    have hrest : Memory.wf rest := ⟨hp.2, fun c hc => hv c (by simp [hc])⟩
    have hkv : v ≠ Memory.unlisted := hv (k, v) (by simp)
    simp only [Memory.write]
    by_cases h1 : k < a
    · simp only [h1, if_true]
      obtain ⟨ip, iv⟩ := ih hrest
      refine ⟨List.pairwise_cons.2 ⟨fun c hc => ?_, ip⟩, fun c hc => ?_⟩
      · rcases Memory.mem_write rest a b c hc with h | h
        · simp [h, h1]
        · exact hp.1 c h
      · rcases List.mem_cons.1 hc with h | h
        · simp [h, hkv]
        · exact iv c h
    · by_cases hk : k = a
      · subst hk
        by_cases hb : b = Memory.unlisted
        · simpa [hb] using hrest
        · simp only [lt_irrefl, if_false, if_true, hb]
          exact ⟨List.pairwise_cons.2 ⟨hp.1, hp.2⟩, fun c hc => by
            rcases List.mem_cons.1 hc with h | h
            · simp [h, hb]
            · exact hrest.2 c h⟩
      · have hold : Memory.wf ((k, v) :: rest) := ⟨List.pairwise_cons.2 hp, hv⟩
        by_cases hb : b = Memory.unlisted
        · simpa [h1, hk, hb] using hold
        · simp only [h1, if_false, hk, hb]
          refine ⟨List.pairwise_cons.2 ⟨fun c hc => ?_, hold.1⟩, fun c hc => ?_⟩
          · rcases List.mem_cons.1 hc with h | h
            · simp only [h]; omega
            · have := hp.1 c h
              simp only at this ⊢
              omega
          · rcases List.mem_cons.1 hc with h | h
            · simp [h, hb]
            · exact hold.2 c h

theorem Memory.write_below (m : Memory) (a n : Nat) (b : Byte) (ha : a < n) (hm : m.below n) :
    (m.write a b).below n := by
  intro c hc
  rcases Memory.mem_write m a b c hc with h | h
  · simpa [h] using ha
  · exact hm c h

theorem Memory.below_mono {m : Memory} {n n' : Nat} (h : m.below n) (hn : n ≤ n') : m.below n' :=
  fun c hc => lt_of_lt_of_le (h c hc) hn

/-- Above everything listed, a memory reads as unlisted. -/
theorem Memory.read_of_below {m : Memory} {n a : Nat} (h : m.below n) (ha : n ≤ a) :
    m.read a = Memory.unlisted := by
  induction m with
  | nil => rfl
  | cons c rest ih =>
    have h1 := h c (by simp)
    have h2 : c.1 ≠ a := by omega
    simp only [Memory.read, h2, if_false]
    exact ih (fun c hc => h c (by simp [hc]))

theorem Memory.read_eq_of_mem {m : Memory} (hm : m.wf) {c : Host.Cell} (hc : c ∈ m) : m.read c.1 = c.2 := by
  induction m with
  | nil => simp at hc
  | cons d rest ih =>
    obtain ⟨hp, hv⟩ := hm
    rw [List.pairwise_cons] at hp
    rcases List.mem_cons.1 hc with h | h
    · simp [h, Memory.read]
    · have : d.1 ≠ c.1 := by have := hp.1 c h; omega
      simp only [Memory.read, this, if_false]
      exact ih ⟨hp.2, fun c hc => hv c (by simp [hc])⟩ h

/-- Equal memories are equal data: two canonical memories that read alike everywhere are one list. -/
theorem Memory.ext_read {m m' : Memory} (hm : m.wf) (hm' : m'.wf) (h : ∀ a, m.read a = m'.read a) : m = m' := by
  have key : ∀ {m m' : Memory}, m.wf → m'.wf → (∀ a, m.read a = m'.read a) → ∀ c ∈ m, c ∈ m' := by
    intro m m' hm hm' h c hc
    have h1 := Memory.read_eq_of_mem hm hc
    have h2 := hm.2 c hc
    rw [h] at h1
    by_contra hno
    have : ∀ (l : Memory), c ∉ l → l.read c.1 = c.2 → c.2 = Memory.unlisted := by
      intro l hl hr
      induction l with
      | nil => simpa [Memory.read] using hr.symm
      | cons d rest ih =>
        by_cases hd : d.1 = c.1
        · simp only [Memory.read, hd, if_true] at hr
          exact absurd (by simp [show c = d from Prod.ext hd.symm hr.symm]) hl
        · simp only [Memory.read, hd, if_false] at hr
          exact ih (fun hc => hl (by simp [hc])) hr
    exact h2 (this m' hno h1)
  have hs : List.Perm m m' := by
    refine (List.perm_ext_iff_of_nodup ?_ ?_).2 (fun c => ⟨key hm hm' h c, key hm' hm (fun a => (h a).symm) c⟩)
    · exact hm.1.imp (fun {a b} hab heq => by simp [heq] at hab)
    · exact hm'.1.imp (fun {a b} hab heq => by simp [heq] at hab)
  exact hs.eq_of_pairwise (fun a b _ _ h1 h2 => absurd h1 (by omega)) hm.1 hm'.1

/-! ### Byte sequences -/

theorem Memory.ofBytesFrom_bounds (bytes : List Byte) (a : Nat) :
    ∀ c ∈ Memory.ofBytesFrom a bytes, a ≤ c.1 ∧ c.1 < a + bytes.length := by
  induction bytes generalizing a with
  | nil => simp [Memory.ofBytesFrom]
  | cons b rest ih =>
    intro c hc
    simp only [Memory.ofBytesFrom] at hc
    split at hc
    · have := ih (a + 1) c hc
      simp only [List.length_cons]; omega
    · rcases List.mem_cons.1 hc with h | h
      · simp [h]
      · have := ih (a + 1) c h
        simp only [List.length_cons]; omega

theorem Memory.ofBytesFrom_wf (bytes : List Byte) (a : Nat) : (Memory.ofBytesFrom a bytes).wf := by
  induction bytes generalizing a with
  | nil => simp [Memory.ofBytesFrom, Memory.wf]
  | cons b rest ih =>
    simp only [Memory.ofBytesFrom]
    split
    · exact ih (a + 1)
    · rename_i hb
      refine ⟨List.pairwise_cons.2 ⟨fun c hc => ?_, (ih (a + 1)).1⟩, fun c hc => ?_⟩
      · have := (Memory.ofBytesFrom_bounds rest (a + 1) c hc).1
        simp only; omega
      · rcases List.mem_cons.1 hc with h | h
        · simpa [h] using hb
        · exact (ih (a + 1)).2 c h

theorem Memory.ofBytes_wf (bytes : List Byte) : (Memory.ofBytes bytes).wf := Memory.ofBytesFrom_wf bytes 0

theorem Memory.ofBytes_below (bytes : List Byte) : (Memory.ofBytes bytes).below bytes.length := fun c hc => by
  simpa using (Memory.ofBytesFrom_bounds bytes 0 c hc).2

theorem Memory.read_ofBytesFrom (bytes : List Byte) (a k : Nat) :
    (Memory.ofBytesFrom a bytes).read (a + k) = bytes.getD k Memory.unlisted := by
  induction bytes generalizing a k with
  | nil => simp [Memory.ofBytesFrom, Memory.read]
  | cons b rest ih =>
    have hlow : (Memory.ofBytesFrom (a + 1) rest).read a = Memory.unlisted := by
      have hb := Memory.ofBytesFrom_bounds rest (a + 1)
      generalize Memory.ofBytesFrom (a + 1) rest = l at hb
      induction l with
      | nil => rfl
      | cons c l ihl =>
        have h1 := (hb c (by simp)).1
        have h2 : c.1 ≠ a := by omega
        simp only [Memory.read, h2, if_false]
        exact ihl (fun c hc => hb c (by simp [hc]))
    simp only [Memory.ofBytesFrom]
    cases k with
    | zero =>
      split
      · simp_all
      · simp [Memory.read]
    | succ k =>
      have h1 := ih (a + 1) k
      rw [show a + 1 + k = a + (k + 1) from by omega] at h1
      split
      · simpa using h1
      · simpa [Memory.read] using h1

theorem Memory.read_ofBytes (bytes : List Byte) (k : Nat) :
    (Memory.ofBytes bytes).read k = bytes.getD k Memory.unlisted := by
  simpa [Memory.ofBytes] using Memory.read_ofBytesFrom bytes 0 k

@[simp] theorem Memory.toBytes_length (m : Memory) (n : Nat) : (m.toBytes n).length = n := by simp [Memory.toBytes]

theorem Memory.toBytes_getElem (m : Memory) (n k : Nat) (h : k < (m.toBytes n).length) :
    (m.toBytes n)[k] = m.read k := by simp [Memory.toBytes]

theorem Memory.toBytes_ofBytes (bytes : List Byte) : (Memory.ofBytes bytes).toBytes bytes.length = bytes := by
  refine List.ext_getElem (by simp) (fun k h1 h2 => ?_)
  simp [Memory.toBytes_getElem, Memory.read_ofBytes, List.getD, h2]

theorem Memory.free_wf (tag : Config.FreeMem) (draw n : Nat) : (Memory.free tag draw n).wf := Memory.ofBytes_wf _

theorem Memory.free_below (tag : Config.FreeMem) (draw n : Nat) : (Memory.free tag draw n).below n := by
  simpa [Memory.free] using Memory.ofBytes_below ((List.range n).map (Config.freeByte tag draw))

theorem Memory.nil_wf : Memory.wf [] := by simp [Memory.wf]

theorem Memory.nil_below (n : Nat) : Memory.below [] n := by simp [Memory.below]

@[simp] theorem Memory.read_nil (a : Nat) : Memory.read [] a = Memory.unlisted := rfl

/-! ### A run of writes -/

theorem Memory.writeAll_wf (m : Memory) (a : Nat) (bytes : List Byte) (hm : m.wf) : (m.writeAll a bytes).wf := by
  induction bytes generalizing m a with
  | nil => exact hm
  | cons b rest ih => exact ih _ _ (Memory.write_wf m a b hm)

theorem Memory.writeAll_below (m : Memory) (a n : Nat) (bytes : List Byte) (hm : m.below n)
    (hn : a + bytes.length ≤ n) : (m.writeAll a bytes).below n := by
  induction bytes generalizing m a with
  | nil => exact hm
  | cons b rest ih =>
    simp only [List.length_cons] at hn
    exact ih _ _ (Memory.write_below m a n b (by omega) hm) (by omega)

theorem Memory.read_writeAll (m : Memory) (a : Nat) (bytes : List Byte) (i : Nat) (hm : m.wf) :
    (m.writeAll a bytes).read i =
      if h : a ≤ i ∧ i < a + bytes.length then bytes[i - a]'(by omega) else m.read i := by
  induction bytes generalizing m a with
  | nil =>
    simp [Memory.writeAll]
  | cons b rest ih =>
    simp only [Memory.writeAll]
    rw [ih _ _ (Memory.write_wf m a b hm)]
    simp only [List.length_cons]
    by_cases h1 : i = a
    · subst h1
      simp [Memory.read_write_same m i b hm]
    · by_cases h2 : a + 1 ≤ i ∧ i < a + 1 + rest.length
      · have h3 : a ≤ i ∧ i < a + (rest.length + 1) := by omega
        obtain ⟨k, hk⟩ : ∃ k, i = a + 1 + k := ⟨i - (a + 1), by omega⟩
        subst hk
        simp only [h2, h3, and_self, dif_pos]
        have e1 : a + 1 + k - (a + 1) = k := by omega
        have e2 : a + 1 + k - a = k + 1 := by omega
        simp [e1, e2]
      · have h3 : ¬ (a ≤ i ∧ i < a + (rest.length + 1)) := by omega
        simp only [h2, h3, dif_neg, not_false_iff]
        exact Memory.read_write_other m a i b h1

theorem Memory.read_writeAll_outside (m : Memory) (a : Nat) (bytes : List Byte) (i : Nat)
    (h : i < a ∨ a + bytes.length ≤ i) : (m.writeAll a bytes).read i = m.read i := by
  induction bytes generalizing m a with
  | nil => rfl
  | cons b rest ih =>
    simp only [List.length_cons] at h
    simp only [Memory.writeAll]
    rw [ih _ _ (by omega), Memory.read_write_other m a i b (by omega)]

theorem Memory.read_writeAll_inside (m : Memory) (a : Nat) (bytes : List Byte) (k : Nat) (hm : m.wf)
    (h : k < bytes.length) : (m.writeAll a bytes).read (a + k) = bytes[k] := by
  rw [Memory.read_writeAll m a bytes (a + k) hm, dif_pos (by omega)]
  simp

theorem Memory.clear_wf (m : Memory) (a n : Nat) (hm : m.wf) : (m.clear a n).wf :=
  ⟨hm.1.filter _, fun c hc => hm.2 c (List.mem_filter.1 hc).1⟩

/-- Bytes written behind the first `n` of a memory follow them. -/
theorem Memory.toBytes_writeAll (m : Memory) (n : Nat) (bytes : List Byte) (hm : m.wf) :
    (m.writeAll n bytes).toBytes (n + bytes.length) = m.toBytes n ++ bytes := by
  refine List.ext_getElem (by simp) fun k h1 h2 => ?_
  rw [Memory.toBytes_getElem]
  by_cases hk : k < n
  · rw [Memory.read_writeAll_outside _ _ _ _ (.inl hk), List.getElem_append_left (by simpa using hk), Memory.toBytes_getElem]
  · obtain ⟨j, rfl⟩ : ∃ j, k = n + j := ⟨k - n, by omega⟩
    rw [List.getElem_append_right (by simp), Memory.read_writeAll_inside _ _ _ _ hm (by simp at h1; omega)]
    simp

/-- The bytes of a memory are what it reads as. -/
theorem Memory.toBytes_congr {m m' : Memory} {n : Nat} (h : ∀ i < n, m.read i = m'.read i) : m.toBytes n = m'.toBytes n := by
  refine List.ext_getElem (by simp) fun k h1 h2 => ?_
  rw [Memory.toBytes_getElem, Memory.toBytes_getElem, h k (by simpa using h1)]

/-- The bytes of a memory, in two parts. -/
theorem Memory.toBytes_add (m : Memory) (n k : Nat) :
    m.toBytes (n + k) = m.toBytes n ++ (List.range k).map (fun j => m.read (n + j)) := by
  simp [Memory.toBytes, List.range_add, Function.comp_def]

end Sys2Proof.Machine
end

