-- ==== Sys2Proof/Laws/State.lean ====
section
/-! SUPPORT. One lemma per field per named update of the state, so that no proof unfolds a record update. -/

namespace Sys2Proof.Machine


/-! ### Dec.unspecified -/

@[simp] theorem Dec.unspecified_inMem (draw : Nat) : (Dec.unspecified draw).inMem = Memory.free .inMem draw (Config.freeNat .inLen draw) := rfl
@[simp] theorem Dec.unspecified_inLen (draw : Nat) : (Dec.unspecified draw).inLen = Config.freeNat .inLen draw := rfl
@[simp] theorem Dec.unspecified_declaredSize (draw : Nat) : (Dec.unspecified draw).declaredSize = Config.freeNat .declaredSize draw := rfl
@[simp] theorem Dec.unspecified_inPtr (draw : Nat) : (Dec.unspecified draw).inPtr = Config.freeNat .inPtr draw := rfl
@[simp] theorem Dec.unspecified_outPtr (draw : Nat) : (Dec.unspecified draw).outPtr = Config.freeNat .outPtr draw := rfl
@[simp] theorem Dec.unspecified_outMem (draw : Nat) : (Dec.unspecified draw).outMem = Memory.free .outMem draw (Config.freeNat .declaredSize draw) := rfl
@[simp] theorem Dec.unspecified_status (draw : Nat) : (Dec.unspecified draw).status = .idle := rfl
@[simp] theorem Dec.unspecified_err (draw : Nat) : (Dec.unspecified draw).err = .none := rfl
@[simp] theorem Dec.unspecified_outLen (draw : Nat) : (Dec.unspecified draw).outLen = Config.freeNat .outLen draw := rfl
@[simp] theorem Dec.unspecified_compSize (draw : Nat) : (Dec.unspecified draw).compSize = Config.freeNat .compSize draw := rfl
@[simp] theorem Dec.unspecified_produced (draw : Nat) : (Dec.unspecified draw).produced = Config.freeNat .produced draw := rfl
@[simp] theorem Dec.unspecified_short (draw : Nat) : (Dec.unspecified draw).short = Config.freeBit .short draw := rfl
@[simp] theorem Dec.unspecified_headerRead (draw : Nat) : (Dec.unspecified draw).headerRead = false := rfl

/-! ### Dec.begin -/

@[simp] theorem Dec.begin_inMem (d : Dec) (draw : Nat) : (d.begin draw).inMem = d.inMem := rfl
@[simp] theorem Dec.begin_inLen (d : Dec) (draw : Nat) : (d.begin draw).inLen = d.inLen := rfl
@[simp] theorem Dec.begin_declaredSize (d : Dec) (draw : Nat) : (d.begin draw).declaredSize = Config.freeNat .declaredSize draw := rfl
@[simp] theorem Dec.begin_inPtr (d : Dec) (draw : Nat) : (d.begin draw).inPtr = Config.freeNat .inPtr draw := rfl
@[simp] theorem Dec.begin_outPtr (d : Dec) (draw : Nat) : (d.begin draw).outPtr = Config.freeNat .outPtr draw := rfl
@[simp] theorem Dec.begin_outMem (d : Dec) (draw : Nat) : (d.begin draw).outMem = Memory.free .outMem draw (Config.freeNat .declaredSize draw) := rfl
@[simp] theorem Dec.begin_status (d : Dec) (draw : Nat) : (d.begin draw).status = .running := rfl
@[simp] theorem Dec.begin_err (d : Dec) (draw : Nat) : (d.begin draw).err = .none := rfl
@[simp] theorem Dec.begin_outLen (d : Dec) (draw : Nat) : (d.begin draw).outLen = Config.freeNat .outLen draw := rfl
@[simp] theorem Dec.begin_compSize (d : Dec) (draw : Nat) : (d.begin draw).compSize = Config.freeNat .compSize draw := rfl
@[simp] theorem Dec.begin_produced (d : Dec) (draw : Nat) : (d.begin draw).produced = Config.freeNat .produced draw := rfl
@[simp] theorem Dec.begin_short (d : Dec) (draw : Nat) : (d.begin draw).short = Config.freeBit .short draw := rfl
@[simp] theorem Dec.begin_headerRead (d : Dec) (draw : Nat) : (d.begin draw).headerRead = false := rfl

/-! ### Dec.afterRaise -/

@[simp] theorem Dec.afterRaise_inMem (d : Dec) (e : ErrCode) (draw : Nat) : (d.afterRaise e draw).inMem = d.inMem := rfl
@[simp] theorem Dec.afterRaise_inLen (d : Dec) (e : ErrCode) (draw : Nat) : (d.afterRaise e draw).inLen = d.inLen := rfl
@[simp] theorem Dec.afterRaise_declaredSize (d : Dec) (e : ErrCode) (draw : Nat) : (d.afterRaise e draw).declaredSize = d.declaredSize := rfl
@[simp] theorem Dec.afterRaise_inPtr (d : Dec) (e : ErrCode) (draw : Nat) : (d.afterRaise e draw).inPtr = d.inPtr := rfl
@[simp] theorem Dec.afterRaise_outPtr (d : Dec) (e : ErrCode) (draw : Nat) : (d.afterRaise e draw).outPtr = d.outPtr := rfl
@[simp] theorem Dec.afterRaise_outMem (d : Dec) (e : ErrCode) (draw : Nat) : (d.afterRaise e draw).outMem = Memory.free .outMem draw d.declaredSize := rfl
@[simp] theorem Dec.afterRaise_status (d : Dec) (e : ErrCode) (draw : Nat) : (d.afterRaise e draw).status = .failed := rfl
@[simp] theorem Dec.afterRaise_err (d : Dec) (e : ErrCode) (draw : Nat) : (d.afterRaise e draw).err = e := rfl
@[simp] theorem Dec.afterRaise_outLen (d : Dec) (e : ErrCode) (draw : Nat) : (d.afterRaise e draw).outLen = Config.freeNat .outLen draw := rfl
@[simp] theorem Dec.afterRaise_compSize (d : Dec) (e : ErrCode) (draw : Nat) : (d.afterRaise e draw).compSize = Config.freeNat .compSize draw := rfl
@[simp] theorem Dec.afterRaise_produced (d : Dec) (e : ErrCode) (draw : Nat) : (d.afterRaise e draw).produced = Config.freeNat .produced draw := rfl
@[simp] theorem Dec.afterRaise_short (d : Dec) (e : ErrCode) (draw : Nat) : (d.afterRaise e draw).short = Config.freeBit .short draw := rfl
@[simp] theorem Dec.afterRaise_headerRead (d : Dec) (e : ErrCode) (draw : Nat) : (d.afterRaise e draw).headerRead = d.headerRead := rfl

/-! ### Dec.afterHalt -/

@[simp] theorem Dec.afterHalt_inMem (d : Dec) : (d.afterHalt).inMem = d.inMem := rfl
@[simp] theorem Dec.afterHalt_inLen (d : Dec) : (d.afterHalt).inLen = d.inLen := rfl
@[simp] theorem Dec.afterHalt_declaredSize (d : Dec) : (d.afterHalt).declaredSize = d.declaredSize := rfl
@[simp] theorem Dec.afterHalt_inPtr (d : Dec) : (d.afterHalt).inPtr = d.inPtr := rfl
@[simp] theorem Dec.afterHalt_outPtr (d : Dec) : (d.afterHalt).outPtr = d.outPtr := rfl
@[simp] theorem Dec.afterHalt_outMem (d : Dec) : (d.afterHalt).outMem = d.outMem := rfl
@[simp] theorem Dec.afterHalt_status (d : Dec) : (d.afterHalt).status = .done := rfl
@[simp] theorem Dec.afterHalt_err (d : Dec) : (d.afterHalt).err = d.err := rfl
@[simp] theorem Dec.afterHalt_outLen (d : Dec) : (d.afterHalt).outLen = d.declaredSize := rfl
@[simp] theorem Dec.afterHalt_compSize (d : Dec) : (d.afterHalt).compSize = d.inPtr := rfl
@[simp] theorem Dec.afterHalt_produced (d : Dec) : (d.afterHalt).produced = d.outPtr := rfl
@[simp] theorem Dec.afterHalt_short (d : Dec) : (d.afterHalt).short = d.shortFlag := rfl
@[simp] theorem Dec.afterHalt_headerRead (d : Dec) : (d.afterHalt).headerRead = d.headerRead := rfl

/-! ### Dec.loaded -/

@[simp] theorem Dec.loaded_inMem (d : Dec) : (d.loaded).inMem = Memory.ofBytes [0xFF, 0xFF] := rfl
@[simp] theorem Dec.loaded_inLen (d : Dec) : (d.loaded).inLen = Config.hdrLen := rfl
@[simp] theorem Dec.loaded_declaredSize (d : Dec) : (d.loaded).declaredSize = Config.sizeMax := rfl
@[simp] theorem Dec.loaded_inPtr (d : Dec) : (d.loaded).inPtr = Config.hdrLen := rfl
@[simp] theorem Dec.loaded_outPtr (d : Dec) : (d.loaded).outPtr = 0 := rfl
@[simp] theorem Dec.loaded_outMem (d : Dec) : (d.loaded).outMem = [] := rfl
@[simp] theorem Dec.loaded_status (d : Dec) : (d.loaded).status = .running := rfl
@[simp] theorem Dec.loaded_err (d : Dec) : (d.loaded).err = .none := rfl
@[simp] theorem Dec.loaded_outLen (d : Dec) : (d.loaded).outLen = d.outLen := rfl
@[simp] theorem Dec.loaded_compSize (d : Dec) : (d.loaded).compSize = d.compSize := rfl
@[simp] theorem Dec.loaded_produced (d : Dec) : (d.loaded).produced = d.produced := rfl
@[simp] theorem Dec.loaded_short (d : Dec) : (d.loaded).short = d.short := rfl
@[simp] theorem Dec.loaded_headerRead (d : Dec) : (d.loaded).headerRead = true := rfl

/-! ### Dec.withInstrBytes -/

@[simp] theorem Dec.withInstrBytes_inMem (d : Dec) (bytes : List Byte) : (d.withInstrBytes bytes).inMem = Memory.writeAll (Memory.clear d.inMem d.inPtr instrSpan) d.inPtr bytes := rfl
@[simp] theorem Dec.withInstrBytes_inLen (d : Dec) (bytes : List Byte) : (d.withInstrBytes bytes).inLen = max d.inLen (d.inPtr + instrSpan) := rfl
@[simp] theorem Dec.withInstrBytes_declaredSize (d : Dec) (bytes : List Byte) : (d.withInstrBytes bytes).declaredSize = d.declaredSize := rfl
@[simp] theorem Dec.withInstrBytes_inPtr (d : Dec) (bytes : List Byte) : (d.withInstrBytes bytes).inPtr = d.inPtr := rfl
@[simp] theorem Dec.withInstrBytes_outPtr (d : Dec) (bytes : List Byte) : (d.withInstrBytes bytes).outPtr = d.outPtr := rfl
@[simp] theorem Dec.withInstrBytes_outMem (d : Dec) (bytes : List Byte) : (d.withInstrBytes bytes).outMem = d.outMem := rfl
@[simp] theorem Dec.withInstrBytes_status (d : Dec) (bytes : List Byte) : (d.withInstrBytes bytes).status = d.status := rfl
@[simp] theorem Dec.withInstrBytes_err (d : Dec) (bytes : List Byte) : (d.withInstrBytes bytes).err = d.err := rfl
@[simp] theorem Dec.withInstrBytes_outLen (d : Dec) (bytes : List Byte) : (d.withInstrBytes bytes).outLen = d.outLen := rfl
@[simp] theorem Dec.withInstrBytes_compSize (d : Dec) (bytes : List Byte) : (d.withInstrBytes bytes).compSize = d.compSize := rfl
@[simp] theorem Dec.withInstrBytes_produced (d : Dec) (bytes : List Byte) : (d.withInstrBytes bytes).produced = d.produced := rfl
@[simp] theorem Dec.withInstrBytes_short (d : Dec) (bytes : List Byte) : (d.withInstrBytes bytes).short = d.short := rfl
@[simp] theorem Dec.withInstrBytes_headerRead (d : Dec) (bytes : List Byte) : (d.withInstrBytes bytes).headerRead = d.headerRead := rfl

/-! ### Cmp.unspecified -/

@[simp] theorem Cmp.unspecified_srcMem (draw : Nat) : (Cmp.unspecified draw).srcMem = Memory.free .srcMem draw (Config.freeNat .srcLen draw) := rfl
@[simp] theorem Cmp.unspecified_srcLen (draw : Nat) : (Cmp.unspecified draw).srcLen = Config.freeNat .srcLen draw := rfl
@[simp] theorem Cmp.unspecified_cur (draw : Nat) : (Cmp.unspecified draw).cur = Config.freeNat .cur draw := rfl
@[simp] theorem Cmp.unspecified_shadowMem (draw : Nat) : (Cmp.unspecified draw).shadowMem = Memory.free .shadowMem draw (Config.freeNat .committed draw) := rfl
@[simp] theorem Cmp.unspecified_committed (draw : Nat) : (Cmp.unspecified draw).committed = Config.freeNat .committed draw := rfl
@[simp] theorem Cmp.unspecified_pendMem (draw : Nat) : (Cmp.unspecified draw).pendMem = Memory.free .pendMem draw (Config.freeNat .pending draw) := rfl
@[simp] theorem Cmp.unspecified_pending (draw : Nat) : (Cmp.unspecified draw).pending = Config.freeNat .pending draw := rfl
@[simp] theorem Cmp.unspecified_csMem (draw : Nat) : (Cmp.unspecified draw).csMem = Memory.free .csMem draw (Config.freeNat .csLen draw) := rfl
@[simp] theorem Cmp.unspecified_csLen (draw : Nat) : (Cmp.unspecified draw).csLen = Config.freeNat .csLen draw := rfl
@[simp] theorem Cmp.unspecified_status (draw : Nat) : (Cmp.unspecified draw).status = .idle := rfl
@[simp] theorem Cmp.unspecified_err (draw : Nat) : (Cmp.unspecified draw).err = .none := rfl
@[simp] theorem Cmp.unspecified_headerWritten (draw : Nat) : (Cmp.unspecified draw).headerWritten = false := rfl

/-! ### Cmp.begin -/

@[simp] theorem Cmp.begin_srcMem (c : Cmp) (draw : Nat) : (c.begin draw).srcMem = c.srcMem := rfl
@[simp] theorem Cmp.begin_srcLen (c : Cmp) (draw : Nat) : (c.begin draw).srcLen = c.srcLen := rfl
@[simp] theorem Cmp.begin_cur (c : Cmp) (draw : Nat) : (c.begin draw).cur = Config.freeNat .cur draw := rfl
@[simp] theorem Cmp.begin_shadowMem (c : Cmp) (draw : Nat) : (c.begin draw).shadowMem = Memory.free .shadowMem draw (Config.freeNat .committed draw) := rfl
@[simp] theorem Cmp.begin_committed (c : Cmp) (draw : Nat) : (c.begin draw).committed = Config.freeNat .committed draw := rfl
@[simp] theorem Cmp.begin_pendMem (c : Cmp) (draw : Nat) : (c.begin draw).pendMem = Memory.free .pendMem draw (Config.freeNat .pending draw) := rfl
@[simp] theorem Cmp.begin_pending (c : Cmp) (draw : Nat) : (c.begin draw).pending = Config.freeNat .pending draw := rfl
@[simp] theorem Cmp.begin_csMem (c : Cmp) (draw : Nat) : (c.begin draw).csMem = Memory.free .csMem draw (Config.freeNat .csLen draw) := rfl
@[simp] theorem Cmp.begin_csLen (c : Cmp) (draw : Nat) : (c.begin draw).csLen = Config.freeNat .csLen draw := rfl
@[simp] theorem Cmp.begin_status (c : Cmp) (draw : Nat) : (c.begin draw).status = .running := rfl
@[simp] theorem Cmp.begin_err (c : Cmp) (draw : Nat) : (c.begin draw).err = .none := rfl
@[simp] theorem Cmp.begin_headerWritten (c : Cmp) (draw : Nat) : (c.begin draw).headerWritten = false := rfl

/-! ### Cmp.afterRaise -/

@[simp] theorem Cmp.afterRaise_srcMem (c : Cmp) (e : ErrCode) : (c.afterRaise e).srcMem = c.srcMem := rfl
@[simp] theorem Cmp.afterRaise_srcLen (c : Cmp) (e : ErrCode) : (c.afterRaise e).srcLen = c.srcLen := rfl
@[simp] theorem Cmp.afterRaise_cur (c : Cmp) (e : ErrCode) : (c.afterRaise e).cur = c.cur := rfl
@[simp] theorem Cmp.afterRaise_shadowMem (c : Cmp) (e : ErrCode) : (c.afterRaise e).shadowMem = c.shadowMem := rfl
@[simp] theorem Cmp.afterRaise_committed (c : Cmp) (e : ErrCode) : (c.afterRaise e).committed = c.committed := rfl
@[simp] theorem Cmp.afterRaise_pendMem (c : Cmp) (e : ErrCode) : (c.afterRaise e).pendMem = c.pendMem := rfl
@[simp] theorem Cmp.afterRaise_pending (c : Cmp) (e : ErrCode) : (c.afterRaise e).pending = c.pending := rfl
@[simp] theorem Cmp.afterRaise_csMem (c : Cmp) (e : ErrCode) : (c.afterRaise e).csMem = [] := rfl
@[simp] theorem Cmp.afterRaise_csLen (c : Cmp) (e : ErrCode) : (c.afterRaise e).csLen = 0 := rfl
@[simp] theorem Cmp.afterRaise_status (c : Cmp) (e : ErrCode) : (c.afterRaise e).status = .failed := rfl
@[simp] theorem Cmp.afterRaise_err (c : Cmp) (e : ErrCode) : (c.afterRaise e).err = e := rfl
@[simp] theorem Cmp.afterRaise_headerWritten (c : Cmp) (e : ErrCode) : (c.afterRaise e).headerWritten = c.headerWritten := rfl

/-! ### Ver.unspecified -/

@[simp] theorem Ver.unspecified_origMem (draw : Nat) : (Ver.unspecified draw).origMem = Memory.free .origMem draw (Config.freeNat .origLen draw) := rfl
@[simp] theorem Ver.unspecified_origLen (draw : Nat) : (Ver.unspecified draw).origLen = Config.freeNat .origLen draw := rfl
@[simp] theorem Ver.unspecified_inner (draw : Nat) : (Ver.unspecified draw).inner = Dec.unspecified draw := rfl
@[simp] theorem Ver.unspecified_status (draw : Nat) : (Ver.unspecified draw).status = .idle := rfl
@[simp] theorem Ver.unspecified_err (draw : Nat) : (Ver.unspecified draw).err = .none := rfl
@[simp] theorem Ver.unspecified_kind (draw : Nat) : (Ver.unspecified draw).kind = (if Config.freeBit .kind draw then .content else .length) := rfl
@[simp] theorem Ver.unspecified_expectedLen (draw : Nat) : (Ver.unspecified draw).expectedLen = Config.freeNat .expectedLen draw := rfl
@[simp] theorem Ver.unspecified_actualLen (draw : Nat) : (Ver.unspecified draw).actualLen = Config.freeNat .actualLen draw := rfl
@[simp] theorem Ver.unspecified_firstOffset (draw : Nat) : (Ver.unspecified draw).firstOffset = Config.freeNat .firstOffset draw := rfl
@[simp] theorem Ver.unspecified_mismatchCount (draw : Nat) : (Ver.unspecified draw).mismatchCount = Config.freeNat .mismatchCount draw := rfl

/-! ### Ver.begin -/

@[simp] theorem Ver.begin_origMem (v : Ver) (draw : Nat) : (v.begin draw).origMem = v.origMem := rfl
@[simp] theorem Ver.begin_origLen (v : Ver) (draw : Nat) : (v.begin draw).origLen = v.origLen := rfl
@[simp] theorem Ver.begin_inner (v : Ver) (draw : Nat) : (v.begin draw).inner = { Dec.unspecified draw with inMem := v.inner.inMem, inLen := v.inner.inLen } := rfl
@[simp] theorem Ver.begin_status (v : Ver) (draw : Nat) : (v.begin draw).status = .running := rfl
@[simp] theorem Ver.begin_err (v : Ver) (draw : Nat) : (v.begin draw).err = .none := rfl
@[simp] theorem Ver.begin_kind (v : Ver) (draw : Nat) : (v.begin draw).kind = (if Config.freeBit .kind draw then .content else .length) := rfl
@[simp] theorem Ver.begin_expectedLen (v : Ver) (draw : Nat) : (v.begin draw).expectedLen = Config.freeNat .expectedLen draw := rfl
@[simp] theorem Ver.begin_actualLen (v : Ver) (draw : Nat) : (v.begin draw).actualLen = Config.freeNat .actualLen draw := rfl
@[simp] theorem Ver.begin_firstOffset (v : Ver) (draw : Nat) : (v.begin draw).firstOffset = Config.freeNat .firstOffset draw := rfl
@[simp] theorem Ver.begin_mismatchCount (v : Ver) (draw : Nat) : (v.begin draw).mismatchCount = Config.freeNat .mismatchCount draw := rfl

/-! ### Ver.afterRaise -/

@[simp] theorem Ver.afterRaise_origMem (v : Ver) (e : ErrCode) : (v.afterRaise e).origMem = v.origMem := rfl
@[simp] theorem Ver.afterRaise_origLen (v : Ver) (e : ErrCode) : (v.afterRaise e).origLen = v.origLen := rfl
@[simp] theorem Ver.afterRaise_inner (v : Ver) (e : ErrCode) : (v.afterRaise e).inner = v.inner := rfl
@[simp] theorem Ver.afterRaise_status (v : Ver) (e : ErrCode) : (v.afterRaise e).status = .failed := rfl
@[simp] theorem Ver.afterRaise_err (v : Ver) (e : ErrCode) : (v.afterRaise e).err = e := rfl
@[simp] theorem Ver.afterRaise_kind (v : Ver) (e : ErrCode) : (v.afterRaise e).kind = v.kind := rfl
@[simp] theorem Ver.afterRaise_expectedLen (v : Ver) (e : ErrCode) : (v.afterRaise e).expectedLen = v.expectedLen := rfl
@[simp] theorem Ver.afterRaise_actualLen (v : Ver) (e : ErrCode) : (v.afterRaise e).actualLen = v.actualLen := rfl
@[simp] theorem Ver.afterRaise_firstOffset (v : Ver) (e : ErrCode) : (v.afterRaise e).firstOffset = v.firstOffset := rfl
@[simp] theorem Ver.afterRaise_mismatchCount (v : Ver) (e : ErrCode) : (v.afterRaise e).mismatchCount = v.mismatchCount := rfl

/-! ### Ver.report -/

@[simp] theorem Ver.report_origMem (v : Ver) (k : MismatchKind) (first count : Nat) : (v.report k first count).origMem = v.origMem := rfl
@[simp] theorem Ver.report_origLen (v : Ver) (k : MismatchKind) (first count : Nat) : (v.report k first count).origLen = v.origLen := rfl
@[simp] theorem Ver.report_inner (v : Ver) (k : MismatchKind) (first count : Nat) : (v.report k first count).inner = v.inner := rfl
@[simp] theorem Ver.report_status (v : Ver) (k : MismatchKind) (first count : Nat) : (v.report k first count).status = v.status := rfl
@[simp] theorem Ver.report_err (v : Ver) (k : MismatchKind) (first count : Nat) : (v.report k first count).err = v.err := rfl
@[simp] theorem Ver.report_kind (v : Ver) (k : MismatchKind) (first count : Nat) : (v.report k first count).kind = k := rfl
@[simp] theorem Ver.report_expectedLen (v : Ver) (k : MismatchKind) (first count : Nat) : (v.report k first count).expectedLen = v.origLen := rfl
@[simp] theorem Ver.report_actualLen (v : Ver) (k : MismatchKind) (first count : Nat) : (v.report k first count).actualLen = v.inner.outLen := rfl
@[simp] theorem Ver.report_firstOffset (v : Ver) (k : MismatchKind) (first count : Nat) : (v.report k first count).firstOffset = first := rfl
@[simp] theorem Ver.report_mismatchCount (v : Ver) (k : MismatchKind) (first count : Nat) : (v.report k first count).mismatchCount = count := rfl

/-! ### State.raise for CMP -/

@[simp] theorem State.raise_cmp_turn (s : State) (e : ErrCode) : (s.raise .cmp e).turn = s.turn := rfl
@[simp] theorem State.raise_cmp_dec (s : State) (e : ErrCode) : (s.raise .cmp e).dec = s.dec := rfl
@[simp] theorem State.raise_cmp_cmp (s : State) (e : ErrCode) : (s.raise .cmp e).cmp = s.cmp.afterRaise e := rfl
@[simp] theorem State.raise_cmp_ver (s : State) (e : ErrCode) : (s.raise .cmp e).ver = s.ver := rfl
@[simp] theorem State.raise_cmp_freeSeed (s : State) (e : ErrCode) : (s.raise .cmp e).freeSeed = s.freeSeed := rfl

/-! ### State.raise for VER -/

@[simp] theorem State.raise_ver_turn (s : State) (e : ErrCode) : (s.raise .ver e).turn = s.turn := rfl
@[simp] theorem State.raise_ver_dec (s : State) (e : ErrCode) : (s.raise .ver e).dec = s.dec := rfl
@[simp] theorem State.raise_ver_cmp (s : State) (e : ErrCode) : (s.raise .ver e).cmp = s.cmp := rfl
@[simp] theorem State.raise_ver_ver (s : State) (e : ErrCode) : (s.raise .ver e).ver = s.ver.afterRaise e := rfl
@[simp] theorem State.raise_ver_freeSeed (s : State) (e : ErrCode) : (s.raise .ver e).freeSeed = s.freeSeed := rfl

/-! ### State.toIdle for DEC -/

@[simp] theorem State.toIdle_dec_turn (s : State) : (s.toIdle .dec).turn = s.turn := rfl
@[simp] theorem State.toIdle_dec_dec (s : State) : (s.toIdle .dec).dec = Dec.unspecified s.freeSeed := rfl
@[simp] theorem State.toIdle_dec_cmp (s : State) : (s.toIdle .dec).cmp = s.cmp := rfl
@[simp] theorem State.toIdle_dec_ver (s : State) : (s.toIdle .dec).ver = s.ver := rfl
@[simp] theorem State.toIdle_dec_freeSeed (s : State) : (s.toIdle .dec).freeSeed = s.freeSeed + 1 := rfl

/-! ### State.toIdle for CMP -/

@[simp] theorem State.toIdle_cmp_turn (s : State) : (s.toIdle .cmp).turn = s.turn := rfl
@[simp] theorem State.toIdle_cmp_dec (s : State) : (s.toIdle .cmp).dec = s.dec := rfl
@[simp] theorem State.toIdle_cmp_cmp (s : State) : (s.toIdle .cmp).cmp = Cmp.unspecified s.freeSeed := rfl
@[simp] theorem State.toIdle_cmp_ver (s : State) : (s.toIdle .cmp).ver = s.ver := rfl
@[simp] theorem State.toIdle_cmp_freeSeed (s : State) : (s.toIdle .cmp).freeSeed = s.freeSeed + 1 := rfl

/-! ### State.toIdle for VER -/

@[simp] theorem State.toIdle_ver_turn (s : State) : (s.toIdle .ver).turn = s.turn := rfl
@[simp] theorem State.toIdle_ver_dec (s : State) : (s.toIdle .ver).dec = s.dec := rfl
@[simp] theorem State.toIdle_ver_cmp (s : State) : (s.toIdle .ver).cmp = s.cmp := rfl
@[simp] theorem State.toIdle_ver_ver (s : State) : (s.toIdle .ver).ver = Ver.unspecified s.freeSeed := rfl
@[simp] theorem State.toIdle_ver_freeSeed (s : State) : (s.toIdle .ver).freeSeed = s.freeSeed + 1 := rfl

/-! ### The DEC that executes -/

@[simp] theorem State.setCurDec_turn (s : State) (d : Dec) : (s.setCurDec d).turn = s.turn := by
  unfold State.setCurDec; split <;> rfl

@[simp] theorem State.setCurDec_cmp (s : State) (d : Dec) : (s.setCurDec d).cmp = s.cmp := by
  unfold State.setCurDec; split <;> rfl

@[simp] theorem State.setCurDec_freeSeed (s : State) (d : Dec) : (s.setCurDec d).freeSeed = s.freeSeed := by
  unfold State.setCurDec; split <;> rfl

@[simp] theorem State.curDec_setCurDec (s : State) (d : Dec) : (s.setCurDec d).curDec = d := by
  obtain ⟨t, _, _, _, _⟩ := s
  cases t <;> rfl

@[simp] theorem State.setCurDec_setCurDec (s : State) (d d' : Dec) : (s.setCurDec d).setCurDec d' = s.setCurDec d' := by
  obtain ⟨t, _, _, _, _⟩ := s
  cases t <;> rfl

@[simp] theorem State.setCurDec_curDec (s : State) : s.setCurDec s.curDec = s := by
  obtain ⟨t, _, _, _, _⟩ := s
  cases t <;> rfl

/-- When it is not VER's turn, the DEC that executes is DEC. -/
theorem State.curDec_of_dec {s : State} (h : s.turn = .dec) : s.curDec = s.dec := by
  simp [State.curDec, h]

theorem State.setCurDec_of_dec {s : State} (h : s.turn = .dec) (d : Dec) : s.setCurDec d = { s with dec := d } := by
  simp [State.setCurDec, h]

/-- When it is VER's turn, the DEC that executes is VER's inner DEC. -/
theorem State.curDec_of_ver {s : State} (h : s.turn = .ver) : s.curDec = s.ver.inner := by
  simp [State.curDec, h]

theorem State.setCurDec_of_ver {s : State} (h : s.turn = .ver) (d : Dec) :
    s.setCurDec d = { s with ver := { s.ver with inner := d } } := by
  simp [State.setCurDec, h]

/-! ### State.raise for the DEC that executes -/

@[simp] theorem State.raise_dec_turn (s : State) (e : ErrCode) : (s.raise .dec e).turn = s.turn := by
  simp [State.raise]

@[simp] theorem State.raise_dec_cmp (s : State) (e : ErrCode) : (s.raise .dec e).cmp = s.cmp := by
  simp [State.raise]

@[simp] theorem State.raise_dec_freeSeed (s : State) (e : ErrCode) : (s.raise .dec e).freeSeed = s.freeSeed + 1 := rfl

@[simp] theorem State.raise_dec_curDec (s : State) (e : ErrCode) :
    (s.raise .dec e).curDec = s.curDec.afterRaise e s.freeSeed := by
  obtain ⟨t, _, _, _, _⟩ := s
  cases t <;> rfl

end Sys2Proof.Machine
end

