-- ==== Sys2Proof/Laws/Cmp.lean ====
section
/-! SUPPORT. What the operations of CMP do, once each: the appends, the flush, the byte-wise history append, the run and
the scan of the match finder, the two kinds of step. -/

namespace Sys2Proof.Machine

/-! ### Appends -/

theorem Cmp.appendCs_eq (c : Cmp) (b : Byte) (h : c.csLen < Config.csMax) :
    c.appendCs b = .ok { c with csMem := c.csMem.write c.csLen b, csLen := c.csLen + 1 } := by
  simp [Cmp.appendCs, h]

theorem Cmp.appendShadow_eq (c : Cmp) (b : Byte) (h : c.committed < c.srcLen) :
    c.appendShadow b =
      .ok { c with shadowMem := c.shadowMem.write c.committed b, committed := c.committed + 1 } := by
  simp [Cmp.appendShadow, h]

theorem Cmp.appendPend_eq (c : Cmp) (b : Byte) (h : c.pending < 16) :
    c.appendPend b = .ok { c with pendMem := c.pendMem.write c.pending b, pending := c.pending + 1 } := by
  simp [Cmp.appendPend, Config.pendMax, h]

theorem Cmp.readSrc_eq (c : Cmp) (i : Nat) (h : i < c.srcLen) : c.readSrc i = .ok (c.srcMem.read i) := by
  simp [Cmp.readSrc, h]

theorem Cmp.readShadow_eq (c : Cmp) (i : Nat) (h : i < c.committed) (h' : i < c.srcLen) :
    c.readShadow i = .ok (c.shadowMem.read i) := by
  simp [Cmp.readShadow, Nat.not_le.2 h, Nat.not_le.2 h']

theorem Cmp.readPend_eq (c : Cmp) (i : Nat) (h : i < c.pending) (h' : i < 16) :
    c.readPend i = .ok (c.pendMem.read i) := by
  simp [Cmp.readPend, Config.pendMax, Nat.not_le.2 h, Nat.not_le.2 h']

/-- Bytes appended to `CS` land one after another at `cs_len`. -/
theorem Cmp.appendCsAll_eq (bytes : List Byte) (c : Cmp) (h : c.csLen + bytes.length ≤ Config.csMax) :
    c.appendCsAll bytes =
      .ok { c with csMem := c.csMem.writeAll c.csLen bytes, csLen := c.csLen + bytes.length } := by
  induction bytes generalizing c with
  | nil => simp [Cmp.appendCsAll, Memory.writeAll]
  | cons b rest ih =>
    simp only [List.length_cons] at h
    simp only [Cmp.appendCsAll, Cmp.appendCs_eq c b (by omega)]
    rw [ih _ (by show c.csLen + 1 + rest.length ≤ Config.csMax; omega)]
    simp only [Memory.writeAll, List.length_cons, show c.csLen + 1 + rest.length = c.csLen + (rest.length + 1) from by omega]

/-! ### The flush (R202) -/

/-- The pending bytes from `PEND[j]` on. -/
def Cmp.pendBytes (c : Cmp) (j n : Nat) : List Byte := (List.range n).map (fun k => c.pendMem.read (j + k))

@[simp] theorem Cmp.pendBytes_length (c : Cmp) (j n : Nat) : (c.pendBytes j n).length = n := by simp [Cmp.pendBytes]

theorem Cmp.pendBytes_succ (c : Cmp) (j n : Nat) :
    c.pendBytes j (n + 1) = c.pendMem.read j :: c.pendBytes (j + 1) n := by
  simp only [Cmp.pendBytes, List.range_succ_eq_map, List.map_cons, List.map_map, Nat.add_zero]
  congr 1
  exact List.map_congr_left (fun k _ => by simp [show j + (k + 1) = j + 1 + k from by omega])

theorem Cmp.flushLoop_eq (n j : Nat) (c : Cmp) (hp : j + n ≤ c.pending) (h16 : c.pending ≤ 16)
    (hcs : c.csLen + n ≤ Config.csMax) (hsh : c.committed + n ≤ c.srcLen) :
    Cmp.flushLoop n j c = .ok { c with
      csMem := c.csMem.writeAll c.csLen (c.pendBytes j n)
      csLen := c.csLen + n
      shadowMem := c.shadowMem.writeAll c.committed (c.pendBytes j n)
      committed := c.committed + n } := by
  induction n generalizing j c with
  | zero => simp [Cmp.flushLoop, Cmp.pendBytes, Memory.writeAll]
  | succ n ih =>
    simp only [Cmp.flushLoop, Cmp.readPend_eq c j (by omega) (by omega), Cmp.appendCs_eq c _ (by omega : c.csLen < _)]
    rw [Cmp.appendShadow_eq _ _ (by show c.committed < c.srcLen; omega)]
    simp only
    rw [ih _ _ (by show j + 1 + n ≤ c.pending; omega) (by show c.pending ≤ 16; omega)
      (by show c.csLen + 1 + n ≤ Config.csMax; omega) (by show c.committed + 1 + n ≤ c.srcLen; omega)]
    rw [Cmp.pendBytes_succ]
    simp only [Memory.writeAll, Cmp.pendBytes, show c.csLen + 1 + n = c.csLen + (n + 1) from by omega,
      show c.committed + 1 + n = c.committed + (n + 1) from by omega]

/-- What a flush leaves (R202). -/
def Cmp.flushed (c : Cmp) : Cmp :=
  if 0 < c.pending then
    { c with
      csMem := c.csMem.writeAll c.csLen (encode (.shortLiteral c.pending) ++ c.pendBytes 0 c.pending)
      csLen := c.csLen + 1 + c.pending
      shadowMem := c.shadowMem.writeAll c.committed (c.pendBytes 0 c.pending)
      committed := c.committed + c.pending
      pendMem := []
      pending := 0 }
  else c

theorem Memory.writeAll_append (m : Memory) (a : Nat) (bs bs' : List Byte) :
    m.writeAll a (bs ++ bs') = (m.writeAll a bs).writeAll (a + bs.length) bs' := by
  induction bs generalizing m a with
  | nil => simp [Memory.writeAll]
  | cons b rest ih =>
    simp only [List.cons_append, Memory.writeAll, ih, List.length_cons,
      show a + 1 + rest.length = a + (rest.length + 1) from by omega]

/-- A flush completes when its bytes fit (R202). -/
theorem Cmp.flush_eq (c : Cmp) (h16 : c.pending ≤ 16) (hcs : c.csLen + 1 + c.pending ≤ Config.csMax)
    (hsh : c.committed + c.pending ≤ c.srcLen) : c.flush = .ok c.flushed := by
  unfold Cmp.flush Cmp.flushed
  by_cases h : 0 < c.pending
  · have hl : (encode (.shortLiteral c.pending)).length = 1 := rfl
    simp only [h, if_true]
    rw [Cmp.appendCsAll_eq _ _ (by rw [hl]; omega)]
    simp only
    rw [Cmp.flushLoop_eq c.pending 0 { c with
        csMem := c.csMem.writeAll c.csLen (encode (.shortLiteral c.pending))
        csLen := c.csLen + (encode (.shortLiteral c.pending)).length } (by show 0 + c.pending ≤ c.pending; omega) h16
      (by show c.csLen + (encode (.shortLiteral c.pending)).length + c.pending ≤ _; rw [hl]; omega) hsh]
    simp only [Memory.writeAll_append, hl, Cmp.pendBytes]
  · simp [h]

/-! ### The byte-wise history append (R208, R214) -/

/-- The loop of R208: it completes, `C` grows by `n`, and each appended byte is the byte of the history at its source
position as it stands after the loop. -/
theorem Cmp.shadowLoop_spec (n p : Nat) (c : Cmp) (hp : p < c.committed) (hn : c.committed + n ≤ c.srcLen) :
    ∃ m, Cmp.shadowLoop n p c = .ok { c with shadowMem := m, committed := c.committed + n } ∧
      (∀ i, i < c.committed ∨ c.committed + n ≤ i → m.read i = c.shadowMem.read i) ∧
      (c.shadowMem.wf → ∀ k < n, m.read (c.committed + k) = m.read (p + k)) ∧
      (c.shadowMem.wf → m.wf) ∧
      (c.shadowMem.below c.committed → m.below (c.committed + n)) := by
  induction n generalizing p c with
  | zero => exact ⟨c.shadowMem, by simp [Cmp.shadowLoop]⟩
  | succ n ih =>
    simp only [Cmp.shadowLoop, Cmp.readShadow_eq c p hp (by omega), Cmp.appendShadow_eq c _ (by omega : c.committed < _)]
    obtain ⟨m, h1, h2, h3, h4, h5⟩ :=
      ih (p + 1) { c with
          shadowMem := c.shadowMem.write c.committed (c.shadowMem.read p), committed := c.committed + 1 }
        (by show p + 1 < c.committed + 1; omega) (by show c.committed + 1 + n ≤ c.srcLen; omega)
    simp only at h1 h2 h3 h4 h5
    refine ⟨m, ?_, ?_, ?_, ?_, ?_⟩
    · rw [h1, show c.committed + 1 + n = c.committed + (n + 1) from by omega]
    · intro i hi
      rw [h2 i (by omega), Memory.read_write_other _ _ _ _ (by omega)]
    · intro hwf k hk
      cases k with
      | zero =>
        rw [h2 _ (by omega), h2 _ (by omega), Nat.add_zero, Nat.add_zero, Memory.read_write_same _ _ _ hwf,
          Memory.read_write_other _ _ _ _ (by omega)]
      | succ k =>
        have := h3 (Memory.write_wf _ _ _ hwf) k (by omega)
        rw [show c.committed + (k + 1) = c.committed + 1 + k from by omega, this,
          show p + 1 + k = p + (k + 1) from by omega]
    · exact fun hwf => h4 (Memory.write_wf _ _ _ hwf)
    · intro hb'
      exact Memory.below_mono (h5 (Memory.write_below _ _ _ _ (by omega) (Memory.below_mono hb' (by omega))))
        (by omega)

/-! ### The match finder -/

/-- `V(i)` as a plain byte (R181). -/
def Cmp.virtByte (c : Cmp) (i : Nat) : Byte :=
  if i < c.committed then c.shadowMem.read i
  else if i < c.committed + c.pending then c.pendMem.read (i - c.committed)
  else c.srcMem.read (c.cur + (i - (c.committed + c.pending)))

/-- The bounds a CMP past its header step keeps. -/
structure Cmp.Bounded (c : Cmp) : Prop where
  committed : c.committed ≤ c.srcLen
  pending : c.pending ≤ 16
  cur : c.cur ≤ c.srcLen

theorem Cmp.virt_eq (c : Cmp) (hc : c.Bounded) (p j : Nat) (hp : p < c.committed) (hj : c.cur + j < c.srcLen) :
    c.virt (p + j) = .ok (c.virtByte (p + j)) := by
  unfold Cmp.virt Cmp.virtByte
  have := hc.committed
  have := hc.pending
  split
  · exact Cmp.readShadow_eq c _ (by omega) (by omega)
  · split
    · exact Cmp.readPend_eq c _ (by omega) (by omega)
    · exact Cmp.readSrc_eq c _ (by omega)

theorem Cmp.runFrom_spec (c : Cmp) (hc : c.Bounded) (p : Nat) (hp : p < c.committed) (fuel run : Nat)
    (hf : c.cur + run + fuel ≤ c.srcLen) :
    ∃ r, c.runFrom p run fuel = .ok r ∧ run ≤ r ∧ r ≤ run + fuel ∧
      (∀ j, run ≤ j → j < r → c.virtByte (p + j) = c.srcMem.read (c.cur + j)) ∧
      (r < run + fuel → c.virtByte (p + r) ≠ c.srcMem.read (c.cur + r)) := by
  induction fuel generalizing run with
  | zero =>
    exact ⟨run, rfl, le_refl _, le_refl _, fun j h1 h2 => by omega, fun h => by omega⟩
  | succ fuel ih =>
    simp only [Cmp.runFrom, Cmp.virt_eq c hc p run hp (by omega), Cmp.readSrc_eq c (c.cur + run) (by omega)]
    by_cases hv : c.virtByte (p + run) = c.srcMem.read (c.cur + run)
    · obtain ⟨r, h1, h2, h3, h4, h5⟩ := ih (run + 1) (by omega)
      refine ⟨r, by simp [hv, h1], by omega, by omega, fun j hj1 hj2 => ?_, fun h => h5 (by omega)⟩
      by_cases hj : j = run
      · rw [hj, hv]
      · exact h4 j (by omega) hj2
    · exact ⟨run, by simp [hv], le_refl _, by omega, fun j h1 h2 => by omega, fun _ => hv⟩

/-- `Run(p)` (R184): it completes, and is the greatest length up to `maxlen` on which the history and the source
agree. -/
theorem Cmp.runAt_spec (c : Cmp) (hc : c.Bounded) (p : Nat) (hp : p < c.committed) :
    ∃ r, c.runAt p = .ok r ∧ r ≤ c.maxLen ∧
      (∀ j < r, c.virtByte (p + j) = c.srcMem.read (c.cur + j)) ∧
      (r < c.maxLen → c.virtByte (p + r) ≠ c.srcMem.read (c.cur + r)) := by
  obtain ⟨r, h1, -, h3, h4, h5⟩ := c.runFrom_spec hc p hp c.maxLen 0
    (by have := hc.cur; unfold Cmp.maxLen; omega)
  exact ⟨r, h1, by omega, fun j hj => h4 j (by omega) hj, fun h => h5 (by omega)⟩

/-- The scan of R186 over the candidates `lo .. lo + n - 1`: it completes; either no run is longer than the best so far,
or it gives the longest run, at its most recent position. -/
theorem Cmp.scan_spec (c : Cmp) (hc : c.Bounded) (lo n : Nat) (best : Option Candidate) (hn : lo + n ≤ c.committed) :
    ∃ best', c.scan lo n best = .ok best' ∧
      ((best' = best ∧ ∀ q r, lo ≤ q → q < lo + n → c.runAt q = .ok r → r ≤ bestLen best) ∨
       (∃ q r, best' = some ⟨q, r⟩ ∧ lo ≤ q ∧ q < lo + n ∧ c.runAt q = .ok r ∧ bestLen best < r ∧
         (∀ q' r', lo ≤ q' → q' < lo + n → c.runAt q' = .ok r' → r' ≤ r) ∧
         (∀ q' r', q < q' → q' < lo + n → c.runAt q' = .ok r' → r' < r))) := by
  induction n generalizing best with
  | zero => exact ⟨best, rfl, .inl ⟨rfl, fun q r h1 h2 => by omega⟩⟩
  | succ n ih =>
    obtain ⟨r0, hr0, -⟩ := c.runAt_spec hc (lo + n) (by omega)
    simp only [Cmp.scan, hr0]
    have huniq : ∀ r, c.runAt (lo + n) = .ok r → r = r0 := fun r h => by
      rw [hr0] at h; exact (Except.ok.inj h).symm
    by_cases hb : bestLen best < r0
    · simp only [hb, if_true]
      obtain ⟨best', h1, h2⟩ := ih (some ⟨lo + n, r0⟩) (by omega)
      refine ⟨best', h1, .inr ?_⟩
      rcases h2 with ⟨rfl, h2⟩ | ⟨q, r, h3, h4, h5, h6, h7, h8, h9⟩
      · refine ⟨lo + n, r0, rfl, by omega, by omega, hr0, hb, fun q' r' hq1 hq2 hq3 => ?_, fun q' r' hq1 hq2 => by omega⟩
        by_cases hq : q' = lo + n
        · subst hq; rw [huniq r' hq3]
        · exact h2 q' r' hq1 (by omega) hq3
      · simp only [bestLen] at h7
        refine ⟨q, r, h3, h4, by omega, h6, by omega, fun q' r' hq1 hq2 hq3 => ?_, fun q' r' hq1 hq2 hq3 => ?_⟩
        · by_cases hq : q' = lo + n
          · subst hq; rw [huniq r' hq3]; omega
          · exact h8 q' r' hq1 (by omega) hq3
        · by_cases hq : q' = lo + n
          · subst hq; rw [huniq r' hq3]; omega
          · exact h9 q' r' hq1 (by omega) hq3
    · simp only [hb, if_false]
      obtain ⟨best', h1, h2⟩ := ih best (by omega)
      refine ⟨best', h1, ?_⟩
      rcases h2 with ⟨rfl, h2⟩ | ⟨q, r, h3, h4, h5, h6, h7, h8, h9⟩
      · refine .inl ⟨rfl, fun q r hq1 hq2 hq3 => ?_⟩
        by_cases hq : q = lo + n
        · subst hq; rw [huniq r hq3]; omega
        · exact h2 q r hq1 (by omega) hq3
      · refine .inr ⟨q, r, h3, h4, by omega, h6, h7, fun q' r' hq1 hq2 hq3 => ?_, fun q' r' hq1 hq2 hq3 => ?_⟩
        · by_cases hq : q' = lo + n
          · subst hq; rw [huniq r' hq3]; omega
          · exact h8 q' r' hq1 (by omega) hq3
        · by_cases hq : q' = lo + n
          · subst hq; rw [huniq r' hq3]; omega
          · exact h9 q' r' hq1 (by omega) hq3

/-- `FindMatch()` (R189) completes; a match it gives is a candidate of the window with its run, its effective offset and
the form of both. -/
theorem Cmp.findMatch_spec (c : Cmp) (hc : c.Bounded) :
    ∃ found, c.findMatch = .ok found ∧ ∀ m, found = some m →
      c.windowStart ≤ m.pos ∧ m.pos < c.committed ∧ c.runAt m.pos = .ok m.len ∧ 3 ≤ m.len ∧
      m.effOff = c.effOff m.pos ∧ selectForm m.len m.effOff = some m.form := by
  have hw : c.windowStart ≤ c.committed := by unfold Cmp.windowStart; split <;> omega
  obtain ⟨best, h1, h2⟩ := c.scan_spec hc c.windowStart (c.committed - c.windowStart) none (by omega)
  refine ⟨c.usable best, by simp [Cmp.findMatch, Cmp.bestCandidate, h1], fun m hm => ?_⟩
  rcases h2 with ⟨rfl, -⟩ | ⟨q, r, rfl, h4, h5, h6, -⟩
  · simp [Cmp.usable] at hm
  · unfold Cmp.usable at hm
    simp only at hm
    split at hm
    · cases hm
    · rename_i hlen
      split at hm
      · cases hm
      · rename_i form hform
        cases hm
        exact ⟨h4, by simp only; omega, h6, Nat.not_lt.1 hlen, rfl, hform⟩

theorem Cmp.InLoop.bounded {c : Cmp} (h : c.InLoop) : c.Bounded :=
  ⟨by have := h.curHigh; have := h.curEq; omega, by have := h.pendMax; omega, h.curHigh⟩

/-- The history and the source are one sequence (R185, R215): `V(i)` is `SRC[i]`. -/
theorem Cmp.InLoop.virtByte_eq {c : Cmp} (h : c.InLoop) (i : Nat) : c.virtByte i = c.srcMem.read i := by
  unfold Cmp.virtByte
  split
  · exact h.shadow i (by omega)
  · split
    · rw [h.pend _ (by omega)]
      congr 1
      omega
    · have := h.curEq
      congr 1
      omega

/-! ### Form selection and the size of the fixed part -/

/-- A selected form carries its length and offset in an encoding (R204 to R207). -/
theorem selectForm_wf {m : Match} (hlen : 3 ≤ m.len) (h : selectForm m.len m.effOff = some m.form) :
    (matchInstr m).wf = true ∧ (matchInstr m).form = m.form ∧ (encode (matchInstr m)).length + 1 ≤ m.len := by
  obtain ⟨pos, len, effOff, form⟩ := m
  simp only at hlen h ⊢
  unfold selectForm at h
  split at h
  · rename_i hc
    simp only [Config.offScMax] at hc
    cases h
    simp [matchInstr, Instr.wf, Instr.form, inRange, encode, Config.offScMax, hc]; omega
  · split at h
    · rename_i hc
      simp only [Config.offMcEncMax] at hc
      cases h
      simp [matchInstr, Instr.wf, Instr.form, inRange, encode, Config.offMcDecMax]
      refine ⟨⟨by omega, decide_eq_true (by omega)⟩, by omega⟩
    · split at h
      · rename_i hc
        simp only [Config.offLcMax] at hc
        cases h
        simp [matchInstr, Instr.wf, Instr.form, inRange, encode, Config.offLcMax, hc]; omega
      · split at h
        · rename_i hc
          simp only [Config.extLenMax, Config.offEcMax] at hc
          cases h
          simp [matchInstr, Instr.wf, Instr.form, inRange, encode, Config.offEcMax, Config.extLenMax, hc]; omega
        · cases h

end Sys2Proof.Machine
end

