-- ==== Sys2Proof/Laws/CmpInv.lean ====
section
/-! SUPPORT. The operations of CMP keep its invariant. -/

namespace Sys2Proof.Machine

theorem Cmp.reset_inv : Cmp.reset.Inv where
  srcWf := Memory.nil_wf
  srcBelow := Memory.nil_below _
  shadowWf := Memory.nil_wf
  shadowBelow := Memory.nil_below _
  pendWf := Memory.nil_wf
  pendBelow := Memory.nil_below _
  csWf := Memory.nil_wf
  csBelow := Memory.nil_below _
  errNone := by decide
  errFailed := fun h => by cases h
  running := fun h => by cases h
  done := fun h => by cases h

theorem Cmp.unspecified_inv (draw : Nat) : (Cmp.unspecified draw).Inv where
  srcWf := Memory.free_wf _ _ _
  srcBelow := Memory.free_below _ _ _
  shadowWf := Memory.free_wf _ _ _
  shadowBelow := Memory.free_below _ _ _
  pendWf := Memory.free_wf _ _ _
  pendBelow := Memory.free_below _ _ _
  csWf := Memory.free_wf _ _ _
  csBelow := Memory.free_below _ _ _
  errNone := by simp
  errFailed := fun h => by cases h
  running := fun h => by cases h
  done := fun h => by cases h

theorem Cmp.begin_inv (c : Cmp) (draw : Nat) (hm : c.srcMem.wf) (hb : c.srcMem.below c.srcLen) :
    (c.begin draw).Inv where
  srcWf := hm
  srcBelow := hb
  shadowWf := Memory.free_wf _ _ _
  shadowBelow := Memory.free_below _ _ _
  pendWf := Memory.free_wf _ _ _
  pendBelow := Memory.free_below _ _ _
  csWf := Memory.free_wf _ _ _
  csBelow := Memory.free_below _ _ _
  errNone := by simp
  errFailed := fun h => by cases h
  running := fun _ h => by cases h
  done := fun h => by cases h

theorem Cmp.afterRaise_inv (c : Cmp) (hc : c.Inv) (h : Config.sizeMax < c.srcLen) :
    (c.afterRaise .inputTooLarge).Inv where
  srcWf := hc.srcWf
  srcBelow := hc.srcBelow
  shadowWf := hc.shadowWf
  shadowBelow := hc.shadowBelow
  pendWf := hc.pendWf
  pendBelow := hc.pendBelow
  csWf := Memory.nil_wf
  csBelow := Memory.nil_below _
  errNone := by simp
  errFailed := fun _ => ⟨rfl, h, rfl⟩
  running := fun h => by cases h
  done := fun h => by cases h

/-! ### Storage: the canonical form of the four memories of CMP -/

/-- The part of the invariant that is about the memories only. -/
structure Cmp.Stored (c : Cmp) : Prop where
  srcWf : c.srcMem.wf
  srcBelow : c.srcMem.below c.srcLen
  shadowWf : c.shadowMem.wf
  shadowBelow : c.shadowMem.below c.committed
  pendWf : c.pendMem.wf
  pendBelow : c.pendMem.below c.pending
  csWf : c.csMem.wf
  csBelow : c.csMem.below c.csLen

theorem Cmp.Inv.stored {c : Cmp} (h : c.Inv) : c.Stored :=
  ⟨h.srcWf, h.srcBelow, h.shadowWf, h.shadowBelow, h.pendWf, h.pendBelow, h.csWf, h.csBelow⟩

theorem Cmp.Stored.inv_running {c : Cmp} (h : c.Stored) (hs : c.status = .running) (he : c.err = .none)
    (hl : c.InLoop) : c.Inv :=
  { h with
    errNone := by simp [hs, he]
    errFailed := fun h => by rw [hs] at h; cases h
    running := fun _ _ => hl
    done := fun h => by rw [hs] at h; cases h }

theorem Cmp.flushed_stored {c : Cmp} (h : c.Stored) : c.flushed.Stored := by
  unfold Cmp.flushed
  split
  · exact
      { srcWf := h.srcWf
        srcBelow := h.srcBelow
        shadowWf := Memory.writeAll_wf _ _ _ h.shadowWf
        shadowBelow := Memory.writeAll_below _ _ _ _ (Memory.below_mono h.shadowBelow (Nat.le_add_right _ _)) (by simp)
        pendWf := Memory.nil_wf
        pendBelow := Memory.nil_below _
        csWf := Memory.writeAll_wf _ _ _ h.csWf
        csBelow := Memory.writeAll_below _ _ _ _ (Memory.below_mono h.csBelow (by show c.csLen ≤ c.csLen + 1 + c.pending; omega))
          (by simp [encode]; omega) }
  · exact h

theorem Cmp.flushed_fields (c : Cmp) :
    c.flushed.srcMem = c.srcMem ∧ c.flushed.srcLen = c.srcLen ∧ c.flushed.cur = c.cur ∧
    c.flushed.committed = c.committed + c.pending ∧ c.flushed.pending = 0 ∧ c.flushed.status = c.status ∧
    c.flushed.err = c.err ∧ c.flushed.headerWritten = c.headerWritten ∧
    c.flushed.csLen = c.csLen + (if 0 < c.pending then 1 + c.pending else 0) := by
  unfold Cmp.flushed
  split
  · simp; omega
  · rename_i h
    simp; omega

/-- The bytes of the source are the bytes of the history after a flush (R215). -/
theorem Cmp.flushed_shadow {c : Cmp} (hw : c.Stored) (hsh : ∀ i < c.committed, c.shadowMem.read i = c.srcMem.read i)
    (hpd : ∀ j < c.pending, c.pendMem.read j = c.srcMem.read (c.committed + j)) :
    ∀ i < c.committed + c.pending, c.flushed.shadowMem.read i = c.srcMem.read i := by
  intro i hi
  unfold Cmp.flushed
  split
  · simp only
    by_cases h : i < c.committed
    · rw [Memory.read_writeAll_outside _ _ _ _ (.inl h), hsh i h]
    · obtain ⟨k, rfl⟩ : ∃ k, i = c.committed + k := ⟨i - c.committed, by omega⟩
      rw [Memory.read_writeAll_inside _ _ _ _ hw.shadowWf (by simp; omega)]
      simp only [Cmp.pendBytes, List.getElem_map, List.getElem_range, Nat.zero_add]
      exact hpd k (by omega)
  · exact hsh i (by omega)

/-- The bytes a flush appends to `CS` (R202). -/
theorem Cmp.flushed_cs_below (c : Cmp) (i : Nat) (hi : i < c.csLen) : c.flushed.csMem.read i = c.csMem.read i := by
  unfold Cmp.flushed
  split
  · exact Memory.read_writeAll_outside _ _ _ _ (.inl hi)
  · rfl

/-- The bound on `cs_len` (R36) leaves room for one more flush and one more copy. -/
theorem csBound_room {csLen committed pending srcLen : Nat} (h1 : csLen ≤ 2 + committed + committed / 16)
    (h2 : committed + pending ≤ srcLen) (h3 : srcLen ≤ 65535) : csLen + 1 + pending ≤ 69633 := by omega

theorem Cmp.InLoop.flush_eq {c : Cmp} (h : c.InLoop) : c.flush = .ok c.flushed :=
  Cmp.flush_eq c (by have := h.pendMax; omega)
    (csBound_room h.csHigh (by have := h.curHigh; have := h.curEq; omega) h.srcMax)
    (by have := h.curHigh; have := h.curEq; omega)

/-! ### The header step -/

theorem Cmp.headerStep_spec (c : Cmp) (hc : c.Stored) (hs : c.srcLen ≤ Config.sizeMax) :
    ∃ c', c.headerStep = .ok c' ∧ c'.Stored ∧ c'.InLoop ∧ c'.srcMem = c.srcMem ∧ c'.srcLen = c.srcLen ∧
      c'.cur = 0 ∧ c'.committed = 0 ∧ c'.pending = 0 ∧ c'.csLen = 2 ∧ c'.status = c.status ∧ c'.err = c.err := by
  have hroom : 0 + 2 ≤ Config.csMax := by decide
  unfold Cmp.headerStep
  rw [Cmp.appendCsAll_eq _ _ hroom]
  have hs' : c.srcLen < 65536 := by unfold Config.sizeMax at hs; omega
  have hrw : ∀ (b0 b1 : Byte), ((Memory.writeAll [] 0 [b0, b1]).read 0 = b0) ∧ ((Memory.writeAll [] 0 [b0, b1]).read 1 = b1) := by
    intro b0 b1
    exact ⟨by simpa using Memory.read_writeAll_inside [] 0 [b0, b1] 0 Memory.nil_wf (by simp),
      by simpa using Memory.read_writeAll_inside [] 0 [b0, b1] 1 Memory.nil_wf (by simp)⟩
  refine ⟨_, rfl, ?_, ?_, rfl, rfl, rfl, rfl, rfl, rfl, rfl, rfl⟩
  · exact
      { srcWf := hc.srcWf
        srcBelow := hc.srcBelow
        shadowWf := Memory.nil_wf
        shadowBelow := Memory.nil_below _
        pendWf := Memory.nil_wf
        pendBelow := Memory.nil_below _
        csWf := Memory.writeAll_wf _ _ _ Memory.nil_wf
        csBelow := Memory.writeAll_below _ _ _ _ (Memory.nil_below _) (by simp) }
  · exact
      { headerWritten := rfl
        srcMax := hs
        curHigh := Nat.zero_le _
        curEq := rfl
        shadow := fun i h => absurd h (Nat.not_lt_zero _)
        pend := fun i h => absurd h (Nat.not_lt_zero _)
        pendMax := Nat.zero_le _
        csLow := le_refl _
        csHigh := by simp
        header0 := by
          rw [(hrw _ _).1]
          simp [bits, BitVec.ofNat, Fin.ofNat]
        header1 := by
          rw [(hrw _ _).2]
          simp }

/-! ### The literal push (R209) -/

theorem Cmp.pushLiteral_spec (c : Cmp) (hc : c.Stored) (hl : c.InLoop) (hcur : c.cur < c.srcLen) :
    ∃ c', c.pushLiteral = .ok c' ∧ c'.Stored ∧ c'.InLoop ∧ c'.srcMem = c.srcMem ∧ c'.srcLen = c.srcLen ∧
      c'.cur = c.cur + 1 ∧ c'.status = c.status ∧ c'.err = c.err := by
  have hpm := hl.pendMax
  have hce := hl.curEq
  unfold Cmp.pushLiteral
  simp only [Cmp.readSrc_eq c c.cur hcur, Cmp.appendPend_eq c _ (by omega : c.pending < 16)]
  have hst : ({ c with
      pendMem := c.pendMem.write c.pending (c.srcMem.read c.cur)
      pending := c.pending + 1
      cur := c.cur + 1 } : Cmp).Stored :=
    { hc with
      pendWf := Memory.write_wf _ _ _ hc.pendWf
      pendBelow := Memory.write_below _ _ _ _ (Nat.lt_succ_self _) (Memory.below_mono hc.pendBelow (Nat.le_succ _)) }
  have hpend : ∀ j < c.pending + 1,
      (c.pendMem.write c.pending (c.srcMem.read c.cur)).read j = c.srcMem.read (c.committed + j) := by
    intro j hj
    by_cases h : j = c.pending
    · rw [h, Memory.read_write_same _ _ _ hc.pendWf, hce]
    · rw [Memory.read_write_other _ _ _ _ h, hl.pend j (by omega)]
  by_cases hfull : c.pending + 1 = Config.pendMax
  · simp only [hfull, if_true]
    have h16 : c.pending = 15 := by simpa [Config.pendMax] using hfull
    have hch := hl.csHigh
    have hsm := hl.srcMax
    unfold Config.sizeMax at hsm
    rw [Cmp.flush_eq _ (by show (16 : Nat) ≤ 16; exact le_refl _)
      (by show c.csLen + 1 + 16 ≤ 69633; omega)
      (by show c.committed + 16 ≤ c.srcLen; omega)]
    rw [hfull] at hst hpend
    obtain ⟨f1, f2, f3, f4, f5, f6, f7, f8, f9⟩ := Cmp.flushed_fields { c with
      pendMem := c.pendMem.write c.pending (c.srcMem.read c.cur), pending := Config.pendMax, cur := c.cur + 1 }
    have f4' := f4; have f9' := f9
    simp only [Config.pendMax] at f4 f9
    refine ⟨_, rfl, Cmp.flushed_stored hst, ?_, f1, f2, f3, f6, f7⟩
    have hsh := Cmp.flushed_shadow hst hl.shadow hpend
    exact
      { headerWritten := by rw [f8]; exact hl.headerWritten
        srcMax := by rw [f2]; exact hl.srcMax
        curHigh := by rw [f2, f3]; show c.cur + 1 ≤ c.srcLen; omega
        curEq := by rw [f3, f4', f5]; simp only [Config.pendMax]; omega
        shadow := by rw [f4', f1]; exact hsh
        pend := by rw [f5]; exact fun j h => absurd h (Nat.not_lt_zero _)
        pendMax := by rw [f5]; exact Nat.zero_le _
        csLow := by rw [f9']; have := hl.csLow; show 2 ≤ c.csLen + _; omega
        csHigh := by rw [f9', f4']; simp only [Config.pendMax]; simp; omega
        header0 := by
          rw [Cmp.flushed_cs_below _ _ (by show 0 < c.csLen; have := hl.csLow; omega), f2]; exact hl.header0
        header1 := by
          rw [Cmp.flushed_cs_below _ _ (by show 1 < c.csLen; have := hl.csLow; omega), f2]; exact hl.header1 }
  · simp only [hfull, if_false]
    refine ⟨_, rfl, hst, ?_, rfl, rfl, rfl, rfl, rfl⟩
    have h16 : c.pending ≠ 15 := by simpa [Config.pendMax] using hfull
    exact
      { hl with
        curHigh := hcur
        curEq := by show c.cur + 1 = c.committed + (c.pending + 1); omega
        pend := hpend
        pendMax := by show c.pending + 1 ≤ 15; omega }

/-! ### The copy emission (R208) -/

/-- What the match finder's answer guarantees of the source (R184, R185, R188). -/
theorem Cmp.match_source {c : Cmp} (hl : c.InLoop) {m : Match} (hpos : m.pos < c.committed)
    (hrun : c.runAt m.pos = .ok m.len) :
    m.len ≤ Config.maxMatch ∧ c.cur + m.len ≤ c.srcLen ∧
      ∀ j < m.len, c.srcMem.read (m.pos + j) = c.srcMem.read (c.cur + j) := by
  obtain ⟨r, h1, h2, h3, -⟩ := c.runAt_spec hl.bounded m.pos hpos
  rw [hrun] at h1
  cases h1
  have hch := hl.curHigh
  unfold Cmp.maxLen at h2
  refine ⟨by omega, by omega, fun j hj => ?_⟩
  rw [← hl.virtByte_eq, h3 j hj]

theorem Cmp.emitCopy_spec (c : Cmp) (hc : c.Stored) (hl : c.InLoop) (m : Match) (hpos : m.pos < c.committed)
    (hrun : c.runAt m.pos = .ok m.len) (h3 : 3 ≤ m.len) (hform : selectForm m.len m.effOff = some m.form) :
    ∃ c', c.emitCopy m = .ok c' ∧ c'.Stored ∧ c'.InLoop ∧ c'.srcMem = c.srcMem ∧ c'.srcLen = c.srcLen ∧
      c'.cur = c.cur + m.len ∧ c'.committed = c.committed + c.pending + m.len ∧ c'.pending = 0 ∧
      c'.status = c.status ∧ c'.err = c.err ∧
      c'.csLen = c.flushed.csLen + (encode (matchInstr m)).length ∧
      c'.csMem = c.flushed.csMem.writeAll c.flushed.csLen (encode (matchInstr m)) := by
  obtain ⟨hmax, hsrc, hmatch⟩ := Cmp.match_source hl hpos hrun
  obtain ⟨hwf, -, hsize⟩ := selectForm_wf h3 hform
  obtain ⟨f1, f2, f3, f4, f5, f6, f7, f8, f9⟩ := c.flushed_fields
  have hst := Cmp.flushed_stored hc
  have hsh := Cmp.flushed_shadow hc hl.shadow hl.pend
  have hce := hl.curEq
  have hch := hl.csHigh
  have hsm := hl.srcMax
  have hpm := hl.pendMax
  have hcl := hl.csLow
  unfold Config.sizeMax at hsm
  have hcs : c.flushed.csLen ≤ 2 + (c.committed + c.pending) + (c.committed / 16 + 1) := by rw [f9]; split <;> omega
  unfold Cmp.emitCopy
  simp only [hl.flush_eq]
  rw [Cmp.appendCsAll_eq _ _ (by unfold Config.csMax; omega)]
  simp only
  obtain ⟨sm, s1, s2, s3, s4, s5⟩ := Cmp.shadowLoop_spec m.len m.pos { c.flushed with
      csMem := c.flushed.csMem.writeAll c.flushed.csLen (encode (matchInstr m))
      csLen := c.flushed.csLen + (encode (matchInstr m)).length }
    (by show m.pos < c.flushed.committed; rw [f4]; omega)
    (by show c.flushed.committed + m.len ≤ c.flushed.srcLen; rw [f4, f2]; omega)
  rw [s1]
  simp only at s2 s3 s4 s5
  have hread : ∀ i, i < c.committed + c.pending + m.len → sm.read i = c.srcMem.read i := by
    intro i
    induction i using Nat.strong_induction_on with
    | _ i ih =>
      intro hi
      by_cases h : i < c.committed + c.pending
      · rw [s2 i (by rw [f4]; omega), hsh i h]
      · obtain ⟨k, rfl⟩ : ∃ k, i = c.committed + c.pending + k := ⟨i - (c.committed + c.pending), by omega⟩
        have := s3 hst.shadowWf k (by omega)
        rw [f4] at this
        rw [this, ih (m.pos + k) (by omega) (by omega), hmatch k (by omega), hce]
  have hrd : ∀ i < c.csLen,
      (c.flushed.csMem.writeAll c.flushed.csLen (encode (matchInstr m))).read i = c.csMem.read i := by
    intro i hi
    rw [Memory.read_writeAll_outside _ _ _ _ (.inl (by rw [f9]; omega)), Cmp.flushed_cs_below c i hi]
  refine ⟨_, rfl, ?_, ?_, f1, f2, by simp [f3], by simp [f4], f5, f6, f7, rfl, rfl⟩
  · exact
      { srcWf := hst.srcWf
        srcBelow := hst.srcBelow
        shadowWf := s4 hst.shadowWf
        shadowBelow := s5 hst.shadowBelow
        pendWf := hst.pendWf
        pendBelow := hst.pendBelow
        csWf := Memory.writeAll_wf _ _ _ hst.csWf
        csBelow := Memory.writeAll_below _ _ _ _ (Memory.below_mono hst.csBelow (Nat.le_add_right _ _)) (le_refl _) }
  · exact
      { headerWritten := by rw [f8]; exact hl.headerWritten
        srcMax := by rw [f2]; exact hl.srcMax
        curHigh := by simp only [f3, f2]; omega
        curEq := by simp only [f3, f4, f5]; omega
        shadow := by simp only [f4, f1]; exact hread
        pend := by simp only [f5]; exact fun j h => absurd h (Nat.not_lt_zero _)
        pendMax := by simp only [f5]; exact Nat.zero_le _
        csLow := by simp only [f9]; omega
        csHigh := by
          simp only [f4]
          have h16 : c.committed / 16 ≤ (c.committed + c.pending + m.len) / 16 := Nat.div_le_div_right (by omega)
          omega
        header0 := by rw [hrd 0 (by omega)]; simp only [f2]; exact hl.header0
        header1 := by rw [hrd 1 (by omega)]; simp only [f2]; exact hl.header1 }

/-! ### One step, and the end -/

/-- `CmpStep()` (R210): it completes, moves `cur` on, and keeps the invariants of R215. -/
theorem Cmp.cmpStep_spec (c : Cmp) (hc : c.Stored) (hl : c.InLoop) (hcur : c.cur < c.srcLen) :
    ∃ c', c.cmpStep = .ok c' ∧ c'.Stored ∧ c'.InLoop ∧ c'.srcMem = c.srcMem ∧ c'.srcLen = c.srcLen ∧
      c.cur < c'.cur ∧ c'.status = c.status ∧ c'.err = c.err := by
  obtain ⟨found, hf, hm⟩ := c.findMatch_spec hl.bounded
  unfold Cmp.cmpStep
  rw [hf]
  cases found with
  | none =>
    obtain ⟨c', h1, h2, h3, h4, h5, h6, h7, h8⟩ := c.pushLiteral_spec hc hl hcur
    exact ⟨c', h1, h2, h3, h4, h5, by omega, h7, h8⟩
  | some m =>
    obtain ⟨-, m2, m3, m4, -, m6⟩ := hm m rfl
    obtain ⟨c', h1, h2, h3, h4, h5, h6, -, -, h9, h10, -⟩ := c.emitCopy_spec hc hl m m2 m3 m4 m6
    exact ⟨c', h1, h2, h3, h4, h5, by omega, h9, h10⟩

/-- The end of a call (R211). -/
theorem Cmp.finish_spec (c : Cmp) (hc : c.Stored) (hl : c.InLoop) (hcur : c.srcLen ≤ c.cur) (he : c.err = .none) :
    c.finish = .ok { c.flushed with status := .done } ∧ ({ c.flushed with status := .done } : Cmp).Inv := by
  obtain ⟨f1, f2, f3, f4, f5, f6, f7, f8, f9⟩ := c.flushed_fields
  have hst := Cmp.flushed_stored hc
  have hsh := Cmp.flushed_shadow hc hl.shadow hl.pend
  have hce := hl.curEq
  have hcu := hl.curHigh
  have hch := hl.csHigh
  have hpm := hl.pendMax
  have hcl := hl.csLow
  refine ⟨by simp [Cmp.finish, hl.flush_eq], ?_⟩
  exact
    { srcWf := hst.srcWf
      srcBelow := hst.srcBelow
      shadowWf := hst.shadowWf
      shadowBelow := hst.shadowBelow
      pendWf := hst.pendWf
      pendBelow := hst.pendBelow
      csWf := hst.csWf
      csBelow := hst.csBelow
      errNone := by simp [f7, he]
      errFailed := fun h => by cases h
      running := fun h => by cases h
      done := fun _ =>
        { srcMax := by simp only [f2]; exact hl.srcMax
          cur := by simp only [f3, f2]; omega
          committed := by simp only [f4, f2]; omega
          pending := f5
          shadow := by
            intro i hi
            simp only [f2] at hi
            simp only [f1]
            exact hsh i (by omega)
          csLow := by simp only [f9]; omega
          csHigh := by simp only [f9, f2]; split <;> omega
          header0 := by simp only [f2]; rw [Cmp.flushed_cs_below c 0 (by omega)]; exact hl.header0
          header1 := by simp only [f2]; rw [Cmp.flushed_cs_below c 1 (by omega)]; exact hl.header1 } }

/-- What one step of a CMP in a call does, once: it never faults, it raises InputTooLargeError or gives a CMP that keeps
the invariant, and nothing else of the machine changes. -/
theorem State.serveCmp_cases (s : State) (hc : s.cmp.Inv) (hr : s.cmp.status = .running) :
    (∃ c, s.serveCmp = .next { s with cmp := c } ∧ c.Inv) ∨
    (s.serveCmp = .next (s.raise .cmp .inputTooLarge) ∧ Config.sizeMax < s.cmp.srcLen) := by
  have he : s.cmp.err = .none := hc.errNone.2 (by simp [hr])
  unfold State.serveCmp
  by_cases hh : s.cmp.headerWritten = true
  · have hl := hc.running hr hh
    simp only [hh, if_true]
    by_cases hcur : s.cmp.cur < s.cmp.srcLen
    · obtain ⟨c', h1, h2, h3, -, -, -, h7, h8⟩ := s.cmp.cmpStep_spec hc.stored hl hcur
      refine .inl ⟨c', by simp [hcur, h1, outcomeOf], h2.inv_running (h7.trans hr) (h8.trans he) h3⟩
    · obtain ⟨h1, h2⟩ := s.cmp.finish_spec hc.stored hl (Nat.not_lt.1 hcur) he
      exact .inl ⟨_, by simp only [hcur, if_false, h1, outcomeOf], h2⟩
  · simp only [hh]
    by_cases hs : Config.sizeMax < s.cmp.srcLen
    · exact .inr ⟨by simp [hs], hs⟩
    · obtain ⟨c', h1, h2, h3, -, -, -, -, -, -, h10, h11⟩ := s.cmp.headerStep_spec hc.stored (Nat.not_lt.1 hs)
      exact .inl ⟨c', by simp [hs, h1, outcomeOf], h2.inv_running (h10.trans hr) (h11.trans he) h3⟩

end Sys2Proof.Machine
end

