-- ==== Sys2Proof/Laws/Decode.lean ====
section
/-! SUPPORT. The bit-field helpers are the shift-and-mask expressions of 00_scope.md R12, and the arithmetic of the
encoder's fields. -/

namespace Sys2Proof

/-- `v[hi:lo] = (v >> lo) & ((1 << (hi-lo+1)) - 1)` (R12). -/
theorem bits_eq_shift_mask (hi lo v : Nat) : bits hi lo v = (v >>> lo) &&& ((1 <<< (hi - lo + 1)) - 1) := by
  rw [bits, Nat.one_shiftLeft, Nat.and_two_pow_sub_one_eq_mod, Nat.shiftRight_eq_div_pow]

/-- `a : b = (a << width(b)) | b` (R12). -/
theorem concat_eq_shift_or (w a b : Nat) (h : b < 2 ^ w) : concat w a b = (a <<< w) ||| b := by
  rw [concat, ← Nat.shiftLeft_add_eq_or_of_lt h, Nat.shiftLeft_eq]

theorem bits_lt (hi lo v : Nat) : bits hi lo v < 2 ^ (hi - lo + 1) := Nat.mod_lt _ (Nat.two_pow_pos _)

/-- A byte made from a number below 256 holds that number. -/
theorem toNat_ofNat_byte (n : Nat) (h : n < 256) : (BitVec.ofNat 8 n).toNat = n := by
  simp [Nat.mod_eq_of_lt h]

/-- The number of bytes of an encoding is one more than the extra bytes of its form (R91). -/
theorem encode_length (i : Instr) : (encode i).length = 1 + i.form.extraBytes := by cases i <;> rfl

/-- Every opcode has a form (R101, R102). -/
theorem formOf_total (cmd : Byte) : ∃ form, formOf cmd = some form := by
  have h := cmd.isLt
  unfold formOf bits
  simp only
  split_ifs <;> first | exact ⟨_, rfl⟩ | (exfalso; omega)

/-- The form of an opcode by its range (R101). -/
theorem formOf_of_range (cmd : Byte) :
    (cmd.toNat < 64 → formOf cmd = some .shortCopy) ∧
    (64 ≤ cmd.toNat → cmd.toNat < 128 → formOf cmd = some .medCopy) ∧
    (128 ≤ cmd.toNat → cmd.toNat < 192 → formOf cmd = some .longCopy) ∧
    (192 ≤ cmd.toNat → cmd.toNat < 208 → formOf cmd = some .extCopy) ∧
    (208 ≤ cmd.toNat → cmd.toNat < 224 → formOf cmd = some .shortLiteral) ∧
    (224 ≤ cmd.toNat → formOf cmd = some .longLiteral) := by
  have h := cmd.isLt
  unfold formOf bits
  simp only
  refine ⟨fun h1 => ?_, fun h1 h2 => ?_, fun h1 h2 => ?_, fun h1 h2 => ?_, fun h1 h2 => ?_, fun h1 => ?_⟩ <;>
    (split_ifs <;> first | rfl | (exfalso; omega))

/-- `decode` of a stream whose opcode has a known form and whose extra bytes are there. -/
theorem decode_of_form (cmd : Byte) (rest : List Byte) (form : Form) (h : formOf cmd = some form)
    (hk : form.extraBytes ≤ rest.length) :
    decode (cmd :: rest) =
      .ok (decodeForm form cmd.toNat (rest.getD 0 0).toNat (rest.getD 1 0).toNat, rest.drop form.extraBytes) := by
  simp [decode, h, Nat.not_lt.2 hk]

end Sys2Proof
end

