-- ==== Sys2Proof/Laws/Dec.lean ====
section
/-! SUPPORT. What the operations of a DEC do, once each: a produced byte, a consumed byte, the copy loop, the literal
loop, the header step, the fetch. -/

namespace Sys2Proof.Machine

theorem Dec.produce_eq (d : Dec) (b : Byte) (h : d.outPtr < d.declaredSize) :
    d.produce b = .ok { d with outMem := d.outMem.write d.outPtr b, outPtr := d.outPtr + 1 } := by
  simp [Dec.produce, Dec.writeOut, h]

theorem Dec.consume_eq (d : Dec) (h : d.inPtr < d.inLen) :
    d.consume = .ok (d.inMem.read d.inPtr, { d with inPtr := d.inPtr + 1 }) := by
  simp [Dec.consume, Dec.readIn, h]

/-- A read of `OUT` that a copy makes: the sentinel below index 0, a byte of `OUT` otherwise (R62). -/
theorem Dec.readOut_eq (d : Dec) (i : Int) (h : i < d.declaredSize) :
    d.readOut i = .ok (if i < 0 then Config.sentinel else d.outMem.read i.toNat) := by
  unfold Dec.readOut
  by_cases h0 : i < 0
  · simp [h0]
  · have : i.toNat < d.declaredSize := by omega
    simp [h0, this]

/-- The copy loop (R120, R123): it never faults; `out_ptr` grows by `n`; each produced byte is the sentinel or the byte
of `OUT` at its source index as it stands after the copy; no other byte of `OUT` changes. -/
theorem Dec.copyLoop_spec (n : Nat) (src : Int) (d : Dec) (hsrc : src < d.outPtr)
    (hn : d.outPtr + n ≤ d.declaredSize) :
    ∃ m, Dec.copyLoop n src d = .ok { d with outMem := m, outPtr := d.outPtr + n } ∧
      (∀ i, i < d.outPtr ∨ d.outPtr + n ≤ i → m.read i = d.outMem.read i) ∧
      (d.outMem.wf → ∀ k < n, m.read (d.outPtr + k) =
        if src + k < 0 then Config.sentinel else m.read (src + k).toNat) ∧
      (d.outMem.wf → m.wf) ∧
      (d.outMem.below d.outPtr → m.below (d.outPtr + n)) := by
  induction n generalizing src d with
  | zero => exact ⟨d.outMem, by simp [Dec.copyLoop]⟩
  | succ n ih =>
    have hlt : d.outPtr < d.declaredSize := by omega
    simp only [Dec.copyLoop, Dec.readOut_eq d src (by omega), Dec.produce_eq d _ hlt]
    generalize hb : (if src < 0 then Config.sentinel else d.outMem.read src.toNat) = b
    obtain ⟨m, h1, h2, h3, h4, h5⟩ :=
      ih (src + 1) { d with outMem := d.outMem.write d.outPtr b, outPtr := d.outPtr + 1 }
        (by show src + 1 < ((d.outPtr + 1 : Nat) : Int); omega) (by show d.outPtr + 1 + n ≤ d.declaredSize; omega)
    simp only at h1 h2 h3 h4 h5
    refine ⟨m, ?_, ?_, ?_, ?_, ?_⟩
    · rw [h1, show d.outPtr + 1 + n = d.outPtr + (n + 1) from by omega]
    · intro i hi
      rw [h2 i (by omega), Memory.read_write_other _ _ _ _ (by omega)]
    · intro hwf k hk
      cases k with
      | zero =>
        rw [h2 _ (by omega)]
        simp only [Nat.add_zero, Nat.cast_zero, Int.add_zero]
        rw [Memory.read_write_same _ _ _ hwf, ← hb]
        split
        · rfl
        · rw [h2 _ (by omega), Memory.read_write_other _ _ _ _ (by omega)]
      | succ k =>
        have := h3 (Memory.write_wf _ _ _ hwf) k (by omega)
        rw [show d.outPtr + (k + 1) = d.outPtr + 1 + k from by omega, this]
        simp only [Nat.cast_add, Nat.cast_one, show src + 1 + (k : Int) = src + (k + 1) from by omega]
    · exact fun hwf => h4 (Memory.write_wf _ _ _ hwf)
    · intro hb'
      have := h5 (Memory.write_below _ _ _ _ (by omega) (Memory.below_mono hb' (by omega)))
      exact Memory.below_mono this (by omega)

/-- `ExecCopy` (R120): the loop with the clamped count and the source index of R120; it never faults. -/
theorem Dec.execCopy_spec (d : Dec) (length offset : Nat) :
    ∃ m, d.execCopy length offset = .ok { d with outMem := m, outPtr := d.outPtr + d.copyCount length } ∧
      (∀ i, i < d.outPtr ∨ d.outPtr + d.copyCount length ≤ i → m.read i = d.outMem.read i) ∧
      (d.outMem.wf → ∀ k < d.copyCount length, m.read (d.outPtr + k) =
        if d.copySource offset + k < 0 then Config.sentinel else m.read (d.copySource offset + k).toNat) ∧
      (d.outMem.wf → m.wf) ∧
      (d.outMem.below d.outPtr → m.below (d.outPtr + d.copyCount length)) := by
  by_cases h : d.outPtr ≤ d.declaredSize
  · exact Dec.copyLoop_spec _ _ d (by unfold Dec.copySource; omega) (by unfold Dec.copyCount; omega)
  · have h0 : d.copyCount length = 0 := by unfold Dec.copyCount; omega
    exact ⟨d.outMem, by simp [Dec.execCopy, h0, Dec.copyLoop]⟩

/-- The bytes of `IN` that a literal of `n` bytes moves (R140). -/
def Dec.inBytes (d : Dec) (n : Nat) : List Byte := (List.range n).map (fun k => d.inMem.read (d.inPtr + k))

@[simp] theorem Dec.inBytes_length (d : Dec) (n : Nat) : (d.inBytes n).length = n := by simp [Dec.inBytes]

/-- The literal loop (R140): it never faults, and moves `n` bytes of `IN` to `OUT` as one block. -/
theorem Dec.literalLoop_eq (n : Nat) (d : Dec) (hin : d.inPtr + n ≤ d.inLen) (hout : d.outPtr + n ≤ d.declaredSize) :
    Dec.literalLoop n d = .ok { d with
      outMem := d.outMem.writeAll d.outPtr (d.inBytes n)
      outPtr := d.outPtr + n
      inPtr := d.inPtr + n } := by
  induction n generalizing d with
  | zero => simp [Dec.literalLoop, Dec.inBytes, Memory.writeAll]
  | succ n ih =>
    have h1 : d.inPtr < d.inLen := by omega
    have h2 : ({ d with inPtr := d.inPtr + 1 } : Dec).outPtr < ({ d with inPtr := d.inPtr + 1 } : Dec).declaredSize := by
      show d.outPtr < d.declaredSize
      omega
    simp only [Dec.literalLoop, Dec.consume_eq d h1, Dec.produce_eq _ _ h2]
    rw [ih _ (by show d.inPtr + 1 + n ≤ d.inLen; omega) (by show d.outPtr + 1 + n ≤ d.declaredSize; omega)]
    have hb : d.inBytes (n + 1) = d.inMem.read d.inPtr ::
        (List.range n).map (fun k => d.inMem.read (d.inPtr + 1 + k)) := by
      simp only [Dec.inBytes, List.range_succ_eq_map, List.map_cons, List.map_map, Nat.add_zero]
      congr 1
      exact List.map_congr_left (fun k _ => by simp [show d.inPtr + (k + 1) = d.inPtr + 1 + k from by omega])
    rw [hb]
    simp only [Memory.writeAll, Dec.inBytes, show d.outPtr + 1 + n = d.outPtr + (n + 1) from by omega,
      show d.inPtr + 1 + n = d.inPtr + (n + 1) from by omega]

/-- `ExecLiteral` (R140): it never faults. -/
theorem Dec.execLiteral_eq (d : Dec) (length : Nat) :
    d.execLiteral length = .ok { d with
      outMem := d.outMem.writeAll d.outPtr (d.inBytes (d.literalCount length))
      outPtr := d.outPtr + d.literalCount length
      inPtr := d.inPtr + d.literalCount length } := by
  by_cases h : d.inPtr ≤ d.inLen ∧ d.outPtr ≤ d.declaredSize
  · exact Dec.literalLoop_eq _ d (by unfold Dec.literalCount; omega) (by unfold Dec.literalCount; omega)
  · have h0 : d.literalCount length = 0 := by unfold Dec.literalCount; omega
    simp [Dec.execLiteral, h0, Dec.literalLoop, Dec.inBytes, Memory.writeAll]

/-- The header step (R151). -/
theorem Dec.headerStep_eq (d : Dec) (h : 2 ≤ d.inLen) :
    d.headerStep = .ok { d with
      declaredSize := d.headerValue, inPtr := 2, outPtr := 0, outMem := [], headerRead := true } := by
  have h0 : 0 < d.inLen := by omega
  have h1 : 1 < d.inLen := by omega
  simp [Dec.headerStep, Dec.readIn, h0, h1, Dec.headerValue, Config.hdrLen]

theorem Dec.headerValue_lt (d : Dec) : d.headerValue < 65536 := by
  have h0 := (d.inMem.read 0).isLt
  have h1 := (d.inMem.read 1).isLt
  unfold Dec.headerValue concat
  omega

/-! ### The fetch -/

/-- The bytes of `IN` from `in_ptr` on, one by one. -/
theorem Dec.window_cons (d : Dec) (h : d.inPtr < d.inLen) :
    d.window = d.inMem.read d.inPtr :: ({ d with inPtr := d.inPtr + 1 } : Dec).window := by
  have : d.inLen - d.inPtr = (d.inLen - (d.inPtr + 1)) + 1 := by omega
  simp only [Dec.window, this, List.range_succ_eq_map, List.map_cons, List.map_map, Nat.add_zero]
  congr 1
  exact List.map_congr_left (fun k _ => by simp [show d.inPtr + (k + 1) = d.inPtr + 1 + k from by omega])

@[simp] theorem Dec.window_length (d : Dec) : d.window.length = d.inLen - d.inPtr := by simp [Dec.window]

theorem Dec.consumeMany_eq (k : Nat) (d : Dec) (h : d.inPtr + k ≤ d.inLen) :
    d.consumeMany k = .ok (d.window.take k, { d with inPtr := d.inPtr + k }) := by
  induction k generalizing d with
  | zero => simp [Dec.consumeMany]
  | succ k ih =>
    simp only [Dec.consumeMany, Dec.consume_eq d (by omega)]
    rw [ih _ (by show d.inPtr + 1 + k ≤ d.inLen; omega), Dec.window_cons d (by omega)]
    simp only [List.take_succ_cons, show d.inPtr + 1 + k = d.inPtr + (k + 1) from by omega]

theorem Form.extraBytes_le (form : Form) : form.extraBytes ≤ 2 := by cases form <;> decide

/-- A form reads no extra byte beyond its own. -/
theorem decodeForm_take (form : Form) (cmd : Byte) (bytes : List Byte) :
    decodeForm form cmd.toNat ((bytes.take form.extraBytes).getD 0 0).toNat
        ((bytes.take form.extraBytes).getD 1 0).toNat =
      decodeForm form cmd.toNat (bytes.getD 0 0).toNat (bytes.getD 1 0).toNat := by
  cases form <;> simp [decodeForm, Form.extraBytes]

theorem form_decodeForm (form : Form) (cmd e1 e2 : Nat) : (decodeForm form cmd e1 e2).form = form := by
  cases form <;> rfl

/-- The fetch and `decode` agree (R153): what `decode` reads from the bytes at `in_ptr` is what the step executes, with
`in_ptr` past the fixed part. -/
theorem Dec.fetch_of_decode (d : Dec) (i : Instr) (rest : List Byte) (h : decode d.window = .ok (i, rest)) :
    d.fetch = .ok (.instr i { d with inPtr := d.inPtr + (1 + i.form.extraBytes) }) := by
  by_cases hp : d.inPtr < d.inLen
  · rw [Dec.window_cons d hp] at h
    obtain ⟨form, hform⟩ := formOf_total (d.inMem.read d.inPtr)
    simp only [decode, hform] at h
    simp only [Dec.fetch, Dec.consume_eq d hp, hform]
    split at h
    · cases h
    · rename_i hk
      simp only [Dec.window_length, not_lt] at hk
      have hk' : ¬ d.inLen < d.inPtr + 1 + form.extraBytes := by omega
      simp only [hk', if_false]
      rw [Dec.consumeMany_eq _ _ (by show d.inPtr + 1 + _ ≤ d.inLen; omega)]
      simp only [Except.ok.injEq, Prod.mk.injEq] at h
      simp only [decodeForm_take]
      rw [h.1, ← h.1, form_decodeForm]
      simp only [show d.inPtr + 1 + form.extraBytes = d.inPtr + (1 + form.extraBytes) from by omega]
  · have : d.window = [] := List.eq_nil_of_length_eq_zero (by simp; omega)
    rw [this] at h
    cases h

/-- A truncated fixed part (R155): the fetch raises, with `in_ptr` past `cmd` only. -/
theorem Dec.fetch_of_truncated (d : Dec) (h : decode d.window = .error .truncated) :
    d.fetch = .ok (.raises .truncatedStream { d with inPtr := d.inPtr + 1 }) := by
  by_cases hp : d.inPtr < d.inLen
  · rw [Dec.window_cons d hp] at h
    obtain ⟨form, hform⟩ := formOf_total (d.inMem.read d.inPtr)
    simp only [decode, hform] at h
    simp only [Dec.fetch, Dec.consume_eq d hp, hform]
    split at h
    · rename_i hk
      simp only [Dec.window_length] at hk
      have hk' : d.inLen < d.inPtr + 1 + form.extraBytes := by omega
      simp [hk']
    · cases h
  · have : d.window = [] := List.eq_nil_of_length_eq_zero (by simp; omega)
    rw [this] at h
    cases h

/-! ### The meanings -/

theorem exec_copy_eq (length offset : Nat) (s : State) :
    exec (.shortCopy length offset) s = s.execCopy length offset ∧
    exec (.medCopy length offset) s = s.execCopy length offset ∧
    exec (.longCopy length offset) s = s.execCopy length offset ∧
    exec (.extCopy length offset) s = s.execCopy length offset := ⟨rfl, rfl, rfl, rfl⟩

theorem exec_literal_eq (length : Nat) (s : State) :
    exec (.shortLiteral length) s = s.execLiteral length ∧
    exec (.longLiteral length) s = s.execLiteral length := ⟨rfl, rfl⟩

/-- A copy at the level of the machine: a next state in which the DEC that executes has done `ExecCopy`. -/
theorem State.execCopy_next (s : State) (length offset : Nat) :
    ∃ d, s.curDec.execCopy length offset = .ok d ∧ s.execCopy length offset = .next (s.setCurDec d) := by
  obtain ⟨m, h, -⟩ := s.curDec.execCopy_spec length offset
  exact ⟨_, h, by simp [State.execCopy, outcomeOf, h]⟩

/-- A literal at the level of the machine. -/
theorem State.execLiteral_next (s : State) (length : Nat) :
    ∃ d, s.curDec.execLiteral length = .ok d ∧ s.execLiteral length = .next (s.setCurDec d) :=
  ⟨_, s.curDec.execLiteral_eq length, by simp [State.execLiteral, outcomeOf, s.curDec.execLiteral_eq length]⟩

end Sys2Proof.Machine
end

