-- ==== Sys2Proof/Laws/DecInv.lean ====
section
/-! SUPPORT. The operations of a DEC keep its invariant. -/

namespace Sys2Proof.Machine

theorem Dec.reset_inv : Dec.reset.Inv where
  inWf := Memory.nil_wf
  inBelow := Memory.nil_below _
  outWf := Memory.nil_wf
  outBelow := Memory.nil_below _
  errNone := by decide
  errFailed := by decide
  running := fun h => by cases h
  done := fun h => by cases h

theorem Dec.unspecified_inv (draw : Nat) : (Dec.unspecified draw).Inv where
  inWf := Memory.free_wf _ _ _
  inBelow := Memory.free_below _ _ _
  outWf := Memory.free_wf _ _ _
  outBelow := Memory.free_below _ _ _
  errNone := by simp
  errFailed := fun h => by cases h
  running := fun h => by cases h
  done := fun h => by cases h

/-- A DEC handed an input between calls. -/
theorem Dec.supplied_inv (draw : Nat) (m : Memory) (n : Nat) (hm : m.wf) (hb : m.below n) :
    ({ Dec.unspecified draw with inMem := m, inLen := n } : Dec).Inv :=
  { Dec.unspecified_inv draw with
    inWf := hm
    inBelow := hb
    errNone := by simp
    errFailed := fun h => by cases h
    running := fun h => by cases h
    done := fun h => by cases h }

theorem Dec.begin_inv (d : Dec) (draw : Nat) (hm : d.inMem.wf) (hb : d.inMem.below d.inLen) : (d.begin draw).Inv where
  inWf := hm
  inBelow := hb
  outWf := Memory.free_wf _ _ _
  outBelow := Memory.free_below _ _ _
  errNone := by simp
  errFailed := fun h => by cases h
  running := fun _ h => by cases h
  done := fun h => by cases h

/-- Raising one of DEC's two errors (R241) keeps the invariant. -/
theorem Dec.afterRaise_inv (d : Dec) (e : ErrCode) (draw : Nat) (hd : d.Inv)
    (he : e = .formatHeaderTooShort ∨ e = .truncatedStream) : (d.afterRaise e draw).Inv where
  inWf := hd.inWf
  inBelow := hd.inBelow
  outWf := Memory.free_wf _ _ _
  outBelow := Memory.free_below _ _ _
  errNone := by rcases he with rfl | rfl <;> simp
  errFailed := fun _ => he
  running := fun h => by cases h
  done := fun h => by cases h

theorem Dec.afterHalt_inv (d : Dec) (hd : d.Inv) (hr : d.status = .running) (hl : d.InLoop)
    (hend : d.outPtr = d.declaredSize ∨ d.inPtr = d.inLen) : d.afterHalt.Inv where
  inWf := hd.inWf
  inBelow := hd.inBelow
  outWf := hd.outWf
  outBelow := hd.outBelow
  errNone := by simpa using hd.errNone.2 (by simp [hr])
  errFailed := fun h => by cases h
  running := fun h => by cases h
  done := fun _ =>
    { inLoop := ⟨hl.headerRead, hl.header, hl.inPtrLow, hl.inPtrHigh, hl.outPtrHigh, hl.padAbove⟩
      ended := hend, outLen := rfl, compSize := rfl, produced := rfl, short := rfl }

/-- A DEC that stays in its call keeps the invariant when its loop facts hold again. -/
theorem Dec.Inv.of_inLoop {d d' : Dec} (hd : d.Inv) (hr : d.status = .running) (hl : d'.InLoop)
    (hin : d'.inMem = d.inMem) (hlen : d'.inLen = d.inLen) (hs : d'.status = d.status) (he : d'.err = d.err)
    (hw : d'.outMem.wf) : d'.Inv where
  inWf := by rw [hin]; exact hd.inWf
  inBelow := by rw [hin, hlen]; exact hd.inBelow
  outWf := hw
  outBelow := Memory.below_mono hl.padAbove hl.outPtrHigh
  errNone := by rw [he, hs]; exact hd.errNone
  errFailed := fun h => by rw [hs, hr] at h; cases h
  running := fun _ _ => hl
  done := fun h => by rw [hs, hr] at h; cases h

theorem Dec.headerStep_inv (d d' : Dec) (hd : d.Inv) (hr : d.status = .running) (h2 : 2 ≤ d.inLen)
    (h : d.headerStep = .ok d') : d'.Inv ∧ d'.InLoop ∧ d'.status = .running := by
  rw [Dec.headerStep_eq d h2] at h
  cases h
  have hl : ({ d with
      declaredSize := d.headerValue, inPtr := 2, outPtr := 0, outMem := [], headerRead := true } : Dec).InLoop :=
    ⟨rfl, rfl, le_refl _, h2, Nat.zero_le _, Memory.nil_below _⟩
  exact ⟨hd.of_inLoop hr hl rfl rfl rfl rfl Memory.nil_wf, hl, hr⟩

/-- A fetch moves `in_ptr` within the stream only. -/
theorem Dec.InLoop.advance {d : Dec} (hl : d.InLoop) (k : Nat) (hk : d.inPtr + k ≤ d.inLen) :
    ({ d with inPtr := d.inPtr + k } : Dec).InLoop :=
  ⟨hl.headerRead, hl.header, by have := hl.inPtrLow; show 2 ≤ d.inPtr + k; omega, hk, hl.outPtrHigh, hl.padAbove⟩

/-- A copy keeps the invariant of the DEC it runs on. -/
theorem Dec.execCopy_inv (d d' : Dec) (length offset : Nat) (hd : d.Inv) (hr : d.status = .running) (hl : d.InLoop)
    (h : d.execCopy length offset = .ok d') : d'.Inv ∧ d'.InLoop ∧ d'.status = .running := by
  obtain ⟨m, h1, -, -, h4, h5⟩ := d.execCopy_spec length offset
  rw [h1] at h
  cases h
  have hl' : ({ d with outMem := m, outPtr := d.outPtr + d.copyCount length } : Dec).InLoop :=
    ⟨hl.headerRead, hl.header, hl.inPtrLow, hl.inPtrHigh,
      by have := hl.outPtrHigh; show d.outPtr + d.copyCount length ≤ d.declaredSize; unfold Dec.copyCount; omega,
      h5 hl.padAbove⟩
  exact ⟨hd.of_inLoop hr hl' rfl rfl rfl rfl (h4 hd.outWf), hl', hr⟩

/-- A literal keeps the invariant of the DEC it runs on. -/
theorem Dec.execLiteral_inv (d d' : Dec) (length : Nat) (hd : d.Inv) (hr : d.status = .running) (hl : d.InLoop)
    (h : d.execLiteral length = .ok d') : d'.Inv ∧ d'.InLoop ∧ d'.status = .running := by
  rw [d.execLiteral_eq length] at h
  cases h
  have hl' : ({ d with
      outMem := d.outMem.writeAll d.outPtr (d.inBytes (d.literalCount length))
      outPtr := d.outPtr + d.literalCount length
      inPtr := d.inPtr + d.literalCount length } : Dec).InLoop :=
    ⟨hl.headerRead, hl.header,
      by have := hl.inPtrLow; show 2 ≤ d.inPtr + _; omega,
      by have := hl.inPtrHigh; show d.inPtr + d.literalCount length ≤ d.inLen; unfold Dec.literalCount; omega,
      by have := hl.outPtrHigh; show d.outPtr + d.literalCount length ≤ d.declaredSize; unfold Dec.literalCount; omega,
      Memory.writeAll_below _ _ _ _ (Memory.below_mono hl.padAbove (Nat.le_add_right _ _)) (by simp)⟩
  exact ⟨hd.of_inLoop hr hl' rfl rfl rfl rfl (Memory.writeAll_wf _ _ _ hd.outWf), hl', hr⟩

/-- Every instruction completes, and acts on the DEC that executes only: a copy by `ExecCopy`, a literal by
`ExecLiteral`. -/
theorem exec_next (i : Instr) (s : State) :
    ∃ d, exec i s = .next (s.setCurDec d) ∧
      ((∃ length offset, s.curDec.execCopy length offset = .ok d) ∨ (∃ length, s.curDec.execLiteral length = .ok d)) := by
  cases i with
  | shortCopy length offset =>
    obtain ⟨d, h1, h2⟩ := s.execCopy_next length offset
    exact ⟨d, h2, .inl ⟨length, offset, h1⟩⟩
  | medCopy length offset =>
    obtain ⟨d, h1, h2⟩ := s.execCopy_next length offset
    exact ⟨d, h2, .inl ⟨length, offset, h1⟩⟩
  | longCopy length offset =>
    obtain ⟨d, h1, h2⟩ := s.execCopy_next length offset
    exact ⟨d, h2, .inl ⟨length, offset, h1⟩⟩
  | extCopy length offset =>
    obtain ⟨d, h1, h2⟩ := s.execCopy_next length offset
    exact ⟨d, h2, .inl ⟨length, offset, h1⟩⟩
  | shortLiteral length =>
    obtain ⟨d, h1, h2⟩ := s.execLiteral_next length
    exact ⟨d, h2, .inr ⟨length, h1⟩⟩
  | longLiteral length =>
    obtain ⟨d, h1, h2⟩ := s.execLiteral_next length
    exact ⟨d, h2, .inr ⟨length, h1⟩⟩

/-- What `decode` can answer for a stream that is not empty: an instruction whose fixed part fits, or a truncation. -/
theorem decode_cases (cmd : Byte) (rest : List Byte) :
    (∃ i r, decode (cmd :: rest) = .ok (i, r) ∧ i.form.extraBytes ≤ rest.length ∧ r = rest.drop i.form.extraBytes) ∨
      decode (cmd :: rest) = .error .truncated := by
  have htotal : formOf cmd ≠ none := by
    have h7 := cmd.isLt
    unfold formOf bits
    simp only
    split_ifs <;> simp
    omega
  simp only [decode]
  cases hform : formOf cmd with
  | none => exact absurd hform htotal
  | some form =>
    simp only
    by_cases hk : rest.length < form.extraBytes
    · exact .inr (by simp [hk])
    · refine .inl ⟨_, _, by simp only [hk, if_false]; rfl, ?_, ?_⟩
      · rw [form_decodeForm]; omega
      · rw [form_decodeForm]

/-- The fetch of a DEC that has a byte left (R153 to R156): it gives an instruction whose fixed part fits, or raises
TruncatedStreamError; `in_ptr` has moved over the bytes consumed. -/
theorem Dec.fetch_cases (d : Dec) (h : d.inPtr < d.inLen) :
    (∃ i rest, decode d.window = .ok (i, rest) ∧ d.inPtr + (1 + i.form.extraBytes) ≤ d.inLen ∧
      d.fetch = .ok (.instr i { d with inPtr := d.inPtr + (1 + i.form.extraBytes) })) ∨
    (decode d.window = .error .truncated ∧
      d.fetch = .ok (.raises .truncatedStream { d with inPtr := d.inPtr + 1 })) := by
  have hw := d.window_cons h
  rcases decode_cases (d.inMem.read d.inPtr) ({ d with inPtr := d.inPtr + 1 } : Dec).window with ⟨i, r, h1, h2, -⟩ | h1
  · rw [← hw] at h1
    simp only [Dec.window_length] at h2
    exact .inl ⟨i, r, h1, by omega, d.fetch_of_decode i r h1⟩
  · rw [← hw] at h1
    exact .inr ⟨h1, d.fetch_of_truncated h1⟩

/-- What one step of a DEC in a call does, once: it never faults, and the DEC after it keeps the invariant; the rest of
the machine is as before but for the number of the next draw. -/
theorem State.serveDec_cases (s : State) (hd : s.curDec.Inv) (hr : s.curDec.status = .running) :
    (∃ d, s.serveDec = .next (s.setCurDec d) ∧ d.Inv) ∨
    (∃ d e, s.serveDec = .next ((s.setCurDec d).raise .dec e) ∧ d.Inv ∧
      (e = .formatHeaderTooShort ∨ e = .truncatedStream)) := by
  unfold State.serveDec
  by_cases hh : s.curDec.headerRead = true
  · have hl := hd.running hr hh
    simp only [hh, if_true]
    by_cases hc : s.curDec.outPtr < s.curDec.declaredSize ∧ s.curDec.inPtr < s.curDec.inLen
    · simp only [hc, and_self, if_true, State.instrStep]
      rcases s.curDec.fetch_cases hc.2 with ⟨i, rest, -, hk, hf⟩ | ⟨-, hf⟩
      · have hl' := hl.advance _ hk
        have hd' := hd.of_inLoop hr hl' rfl rfl rfl rfl hd.outWf
        obtain ⟨d, he, hx⟩ := exec_next i (s.setCurDec { s.curDec with inPtr := s.curDec.inPtr + (1 + i.form.extraBytes) })
        rw [State.curDec_setCurDec] at hx
        refine .inl ⟨d, by rw [hf]; simpa using he, ?_⟩
        rcases hx with ⟨l, o, hx⟩ | ⟨l, hx⟩
        · exact (Dec.execCopy_inv _ _ l o hd' hr hl' hx).1
        · exact (Dec.execLiteral_inv _ _ l hd' hr hl' hx).1
      · have hl' := hl.advance 1 (by omega)
        exact .inr ⟨_, _, by rw [hf], hd.of_inLoop hr hl' rfl rfl rfl rfl hd.outWf, .inr rfl⟩
    · refine .inl ⟨_, by simp only [hc, if_false], Dec.afterHalt_inv _ hd hr hl ?_⟩
      have := hl.outPtrHigh
      have := hl.inPtrHigh
      omega
  · simp only [hh]
    by_cases h2 : s.curDec.inLen < Config.hdrLen
    · exact .inr ⟨s.curDec, .formatHeaderTooShort, by simp [h2], hd, .inl rfl⟩
    · have h2' : 2 ≤ s.curDec.inLen := Nat.not_lt.1 h2
      refine .inl ⟨_, by simp only [h2, if_false, Dec.headerStep_eq _ h2', outcomeOf]; rfl, ?_⟩
      exact (Dec.headerStep_inv _ _ hd hr h2' (Dec.headerStep_eq _ h2')).1

end Sys2Proof.Machine
end

