-- ==== Sys2Proof/Laws/Ver.lean ====
section
/-! SUPPORT. What the comparison of VER does, and that its operations keep its invariant. -/

namespace Sys2Proof.Machine

theorem Ver.reset_inv : Ver.reset.Inv where
  origWf := Memory.nil_wf
  origBelow := Memory.nil_below _
  inner := Dec.reset_inv
  errNone := by decide
  failed := fun h => by cases h
  done := fun h => by cases h

theorem Ver.unspecified_inv (draw : Nat) : (Ver.unspecified draw).Inv where
  origWf := Memory.free_wf _ _ _
  origBelow := Memory.free_below _ _ _
  inner := Dec.unspecified_inv draw
  errNone := by simp
  failed := fun h => by cases h
  done := fun h => by cases h

theorem Ver.begin_inv (v : Ver) (draw : Nat) (hm : v.origMem.wf) (hb : v.origMem.below v.origLen)
    (hi : v.inner.inMem.wf) (hib : v.inner.inMem.below v.inner.inLen) : (v.begin draw).Inv where
  origWf := hm
  origBelow := hb
  inner := Dec.supplied_inv draw _ _ hi hib
  errNone := by simp
  failed := fun h => by cases h
  done := fun h => by cases h

/-- VER in a call, with its inner DEC replaced. -/
theorem Ver.setInner_inv (v : Ver) (d : Dec) (hv : v.Inv) (hr : v.status = .running) (hd : d.Inv) :
    ({ v with inner := d } : Ver).Inv where
  origWf := hv.origWf
  origBelow := hv.origBelow
  inner := hd
  errNone := hv.errNone
  failed := fun h => by rw [show v.status = .failed from h] at hr; cases hr
  done := fun h => by rw [show v.status = .done from h] at hr; cases hr

/-- The comparison loop (R231): it completes when both sequences are long enough, and lists the differing indices in
ascending order. -/
theorem Ver.mismatches_eq (v : Ver) (n i : Nat) (h1 : i + n ≤ v.inner.declaredSize) (h2 : i + n ≤ v.origLen) :
    v.mismatches n i =
      .ok ((List.range' i n).filter (fun k => v.inner.outMem.read k != v.origMem.read k)) := by
  induction n generalizing i with
  | zero => rfl
  | succ n ih =>
    have ho : v.inner.readOut (i : Int) = .ok (v.inner.outMem.read i) := by
      rw [Dec.readOut_eq _ _ (by omega)]
      simp
    have hr : v.readOrig i = .ok (v.origMem.read i) := by
      have : i < v.origLen := by omega
      simp [Ver.readOrig, this]
    simp only [Ver.mismatches, ho, hr, ih (i + 1) (by omega) (by omega), List.range'_succ, List.filter_cons]
    by_cases h : v.inner.outMem.read i = v.origMem.read i <;> simp [h]

theorem Ver.mismatches_all (v : Ver) (h : v.origLen ≤ v.inner.declaredSize) :
    v.mismatches v.origLen 0 = .ok v.differing := by
  rw [Ver.mismatches_eq v _ _ (by omega) (by omega), Ver.differing, List.range_eq_range']

end Sys2Proof.Machine
end

