-- ==== Sys2Proof/Laws/Step.lean ====
section
/-! SUPPORT. What a step, a run of steps and a host's call can do, once each. -/

namespace Sys2Proof.Machine

/-! ### exec over the forms of one shape -/

theorem exec_of_mem_copyForms {i : Instr} {length offset : Nat} (h : i ∈ copyForms length offset) (s : State) :
    exec i s = s.execCopy length offset := by
  simp only [copyForms, List.mem_cons, List.not_mem_nil, or_false] at h
  rcases h with rfl | rfl | rfl | rfl <;> rfl

theorem exec_of_mem_literalForms {i : Instr} {length : Nat} (h : i ∈ literalForms length) (s : State) :
    exec i s = s.execLiteral length := by
  simp only [literalForms, List.mem_cons, List.not_mem_nil, or_false] at h
  rcases h with rfl | rfl <;> rfl

/-! ### Which unit a step serves -/

theorem step_of_serving {s : State} (h : s.Serving) : step s = s.serveDec := by
  rcases h with ⟨h1, h2⟩ | ⟨h1, h2, h3⟩
  · simp [step, h1, State.statusOf, h2, State.serve]
  · simp [step, h1, State.statusOf, h2, State.serve, State.serveVer, h3]

theorem step_of_cmp {s : State} (h : s.turn = .cmp) (hr : s.cmp.status = .running) : step s = s.serveCmp := by
  simp [step, h, State.statusOf, hr, State.serve]

theorem step_of_ver {s : State} (h : s.turn = .ver) (hr : s.ver.status = .running) : step s = s.serveVer := by
  simp [step, h, State.statusOf, hr, State.serve]

/-- Nothing is served when the unit whose turn it is does not run: only the turn passes (log 2). -/
theorem step_of_not_running {s : State} (h : s.statusOf s.turn ≠ .running) :
    step s = .next { s with turn := s.nextTurn } := by
  simp [step, h]

theorem State.Serving.status {s : State} (h : s.Serving) : s.curDec.status = .running := by
  rcases h with ⟨h1, h2⟩ | ⟨h1, _, h3⟩
  · rw [State.curDec_of_dec h1]; exact h2
  · rw [State.curDec_of_ver h1]; exact h3

/-- A DEC that stays RUNNING stays served. -/
theorem State.Serving.setCurDec {s : State} (h : s.Serving) {d : Dec} (hd : d.status = .running) :
    (s.setCurDec d).Serving := by
  rcases h with ⟨h1, _⟩ | ⟨h1, h2, _⟩
  · left; rw [State.setCurDec_of_dec h1]; exact ⟨h1, hd⟩
  · right; rw [State.setCurDec_of_ver h1]; exact ⟨h1, h2, hd⟩

/-- What replacing the DEC that executes leaves alone. -/
theorem State.setCurDec_frame (s : State) (d : Dec) :
    (s.turn = .ver → (s.setCurDec d).dec = s.dec ∧ (s.setCurDec d).ver = { s.ver with inner := d }) ∧
    (s.turn ≠ .ver → (s.setCurDec d).dec = d ∧ (s.setCurDec d).ver = s.ver) := by
  obtain ⟨t, _, _, _, _⟩ := s
  cases t <;> simp [State.setCurDec]

/-! ### Runs -/

@[simp] theorem stepsTo_zero {s t : State} : StepsTo 0 s t ↔ s = t := by
  constructor
  · intro h
    cases h
    rfl
  · rintro rfl
    rfl

theorem stepsTo_succ {k : Nat} {s t : State} : StepsTo (k + 1) s t ↔ ∃ u, step s = .next u ∧ StepsTo k u t := by
  simp only [StepsTo, Host.Core.run, core]
  cases h : step s with
  | next u => simp
  | fault f => simp
  | refused r => simp

theorem StepsTo.trans {k n : Nat} {s t u : State} (h : StepsTo k s t) (h' : StepsTo n t u) : StepsTo (k + n) s u := by
  induction k generalizing s with
  | zero => rw [stepsTo_zero] at h; subst h; simpa using h'
  | succ k ih =>
    obtain ⟨v, h1, h2⟩ := stepsTo_succ.1 h
    rw [show k + 1 + n = k + n + 1 from by omega]
    exact stepsTo_succ.2 ⟨v, h1, ih h2⟩

/-! ### The host's calls -/

theorem startDecode_cases {input : List Byte} {s t : State} (h : startDecode input s = .next t) :
    s.dec.status ≠ .running ∧ t = { s with
      turn := .dec
      dec := { s.dec with inMem := Memory.ofBytes input, inLen := input.length }.begin s.freeSeed
      freeSeed := s.freeSeed + 1 } := by
  unfold startDecode at h
  split at h
  · cases h
  · cases h; exact ⟨‹_›, rfl⟩

theorem startEncode_cases {source : List Byte} {s t : State} (h : startEncode source s = .next t) :
    s.cmp.status ≠ .running ∧ t = { s with
      turn := .cmp
      cmp := { s.cmp with srcMem := Memory.ofBytes source, srcLen := source.length }.begin s.freeSeed
      freeSeed := s.freeSeed + 1 } := by
  unfold startEncode at h
  split at h
  · cases h
  · cases h; exact ⟨‹_›, rfl⟩

theorem startVerify_cases {original candidate : List Byte} {s t : State}
    (h : startVerify original candidate s = .next t) :
    s.ver.status ≠ .running ∧ t = { s with
      turn := .ver
      ver := { s.ver with
        origMem := Memory.ofBytes original
        origLen := original.length
        inner := { s.ver.inner with inMem := Memory.ofBytes candidate, inLen := candidate.length } }.begin s.freeSeed
      freeSeed := s.freeSeed + 1 } := by
  unfold startVerify at h
  split at h
  · cases h
  · cases h; exact ⟨‹_›, rfl⟩

theorem acknowledge_cases {u : Agent} {s t : State} (h : acknowledge u s = .next t) :
    (s.statusOf u = .idle ∧ t = s) ∨ ((s.statusOf u = .done ∨ s.statusOf u = .failed) ∧ t = s.toIdle u) := by
  unfold acknowledge at h
  cases hs : s.statusOf u <;> rw [hs] at h <;> cases h
  · exact .inl ⟨rfl, rfl⟩
  · exact .inr ⟨.inl rfl, rfl⟩
  · exact .inr ⟨.inr rfl, rfl⟩

end Sys2Proof.Machine
end

