-- ==== Sys2Proof/Laws/Stream.lean ====
section
/-! SUPPORT. A decode run on a stream is a run on every longer stream: what a whole instruction does when bytes follow, and
what it does to `OUT` (the steps of 44_instruction_encoder.md R215 (e)). -/

namespace Sys2Proof

/-- Decoding reads a fixed part and nothing behind it. -/
theorem decode_append {bytes rest : List Byte} {i : Instr} (h : decode bytes = .ok (i, rest)) (more : List Byte) :
    decode (bytes ++ more) = .ok (i, rest ++ more) := by
  cases bytes with
  | nil => cases h
  | cons cmd tl =>
    obtain ⟨form, hform⟩ := formOf_total cmd
    simp only [decode, hform] at h
    split at h
    · cases h
    · rename_i hk
      rw [Nat.not_lt] at hk
      cases h
      rw [List.cons_append, decode_of_form cmd (tl ++ more) form hform (by simp; omega),
        ← Machine.decodeForm_take form cmd (tl ++ more), ← Machine.decodeForm_take form cmd tl,
        List.take_append_of_le_length hk, List.drop_append_of_le_length hk]

end Sys2Proof

namespace Sys2Proof.Machine

/-- A DEC with another input. -/
def Dec.withInput (d : Dec) (m : Memory) (n : Nat) : Dec := { d with inMem := m, inLen := n }

/-- The machine with another input of DEC. -/
def State.withInput (s : State) (m : Memory) (n : Nat) : State := { s with dec := s.dec.withInput m n }

/-- `m` of length `n` starts with what DEC holds as its input. -/
structure Dec.Prefix (d : Dec) (m : Memory) (n : Nat) : Prop where
  len : d.inLen ≤ n
  read : ∀ a < d.inLen, m.read a = d.inMem.read a

theorem Dec.window_withInput {d : Dec} {m : Memory} {n : Nat} (h : d.Prefix m n) (hp : d.inPtr ≤ d.inLen) :
    ∃ more, (d.withInput m n).window = d.window ++ more := by
  refine ⟨(List.range (n - d.inLen)).map (fun k => m.read (d.inLen + k)), ?_⟩
  have hlen := h.len
  simp only [Dec.window, Dec.withInput]
  rw [show n - d.inPtr = (d.inLen - d.inPtr) + (n - d.inLen) from by omega, List.range_add, List.map_append, List.map_map]
  congr 1
  · refine List.map_congr_left fun k hk => h.read _ ?_
    rw [List.mem_range] at hk
    omega
  · refine List.map_congr_left fun k _ => ?_
    simp only [Function.comp]
    congr 1
    omega

/-! ### The instructions with another input -/

theorem Dec.copyLoop_withInput (k : Nat) (src : Int) (d : Dec) (m : Memory) (n : Nat) :
    Dec.copyLoop k src (d.withInput m n) = (Dec.copyLoop k src d).map (fun d' => d'.withInput m n) := by
  induction k generalizing src d with
  | zero => rfl
  | succ k ih =>
    simp only [Dec.copyLoop, show (d.withInput m n).readOut src = d.readOut src from rfl]
    cases d.readOut src with
    | error f => rfl
    | ok b =>
      have hp : (d.withInput m n).produce b = (d.produce b).map (fun d' => d'.withInput m n) := by
        unfold Dec.produce Dec.writeOut
        by_cases ho : d.outPtr < d.declaredSize
        · simp [ho, Dec.withInput, Except.map]
        · simp [ho, Dec.withInput, Except.map]
      simp only [hp]
      cases d.produce b with
      | error f => rfl
      | ok d' => exact ih (src + 1) d'

/-- The DEC after a whole instruction that leaves `mem` in `OUT`: `in_ptr` past the payload, `out_ptr` past the bytes. -/
def Dec.afterWhole (d : Dec) (i : Instr) (mem : Memory) : Dec :=
  { d with outMem := mem, outPtr := d.outPtr + i.length, inPtr := d.inPtr + i.payload }

/-- What a whole instruction does: the bytes it produces are its payload (a literal) or lie `distance` back (a copy), the
older bytes stay, and a longer input changes nothing. -/
structure WholeEffect (i : Instr) (s : State) (mem : Memory) : Prop where
  exec : exec i s = .next (s.setCurDec (s.curDec.afterWhole i mem))
  below : ∀ a < s.curDec.outPtr, mem.read a = s.curDec.outMem.read a
  wf : s.curDec.outMem.wf → mem.wf
  bytes : s.curDec.outMem.wf → ∀ k < i.length, mem.read (s.curDec.outPtr + k) =
    if i.distance = 0 then s.curDec.inMem.read (s.curDec.inPtr + k) else mem.read (s.curDec.outPtr + k - i.distance)
  withInput : ∀ m n, s.curDec.Prefix m n → Machine.exec i (s.setCurDec (s.curDec.withInput m n)) =
    .next (s.setCurDec ((s.curDec.afterWhole i mem).withInput m n))

theorem execCopy_whole {i : Instr} {s : State} {length offset : Nat} (hx : ∀ s, Machine.exec i s = s.execCopy length offset)
    (hl : i.length = length) (hp : i.payload = 0) (hd : i.distance = offset + 1)
    (hout : s.curDec.outPtr + i.length ≤ s.curDec.declaredSize) (hdist : i.distance ≤ s.curDec.outPtr) :
    ∃ mem, WholeEffect i s mem := by
  have hcount : s.curDec.copyCount length = length := by unfold Dec.copyCount; omega
  obtain ⟨mem, h1, h2, h3, h4, -⟩ := s.curDec.execCopy_spec length offset
  rw [hcount] at h1 h2 h3
  have hx' : ({ s.curDec with outMem := mem, outPtr := s.curDec.outPtr + length } : Dec) = s.curDec.afterWhole i mem := by
    simp [Dec.afterWhole, hl, hp]
  rw [hx'] at h1
  refine ⟨mem, ?_, fun a ha => h2 a (.inl ha), h4, fun hw k hk => ?_, fun m n _ => ?_⟩
  · rw [hx, State.execCopy, h1]; rfl
  · rw [h3 hw k (by omega), if_neg (by unfold Dec.copySource; omega), if_neg (by omega)]
    congr 1
    unfold Dec.copySource
    omega
  · have hloop := Dec.copyLoop_withInput (s.curDec.copyCount length) (s.curDec.copySource offset) s.curDec m n
    rw [show Dec.copyLoop (s.curDec.copyCount length) (s.curDec.copySource offset) s.curDec = .ok _ from h1] at hloop
    rw [hx, State.execCopy, State.curDec_setCurDec,
      show (s.curDec.withInput m n).execCopy length offset = _ from hloop]
    simp [outcomeOf, Except.map]

theorem execLiteral_whole {i : Instr} {s : State} {length : Nat} (hx : ∀ s, Machine.exec i s = s.execLiteral length)
    (hl : i.length = length) (hp : i.payload = length) (hd : i.distance = 0)
    (hin : s.curDec.inPtr + i.payload ≤ s.curDec.inLen) (hout : s.curDec.outPtr + i.length ≤ s.curDec.declaredSize) :
    ∃ mem, WholeEffect i s mem := by
  have hcount : s.curDec.literalCount length = length := by unfold Dec.literalCount; omega
  have h1 := s.curDec.execLiteral_eq length
  rw [hcount] at h1
  refine ⟨s.curDec.outMem.writeAll s.curDec.outPtr (s.curDec.inBytes length), ?_,
    fun a ha => Memory.read_writeAll_outside _ _ _ _ (.inl ha), fun hw => Memory.writeAll_wf _ _ _ hw,
    fun hw k hk => ?_, fun m n hpre => ?_⟩
  · rw [hx, State.execLiteral, h1, Dec.afterWhole, hl, hp]; rfl
  · rw [if_pos hd, Memory.read_writeAll_inside _ _ _ _ hw (by simp; omega)]
    simp [Dec.inBytes]
  · have hcount' : (s.curDec.withInput m n).literalCount length = length := by
      have := hpre.len
      simp only [Dec.literalCount, Dec.withInput]
      omega
    have hbytes : (s.curDec.withInput m n).inBytes length = s.curDec.inBytes length := by
      refine List.map_congr_left fun k hk => hpre.read _ ?_
      rw [List.mem_range] at hk
      show s.curDec.inPtr + k < _
      omega
    rw [hx, State.execLiteral, State.curDec_setCurDec, Dec.execLiteral_eq, hcount', hbytes, Dec.afterWhole, hl, hp]
    simp [outcomeOf, Dec.withInput]

theorem exec_whole (i : Instr) (s : State) (hin : s.curDec.inPtr + i.payload ≤ s.curDec.inLen)
    (hout : s.curDec.outPtr + i.length ≤ s.curDec.declaredSize) (hdist : i.distance ≤ s.curDec.outPtr) :
    ∃ mem, WholeEffect i s mem := by
  cases i with
  | shortCopy l o => exact execCopy_whole (fun _ => rfl) rfl rfl rfl hout hdist
  | medCopy l o => exact execCopy_whole (fun _ => rfl) rfl rfl rfl hout hdist
  | longCopy l o => exact execCopy_whole (fun _ => rfl) rfl rfl rfl hout hdist
  | extCopy l o => exact execCopy_whole (fun _ => rfl) rfl rfl rfl hout hdist
  | shortLiteral l => exact execLiteral_whole (fun _ => rfl) rfl rfl rfl hin hout
  | longLiteral l => exact execLiteral_whole (fun _ => rfl) rfl rfl rfl hin hout

/-! ### Runs of whole instructions with a longer input -/

theorem decode_length {bytes rest : List Byte} {i : Instr} (h : decode bytes = .ok (i, rest)) :
    bytes.length = 1 + i.form.extraBytes + rest.length := by
  cases bytes with
  | nil => cases h
  | cons cmd tl =>
    rcases decode_cases cmd tl with ⟨i', r', h', hk, rfl⟩ | h'
    · rw [h'] at h
      cases h
      simp
      omega
    · rw [h'] at h
      cases h

/-- The step at a whole instruction, in the terms of `WholeEffect`. -/
theorem step_whole {s : State} (h : s.AtInstr) {i : Instr} {rest : List Byte}
    (hd : decode s.curDec.window = .ok (i, rest)) (hp : i.payload ≤ rest.length)
    (hout : s.curDec.outPtr + i.length ≤ s.curDec.declaredSize) (hdist : i.distance ≤ s.curDec.outPtr) :
    ∃ mem, WholeEffect i (s.setCurDec { s.curDec with inPtr := s.curDec.inPtr + (1 + i.form.extraBytes) }) mem ∧
      step s = .next (s.setCurDec
        (Dec.afterWhole { s.curDec with inPtr := s.curDec.inPtr + (1 + i.form.extraBytes) } i mem)) := by
  obtain ⟨hs, h1, h2, h3⟩ := h
  have hlen := decode_length hd
  rw [Dec.window_length] at hlen
  obtain ⟨mem, hm⟩ := exec_whole i (s.setCurDec { s.curDec with inPtr := s.curDec.inPtr + (1 + i.form.extraBytes) })
    (by simp only [State.curDec_setCurDec]; omega) (by simpa using hout) (by simpa using hdist)
  refine ⟨mem, hm, ?_⟩
  have hx := hm.exec
  simp only [State.curDec_setCurDec, State.setCurDec_setCurDec] at hx
  rw [step_of_serving hs, State.serveDec, h1, if_pos rfl, if_pos ⟨h2, h3⟩, State.instrStep, Dec.fetch_of_decode _ _ _ hd]
  exact hx

/-- What a run of whole instructions of DEC leaves alone. -/
structure SameCall (s t : State) : Prop where
  turn : t.turn = .dec
  inMem : t.dec.inMem = s.dec.inMem
  inLen : t.dec.inLen = s.dec.inLen
  declaredSize : t.dec.declaredSize = s.dec.declaredSize
  headerRead : t.dec.headerRead = s.dec.headerRead
  err : t.dec.err = s.dec.err
  wf : s.dec.outMem.wf → t.dec.outMem.wf

/-- A run of whole instructions of DEC is one with every longer input too. -/
theorem WholeRun.withInput {s t : State} (h : WholeRun s t) (ht : s.turn = .dec) {m : Memory} {n : Nat}
    (hpre : s.dec.Prefix m n) : WholeRun (s.withInput m n) (t.withInput m n) ∧ SameCall s t := by
  induction h with
  | refl => exact ⟨.refl _, ht, rfl, rfl, rfl, rfl, rfl, id⟩
  | @tail t u _ hw hstep ih =>
    obtain ⟨hrun, hsame⟩ := ih
    obtain ⟨hat, i, rest, hd, hp, hout, hdist⟩ := hw
    obtain ⟨mem, hm, hx⟩ := step_whole hat hd hp hout hdist
    rw [hx] at hstep
    cases hstep
    rw [State.setCurDec_of_dec hsame.turn]
    have hcur : t.curDec = t.dec := State.curDec_of_dec hsame.turn
    have hcur' : (t.withInput m n).curDec = t.dec.withInput m n := State.curDec_of_dec (s := t.withInput m n) hsame.turn
    have hpre' : t.dec.Prefix m n :=
      ⟨by rw [hsame.inLen]; exact hpre.len, by rw [hsame.inLen, hsame.inMem]; exact hpre.read⟩
    rw [hcur] at hd hout hdist hm ⊢
    obtain ⟨hs, h1, h2, h3⟩ := hat
    rw [hcur] at h1 h2 h3
    obtain ⟨more, hmore⟩ := Dec.window_withInput hpre' (Nat.le_of_lt h3)
    have hat' : (t.withInput m n).AtInstr := by
      refine ⟨.inl ⟨hsame.turn, ?_⟩, ?_⟩
      · have := hs.status
        rw [hcur] at this
        exact this
      · rw [hcur']
        exact ⟨h1, h2, Nat.lt_of_lt_of_le h3 hpre'.len⟩
    have hd' : decode (t.withInput m n).curDec.window = .ok (i, rest ++ more) := by
      rw [hcur', hmore]
      exact decode_append hd more
    refine ⟨.tail hrun ⟨hat', i, rest ++ more, hd', by simp; omega, by rw [hcur']; exact hout, by rw [hcur']; exact hdist⟩ ?_,
      hsame.turn, hsame.inMem, hsame.inLen, hsame.declaredSize, hsame.headerRead, hsame.err, fun hw => hm.wf (by simpa using hsame.wf hw)⟩
    have hx' := hm.withInput m n (by simpa using ⟨hpre'.len, hpre'.read⟩)
    simp only [State.curDec_setCurDec, State.setCurDec_setCurDec] at hx'
    rw [step_of_serving hat'.1, State.serveDec, hat'.2.1, if_pos rfl, if_pos hat'.2.2, State.instrStep,
      Dec.fetch_of_decode _ _ _ hd', hcur']
    show exec i ((t.withInput m n).setCurDec _) = _
    rw [State.setCurDec_of_dec (s := t.withInput m n) hsame.turn]
    rw [State.setCurDec_of_dec hsame.turn, State.setCurDec_of_dec hsame.turn] at hx'
    exact hx'

/-! ### What a stream decodes to -/

/-- The state after the header step of a decode call on a stream. -/
def State.afterHeader (s : State) (stream : List Byte) : State :=
  { s with
    turn := .dec
    dec := { { s.dec with inMem := Memory.ofBytes stream, inLen := stream.length }.begin s.freeSeed with
      declaredSize := concat 8 (stream.getD 1 0).toNat (stream.getD 0 0).toNat
      inPtr := 2
      outPtr := 0
      outMem := []
      headerRead := true }
    freeSeed := s.freeSeed + 1 }

theorem step_afterHeader {stream : List Byte} (h2 : 2 ≤ stream.length) {s s1 : State}
    (h : startDecode stream s = .next s1) : step s1 = .next (s.afterHeader stream) := by
  obtain ⟨-, rfl⟩ := startDecode_cases h
  rw [step_of_serving (.inl ⟨rfl, rfl⟩), State.serveDec, State.curDec_of_dec rfl, if_neg (by simp),
    if_neg (by simp only [Dec.begin_inLen, Config.hdrLen]; omega), Dec.headerStep_eq _ h2]
  simp [outcomeOf, State.setCurDec, State.afterHeader, Dec.headerValue, Memory.read_ofBytes, Memory.unlisted,
    Config.padByte]

/-- `DecodesTo`, in the terms of the state after the header step. -/
theorem decodesTo_iff {stream out : List Byte} (h2 : 2 ≤ stream.length) :
    DecodesTo stream out ↔ ∀ s : State, s.dec.status ≠ .running → ∃ t, WholeRun (s.afterHeader stream) t ∧
      t.dec.status = .running ∧ t.dec.err = .none ∧ t.dec.inPtr = stream.length ∧
      t.dec.outMem.toBytes t.dec.outPtr = out := by
  constructor
  · intro h s hs
    obtain ⟨s1, hs1⟩ : ∃ s1, startDecode stream s = .next s1 := by
      unfold startDecode
      rw [if_neg hs]
      exact ⟨_, rfl⟩
    obtain ⟨s2, t, h1, ht⟩ := h s s1 hs1
    rw [step_afterHeader h2 hs1] at h1
    cases h1
    exact ⟨t, ht⟩
  · intro h s s1 hs
    obtain ⟨t, ht⟩ := h s (startDecode_cases hs).1
    exact ⟨_, t, step_afterHeader h2 hs, ht⟩

/-- The header alone decodes to nothing. -/
theorem decodesTo_header (b0 b1 : Byte) : DecodesTo [b0, b1] [] :=
  (decodesTo_iff (Nat.le_refl _)).2 fun _ _ => ⟨_, .refl _, rfl, rfl, rfl, rfl⟩

/-- One more whole instruction at the end of a stream appends its bytes to what the stream decodes to. -/
theorem DecodesTo.append {stream out fixed payload new : List Byte} {i : Instr} (h : DecodesTo stream out)
    (h2 : 2 ≤ stream.length) (hd : decode (fixed ++ payload) = .ok (i, payload)) (hp : payload.length = i.payload)
    (hnew : new.length = i.length) (hpos : 0 < i.length)
    (hroom : out.length + i.length ≤ concat 8 (stream.getD 1 0).toNat (stream.getD 0 0).toNat)
    (hdist : i.distance ≤ out.length)
    (hbytes : ∀ k < i.length, new.getD k 0 =
      if i.distance = 0 then payload.getD k 0 else (out ++ new).getD (out.length + k - i.distance) 0) :
    DecodesTo (stream ++ (fixed ++ payload)) (out ++ new) := by
  rw [decodesTo_iff (by simp; omega)]
  intro s hs
  obtain ⟨t, hrun, hst, herr, hptr, hout⟩ := (decodesTo_iff h2).1 h s hs
  have hoptr : t.dec.outPtr = out.length := by rw [← hout]; simp
  obtain ⟨m, hm⟩ : ∃ m, m = Memory.ofBytes (stream ++ (fixed ++ payload)) := ⟨_, rfl⟩
  obtain ⟨n, hn⟩ : ∃ n, n = (stream ++ (fixed ++ payload)).length := ⟨_, rfl⟩
  have hpre : (s.afterHeader stream).dec.Prefix m n := by
    refine ⟨by simp [State.afterHeader, hn], fun a ha => ?_⟩
    have ha' : a < stream.length := ha
    show m.read a = (Memory.ofBytes stream).read a
    rw [hm, Memory.read_ofBytes, Memory.read_ofBytes, List.getD_append _ _ _ _ ha']
  obtain ⟨hrun', hsame⟩ := hrun.withInput rfl hpre
  have hstart : (s.afterHeader stream).withInput m n = s.afterHeader (stream ++ (fixed ++ payload)) := by
    simp only [State.afterHeader, State.withInput, Dec.withInput, hm, hn, List.getD_append _ _ _ _ (show 0 < stream.length by omega),
      List.getD_append _ _ _ _ (show 1 < stream.length by omega)]
    rfl
  rw [hstart] at hrun'
  have hlen := decode_length hd
  rw [List.length_append] at hlen
  have hcur : (t.withInput m n).curDec = t.dec.withInput m n := State.curDec_of_dec (s := t.withInput m n) hsame.turn
  have hdecl : t.dec.declaredSize = concat 8 (stream.getD 1 0).toNat (stream.getD 0 0).toNat := hsame.declaredSize
  have hwin : (t.withInput m n).curDec.window = fixed ++ payload := by
    rw [hcur]
    refine List.ext_getElem (by simp [Dec.withInput, hptr, hn]) fun k h1 h2 => ?_
    simp only [Dec.window, Dec.withInput, List.getElem_map, List.getElem_range, hm, Memory.read_ofBytes, hptr]
    rw [List.getD_append_right _ _ _ _ (by omega), List.getD_eq_getElem _ _ (by omega)]
    simp
  have hat : (t.withInput m n).AtInstr := by
    refine ⟨.inl ⟨hsame.turn, hst⟩, ?_⟩
    rw [hcur]
    refine ⟨hsame.headerRead, ?_, ?_⟩
    · show t.dec.outPtr < t.dec.declaredSize
      omega
    · show t.dec.inPtr < n
      rw [hptr, hn]
      simp
      omega
  have hd' : decode (t.withInput m n).curDec.window = .ok (i, payload) := by rw [hwin]; exact hd
  have hroom' : (t.withInput m n).curDec.outPtr + i.length ≤ (t.withInput m n).curDec.declaredSize := by
    rw [hcur]
    show t.dec.outPtr + i.length ≤ t.dec.declaredSize
    omega
  have hdist' : i.distance ≤ (t.withInput m n).curDec.outPtr := by
    rw [hcur]
    show i.distance ≤ t.dec.outPtr
    omega
  obtain ⟨mem, heff, hstep⟩ := step_whole hat hd' (by omega) hroom' hdist'
  refine ⟨_, .tail hrun' ⟨hat, i, payload, hd', by omega, hroom', hdist'⟩ hstep, ?_⟩
  rw [State.setCurDec_of_dec (s := t.withInput m n) hsame.turn, hcur]
  refine ⟨hst, herr, ?_, ?_⟩
  · show t.dec.inPtr + (1 + i.form.extraBytes) + i.payload = _
    simp
    omega
  · have hw : t.dec.outMem.wf := hsame.wf Memory.nil_wf
    have hb := heff.below
    have hk := heff.bytes
    rw [hcur] at hb hk
    simp only [State.curDec_setCurDec, Dec.withInput] at hb hk
    have hk := hk hw
    have hread : ∀ a < out.length, mem.read a = out.getD a 0 := fun a ha => by
      rw [hb a (by omega), ← hout, List.getD_eq_getElem _ _ (by simp; omega), Memory.toBytes_getElem]
    have hall : ∀ a < out.length + i.length, mem.read a = (out ++ new).getD a 0 := by
      intro a
      induction a using Nat.strong_induction_on with
      | _ a ih =>
        intro ha
        by_cases hlt : a < out.length
        · rw [hread a hlt, List.getD_append _ _ _ _ hlt]
        · obtain ⟨k, rfl⟩ : ∃ k, a = out.length + k := ⟨a - out.length, by omega⟩
          have := hk k (by omega)
          rw [hoptr] at this
          rw [this, List.getD_append_right _ _ _ _ (by omega), Nat.add_sub_cancel_left, hbytes k (by omega)]
          split
          · rw [hm, Memory.read_ofBytes, hptr, List.getD_append_right _ _ _ _ (by omega),
              List.getD_append_right _ _ _ _ (by omega)]
            congr 1
            omega
          · exact ih _ (by omega) (by omega)
    show mem.toBytes (t.dec.outPtr + i.length) = _
    refine List.ext_getElem (by simp [hoptr, hnew]) fun k h1 h2 => ?_
    rw [Memory.toBytes_getElem, hall k (by simpa [hnew] using h2), List.getD_eq_getElem _ _ h2]

end Sys2Proof.Machine
end

