-- ==== Sys2Proof/Laws/Emitted.lean ====
section
/-! SUPPORT. What CMP has emitted decompresses to what it has committed (44_instruction_encoder.md R215 (e)): each operation
of CMP keeps it, given that decoding reads back what the encoder writes. -/

namespace Sys2Proof.Machine

/-- What CMP has emitted decompresses to what it has committed (R215 (e)), with what this needs of the CMP. -/
structure Cmp.Emitted (c : Cmp) : Prop where
  stored : c.Stored
  shadow : ∀ i < c.committed, c.shadowMem.read i = c.srcMem.read i
  pend : ∀ j < c.pending, c.pendMem.read j = c.srcMem.read (c.committed + j)
  pendMax : c.pending ≤ 16
  room : c.committed + c.pending ≤ c.srcLen
  srcMax : c.srcLen ≤ 65535
  csLow : 2 ≤ c.csLen
  header0 : c.csMem.read 0 = BitVec.ofNat 8 c.srcLen
  header1 : c.csMem.read 1 = BitVec.ofNat 8 (c.srcLen / 256)
  decodes : DecodesTo (c.csMem.toBytes c.csLen) (c.srcMem.toBytes c.committed)

/-- The header of an emitted stream declares the source length (R200). -/
theorem Cmp.Emitted.header {c : Cmp} (h : c.Emitted) : concat 8 ((c.csMem.toBytes c.csLen).getD 1 0).toNat
    ((c.csMem.toBytes c.csLen).getD 0 0).toNat = c.srcLen := by
  have h2 := h.csLow
  have h3 := h.srcMax
  rw [List.getD_eq_getElem _ _ (by simp; omega), List.getD_eq_getElem _ _ (by simp; omega),
    Memory.toBytes_getElem, Memory.toBytes_getElem,
    h.header0, h.header1, toNat_ofNat_byte _ (by omega)]
  simp [concat]
  omega

/-- Every instruction the encoder writes reads back: a hypothesis here, and an obligation of its own
(DecodeOfEncodeIsIdentity). -/
abbrev CodecAgrees : Prop := ∀ (i : Instr) (rest : List Byte), i.wf = true → decode (encode i ++ rest) = .ok (i, rest)

/-- A flush keeps R215 (e). -/
theorem Cmp.Emitted.flushed {c : Cmp} (hcodec : CodecAgrees) (h : c.Emitted) : c.flushed.Emitted := by
  obtain ⟨f1, f2, f3, f4, f5, f6, f7, f8, f9⟩ := c.flushed_fields
  have hsh := Cmp.flushed_shadow h.stored h.shadow h.pend
  have hcl := h.csLow
  refine
    { stored := Cmp.flushed_stored h.stored
      shadow := by rw [f4, f1]; exact hsh
      pend := by rw [f5]; exact fun j h => absurd h (Nat.not_lt_zero _)
      pendMax := by rw [f5]; exact Nat.zero_le _
      room := by rw [f4, f5, f2]; exact h.room
      srcMax := by rw [f2]; exact h.srcMax
      csLow := by rw [f9]; omega
      header0 := by rw [Cmp.flushed_cs_below c 0 (by omega), f2]; exact h.header0
      header1 := by rw [Cmp.flushed_cs_below c 1 (by omega), f2]; exact h.header1
      decodes := ?_ }
  by_cases hp : 0 < c.pending
  · have hb : c.pendBytes 0 c.pending = (List.range c.pending).map (fun j => c.srcMem.read (c.committed + j)) := by
      refine List.map_congr_left fun k hk => ?_
      rw [Nat.zero_add]
      exact h.pend k (List.mem_range.1 hk)
    have hcs : c.flushed.csMem.toBytes c.flushed.csLen =
        c.csMem.toBytes c.csLen ++ (encode (.shortLiteral c.pending) ++ c.pendBytes 0 c.pending) := by
      rw [← Memory.toBytes_writeAll _ _ _ h.stored.csWf]
      simp only [Cmp.flushed, if_pos hp]
      congr 1
      simp [encode]
      omega
    rw [hcs, f1, f4, Memory.toBytes_add, ← hb]
    have hpm := h.pendMax
    refine h.decodes.append (by simpa using hcl) (hcodec (.shortLiteral c.pending) _ ?_) (by simp [Instr.payload]) (by simp [Instr.length]) hp ?_
      (Nat.zero_le _) fun k hk => by simp [Instr.distance]
    · simp [Instr.wf, inRange]; omega
    · rw [h.header]; simpa [Instr.length] using h.room
  · have : c.flushed = c := by rw [Cmp.flushed, if_neg hp]
    rw [this]
    exact h.decodes

/-- The operands of the copy that carries a match (R205 to R207). -/
theorem matchInstr_fields {m : Match} (hlen : 3 ≤ m.len) (h : selectForm m.len m.effOff = some m.form) :
    (matchInstr m).length = m.len ∧ (matchInstr m).payload = 0 ∧ (matchInstr m).distance = m.effOff + 1 := by
  obtain ⟨pos, len, effOff, form⟩ := m
  unfold selectForm at h
  simp only at h
  split at h
  · cases h; exact ⟨rfl, rfl, rfl⟩
  · split at h
    · cases h; exact ⟨rfl, rfl, rfl⟩
    · split at h
      · cases h; exact ⟨rfl, rfl, rfl⟩
      · split at h
        · cases h; exact ⟨rfl, rfl, rfl⟩
        · cases h

/-- The invariant of a step boundary has all that R215 (e) needs. -/
theorem Cmp.InLoop.emitted {c : Cmp} (h : c.InLoop) (hs : c.Stored)
    (hd : DecodesTo (c.csMem.toBytes c.csLen) (c.srcMem.toBytes c.committed)) : c.Emitted where
  stored := hs
  shadow := h.shadow
  pend := h.pend
  pendMax := Nat.le_trans h.pendMax (by decide)
  room := by have := h.curEq; have := h.curHigh; omega
  srcMax := h.srcMax
  csLow := h.csLow
  header0 := h.header0
  header1 := h.header1
  decodes := hd

/-- A literal push keeps R215 (e). -/
theorem Cmp.pushLiteral_decodes (hcodec : CodecAgrees) {c c' : Cmp} (hl : c.InLoop) (he : c.Emitted) (hcur : c.cur < c.srcLen)
    (h : c.pushLiteral = .ok c') : DecodesTo (c'.csMem.toBytes c'.csLen) (c'.srcMem.toBytes c'.committed) := by
  have hpm := hl.pendMax
  have hce := hl.curEq
  have hch := hl.csHigh
  have hsm := hl.srcMax
  unfold Config.sizeMax at hsm
  have hpush : ({ c with
      pendMem := c.pendMem.write c.pending (c.srcMem.read c.cur), pending := c.pending + 1, cur := c.cur + 1 } : Cmp).Emitted :=
    { he with
      stored := { he.stored with
        pendWf := Memory.write_wf _ _ _ he.stored.pendWf
        pendBelow := Memory.write_below _ _ _ _ (Nat.lt_succ_self _) (Memory.below_mono he.stored.pendBelow (Nat.le_succ _)) }
      pend := by
        intro j hj
        by_cases h : j = c.pending
        · rw [h, Memory.read_write_same _ _ _ he.stored.pendWf, hce]
        · rw [Memory.read_write_other _ _ _ _ h]
          exact hl.pend j (by simp only at hj; omega)
      pendMax := by show c.pending + 1 ≤ 16; omega
      room := by show c.committed + (c.pending + 1) ≤ c.srcLen; omega }
  unfold Cmp.pushLiteral at h
  simp only [Cmp.readSrc_eq c c.cur hcur, Cmp.appendPend_eq c _ (by omega : c.pending < 16)] at h
  split at h
  · rw [Cmp.flush_eq _ hpush.pendMax (by show c.csLen + 1 + (c.pending + 1) ≤ 69633; omega) hpush.room] at h
    cases h
    exact (hpush.flushed hcodec).decodes
  · cases h
    exact hpush.decodes

/-- A copy emission keeps R215 (e). -/
theorem Cmp.emitCopy_decodes (hcodec : CodecAgrees) {c c' : Cmp} (hl : c.InLoop) (he : c.Emitted) {m : Match} (hpos : m.pos < c.committed)
    (hrun : c.runAt m.pos = .ok m.len) (h3 : 3 ≤ m.len) (hoff : m.effOff = c.effOff m.pos)
    (hform : selectForm m.len m.effOff = some m.form)
    (h : c.emitCopy m = .ok c') : DecodesTo (c'.csMem.toBytes c'.csLen) (c'.srcMem.toBytes c'.committed) := by
  obtain ⟨d, h1, -, -, g1, g2, -, g4, -, -, -, g5, g6⟩ := c.emitCopy_spec he.stored hl m hpos hrun h3 hform
  rw [h] at h1
  cases h1
  obtain ⟨hmax, hsrc, hmatch⟩ := Cmp.match_source hl hpos hrun
  obtain ⟨hwf, -, -⟩ := selectForm_wf h3 hform
  obtain ⟨l1, l2, l3⟩ := matchInstr_fields h3 hform
  obtain ⟨f1, f2, f3, f4, f5, f6, f7, f8, f9⟩ := c.flushed_fields
  have hf := he.flushed hcodec
  have hce := hl.curEq
  have hdist : m.effOff + 1 = c.committed + c.pending - m.pos := by rw [hoff]; unfold Cmp.effOff; omega
  rw [g6, g5, Memory.toBytes_writeAll _ _ _ hf.stored.csWf, g1, g4, Memory.toBytes_add, ← f4, ← f1]
  have := hf.decodes.append (fixed := encode (matchInstr m)) (payload := [])
    (new := (List.range m.len).map (fun j => c.flushed.srcMem.read (c.flushed.committed + j))) (i := matchInstr m)
    (by simpa using hf.csLow) (hcodec _ _ hwf) (by simp [l2]) (by simp [l1]) (by omega)
    (by rw [hf.header]; simp; omega) (by simp; omega) (fun k hk => by
      rw [l3, if_neg (by omega), ← Memory.toBytes_add, List.getD_eq_getElem _ _ (by simp; omega), List.getD_eq_getElem _ _ (by simp; omega),
        Memory.toBytes_getElem]
      simp only [List.getElem_map, List.getElem_range, Memory.toBytes_length]
      rw [f1, f4, show c.committed + c.pending + k - (m.effOff + 1) = m.pos + k from by omega, hmatch k (by omega), hce])
  simpa using this

/-- The header step leaves the two header bytes in `CS`, which decompress to nothing. -/
theorem Cmp.headerStep_decodes {c c' : Cmp} (h : c.headerStep = .ok c') :
    DecodesTo (c'.csMem.toBytes c'.csLen) (c'.srcMem.toBytes c'.committed) := by
  have hroom : 0 + 2 ≤ Config.csMax := by decide
  unfold Cmp.headerStep at h
  rw [Cmp.appendCsAll_eq _ _ hroom] at h
  cases h
  have := Memory.toBytes_writeAll [] 0 [BitVec.ofNat 8 (bits 7 0 c.srcLen), BitVec.ofNat 8 (c.srcLen / 2 ^ 8)] Memory.nil_wf
  simp only [List.length_cons, List.length_nil] at this ⊢
  rw [this]
  exact decodesTo_header _ _

/-- `CmpStep()` keeps R215 (e). -/
theorem Cmp.cmpStep_decodes (hcodec : CodecAgrees) {c c' : Cmp} (hl : c.InLoop) (he : c.Emitted) (hcur : c.cur < c.srcLen)
    (h : c.cmpStep = .ok c') : DecodesTo (c'.csMem.toBytes c'.csLen) (c'.srcMem.toBytes c'.committed) := by
  obtain ⟨found, hf, hm⟩ := c.findMatch_spec hl.bounded
  unfold Cmp.cmpStep at h
  rw [hf] at h
  cases found with
  | none => exact Cmp.pushLiteral_decodes hcodec hl he hcur h
  | some m =>
    obtain ⟨-, h2, h3, h4, h5, h6⟩ := hm m rfl
    exact Cmp.emitCopy_decodes hcodec hl he h2 h3 h4 h5 h6 h

/-- One step of a CMP in a call keeps R215 (e). -/
theorem State.serveCmp_decodes (hcodec : CodecAgrees) {s t : State} (hs : s.cmp.Inv) (hr : s.cmp.status = .running)
    (he : s.StreamInv) (h : s.serveCmp = .next t) : t.StreamInv := by
  unfold State.serveCmp at h
  split at h
  · rename_i hh
    have hl := hs.running hr hh
    have hdec := he (.inl ⟨hr, hh⟩)
    rw [Memory.toBytes_congr hl.shadow] at hdec
    have hem := hl.emitted hs.stored hdec
    split at h
    · rename_i hcur
      obtain ⟨c', h1, -, h3, -⟩ := s.cmp.cmpStep_spec hs.stored hl hcur
      rw [h1] at h
      cases h
      intro _
      show DecodesTo (c'.csMem.toBytes c'.csLen) (c'.shadowMem.toBytes c'.committed)
      rw [Memory.toBytes_congr h3.shadow]
      exact Cmp.cmpStep_decodes hcodec hl hem hcur h1
    · rw [Cmp.finish, hl.flush_eq] at h
      cases h
      intro _
      have hfl := hem.flushed hcodec
      show DecodesTo (s.cmp.flushed.csMem.toBytes s.cmp.flushed.csLen) (s.cmp.flushed.shadowMem.toBytes s.cmp.flushed.committed)
      rw [Memory.toBytes_congr hfl.shadow]
      exact hfl.decodes
  · split at h
    · cases h
      rintro (⟨h, -⟩ | h) <;> cases h
    · rename_i hsz
      obtain ⟨c', h1, -, h3, -⟩ := s.cmp.headerStep_spec hs.stored (Nat.not_lt.1 hsz)
      rw [h1] at h
      cases h
      intro _
      show DecodesTo (c'.csMem.toBytes c'.csLen) (c'.shadowMem.toBytes c'.committed)
      rw [Memory.toBytes_congr h3.shadow]
      exact Cmp.headerStep_decodes h1

end Sys2Proof.Machine
end

