-- ==== Sys2Proof/Laws/PerInstr.lean ====
section
/-! SUPPORT. Per-instruction lemmas about the syntax: the first byte of an encoding is an opcode of the instruction's form,
and the encoding has the length of its fixed part (30_encoding.md R91, R93, R101). -/

namespace Sys2Proof.Laws

/-- The encoding of a well-formed instruction starts with an opcode of its form and is as long as its fixed part. -/
def EncodedForm.Statement (i : Instr) : Prop :=
  i.wf = true → ∃ cmd extra, encode i = cmd :: extra ∧ formOf cmd = some i.form ∧ extra.length = i.form.extraBytes

theorem EncodedForm.shortCopy (length offset : Nat) : EncodedForm.Statement (.shortCopy length offset) := by
  intro h
  simp only [Instr.wf, inRange, Bool.and_eq_true, decide_eq_true_eq] at h
  simp only [Config.offScMax] at h
  refine ⟨_, _, rfl, (formOf_of_range _).1 ?_, rfl⟩
  rw [toNat_ofNat_byte _ (by unfold concat; omega)]
  unfold concat
  omega

theorem EncodedForm.medCopy (length offset : Nat) : EncodedForm.Statement (.medCopy length offset) := by
  intro h
  simp only [Instr.wf, inRange, Bool.and_eq_true, decide_eq_true_eq] at h
  simp only [Config.offMcDecMax] at h
  refine ⟨_, _, rfl, (formOf_of_range _).2.1 ?_ ?_, rfl⟩ <;>
    (rw [toNat_ofNat_byte _ (by unfold concat; omega)]; unfold concat; omega)

theorem EncodedForm.longCopy (length offset : Nat) : EncodedForm.Statement (.longCopy length offset) := by
  intro h
  simp only [Instr.wf, inRange, Bool.and_eq_true, decide_eq_true_eq] at h
  simp only [Config.offLcMax] at h
  refine ⟨_, _, rfl, (formOf_of_range _).2.2.1 ?_ ?_, rfl⟩ <;>
    (rw [toNat_ofNat_byte _ (by unfold concat; omega)]; unfold concat; omega)

theorem EncodedForm.extCopy (length offset : Nat) : EncodedForm.Statement (.extCopy length offset) := by
  intro h
  simp only [Instr.wf, inRange, Bool.and_eq_true, decide_eq_true_eq] at h
  simp only [Config.extLenMax, Config.offEcMax] at h
  refine ⟨_, _, rfl, (formOf_of_range _).2.2.2.1 ?_ ?_, rfl⟩ <;>
    (rw [toNat_ofNat_byte _ (by unfold concat; omega)]; unfold concat; omega)

theorem EncodedForm.shortLiteral (length : Nat) : EncodedForm.Statement (.shortLiteral length) := by
  intro h
  simp only [Instr.wf, inRange, Bool.and_eq_true, decide_eq_true_eq] at h
  refine ⟨_, _, rfl, (formOf_of_range _).2.2.2.2.1 ?_ ?_, rfl⟩ <;>
    (rw [toNat_ofNat_byte _ (by unfold concat; omega)]; unfold concat; omega)

theorem EncodedForm.longLiteral (length : Nat) : EncodedForm.Statement (.longLiteral length) := by
  intro h
  simp only [Instr.wf, inRange, Bool.and_eq_true, decide_eq_true_eq] at h
  simp only [Config.llLenMax] at h
  refine ⟨_, _, rfl, (formOf_of_range _).2.2.2.2.2 ?_, rfl⟩
  rw [toNat_ofNat_byte _ (by unfold concat; omega)]
  unfold concat
  omega

end Sys2Proof.Laws
end

