-- ==== Sys2Proof/Tests/Slice0.lean ====
section
/-! SUPPORT. The model's own tests. Expected results are the spec's (95_test_vectors.md, by the vector named in each
comment) or written by hand from a rule. The last part holds, for every obligation with hypotheses, a witness that meets
them together, one per clause where a statement has several. -/

namespace Sys2Proof.Tests

open Sys2Proof Sys2Proof.Machine

/-! ### Small states -/

/-- The next state of an outcome has a property. -/
def check (o : Host.Outcome State Fault Refusal) (p : State → Bool) : Bool :=
  match o with
  | .next s => p s
  | .fault _ => false
  | .refused _ => false

/-- Bytes written as numbers. -/
def bs (l : List Nat) : List Byte := l.map (BitVec.ofNat 8)

/-- A DEC in a call on a stream whose header declares `declared` (below 256), at `inPtr`, with `out` produced. -/
def decAt (declared : Nat) (body : List Nat) (inPtr : Nat) (out : List Nat) : Dec :=
  { Dec.reset with
    inMem := Memory.ofBytes (bs (declared :: 0 :: body))
    inLen := body.length + 2
    declaredSize := declared
    inPtr := inPtr
    outPtr := out.length
    outMem := Memory.ofBytes (bs out)
    status := .running
    headerRead := true }

/-- A DEC that begins a call on a stream. -/
def decBegin (stream : List Nat) : Dec :=
  { Dec.reset with inMem := Memory.ofBytes (bs stream), inLen := stream.length, status := .running }

/-- That DEC as the machine's DEC, on its turn. -/
def onDec (d : Dec) : State := { State.reset with dec := d }

/-- That DEC as VER's inner DEC, on VER's turn. -/
def onVer (d : Dec) : State := { State.reset with turn := .ver, ver := { Ver.reset with inner := d, status := .running } }

/-- A CMP in a call on `src`, with `committed` bytes in `SHADOW`, `pending` bytes in `PEND` and `cs` emitted. -/
def cmpAt (src : List Nat) (committed pending : Nat) (cs : List Nat) : Cmp :=
  { Cmp.reset with
    srcMem := Memory.ofBytes (bs src)
    srcLen := src.length
    cur := committed + pending
    shadowMem := Memory.ofBytes (bs (src.take committed))
    committed := committed
    pendMem := Memory.ofBytes (bs ((src.drop committed).take pending))
    pending := pending
    csMem := Memory.ofBytes (bs cs)
    csLen := cs.length
    status := .running
    headerWritten := true }

/-- That CMP in the machine, on its turn. -/
def onCmp (c : Cmp) : State := { State.reset with turn := .cmp, cmp := c }

/-- The bytes of `OUT` of the DEC that executes. -/
def out (s : State) : List Byte := s.curDec.outMem.toBytes s.curDec.declaredSize

/-! ### WellFormed: an ill-formed term for each bound (30_encoding.md R100) -/

theorem test_shortCopy_bounds :
    (Instr.shortCopy 2 0).wf = false ∧ (Instr.shortCopy 7 0).wf = false ∧ (Instr.shortCopy 3 16).wf = false ∧
    (Instr.shortCopy 3 0).wf = true ∧ (Instr.shortCopy 6 15).wf = true := by decide

theorem test_medCopy_bounds :
    (Instr.medCopy 2 0).wf = false ∧ (Instr.medCopy 7 0).wf = false ∧ (Instr.medCopy 3 4096).wf = false ∧
    (Instr.medCopy 3 0).wf = true ∧ (Instr.medCopy 6 4095).wf = true := by decide

theorem test_longCopy_bounds :
    (Instr.longCopy 6 0).wf = false ∧ (Instr.longCopy 23 0).wf = false ∧ (Instr.longCopy 7 1024).wf = false ∧
    (Instr.longCopy 7 0).wf = true ∧ (Instr.longCopy 22 1023).wf = true := by decide

theorem test_extCopy_bounds :
    (Instr.extCopy 6 0).wf = false ∧ (Instr.extCopy 263 0).wf = false ∧ (Instr.extCopy 7 4096).wf = false ∧
    (Instr.extCopy 7 0).wf = true ∧ (Instr.extCopy 262 4095).wf = true := by decide

theorem test_shortLiteral_bounds :
    (Instr.shortLiteral 0).wf = false ∧ (Instr.shortLiteral 17).wf = false ∧
    (Instr.shortLiteral 1).wf = true ∧ (Instr.shortLiteral 16).wf = true := by decide

theorem test_longLiteral_bounds :
    (Instr.longLiteral 16).wf = false ∧ (Instr.longLiteral 1041).wf = false ∧
    (Instr.longLiteral 17).wf = true ∧ (Instr.longLiteral 1040).wf = true := by decide

/-! ### Decode (vectors T1, written bit by bit from 30_encoding.md R94 to R99) -/

theorem test_decode_shortCopy :
    decode [0b00000000] = .ok (.shortCopy 3 0, []) ∧ decode [0b00001101] = .ok (.shortCopy 4 3, []) ∧
    decode [0b00111111] = .ok (.shortCopy 6 15, []) := by decide

theorem test_decode_medCopy :
    decode [0b01000011, 0b00010000] = .ok (.medCopy 6 16, []) ∧
    decode [0b01001100, 0b11111111] = .ok (.medCopy 3 1023, []) ∧
    decode [0b01111111, 0b11111111] = .ok (.medCopy 6 4095, []) := by decide

theorem test_decode_longCopy :
    decode [0b10000100, 0b00000011] = .ok (.longCopy 8 3, []) ∧
    decode [0b10000011, 0b11111111] = .ok (.longCopy 7 1023, []) ∧
    decode [0b10111100, 0b00000000] = .ok (.longCopy 22 0, []) := by decide

theorem test_decode_extCopy :
    decode [0b11000000, 0b00010000, 0b00000011] = .ok (.extCopy 8 3, []) ∧
    decode [0b11001000, 0b10000101, 0b00110100] = .ok (.extCopy 143 1332, []) ∧
    decode [0b11001111, 0b11110000, 0b00000000] = .ok (.extCopy 262 0, []) := by decide

theorem test_decode_shortLiteral :
    decode [0b11010000] = .ok (.shortLiteral 1, []) ∧ decode [0b11011111] = .ok (.shortLiteral 16, []) := by decide

theorem test_decode_longLiteral :
    decode [0b11100000, 0b11101111] = .ok (.longLiteral 256, []) ∧
    decode [0b11100001, 0b00000001] = .ok (.longLiteral 274, []) ∧
    decode [0b11111100, 0b00000001] = .ok (.longLiteral 18, []) ∧
    decode [0b11111111, 0b11111111] = .ok (.longLiteral 1040, []) := by decide

/-- R155: the check is for all the extra bytes. -/
theorem test_decode_truncated :
    decode [0x40] = .error .truncated ∧ decode [0xC0, 0x00] = .error .truncated ∧ decode [0xE0] = .error .truncated ∧
    decode [] = .error .noOpcode := by decide

/-- The packing of 44_instruction_encoder.md (vectors T6). -/
theorem test_encode_words :
    encode (.shortCopy 6 15) = [0x3F] ∧ encode (.medCopy 3 1023) = [0x4C, 0xFF] ∧
    encode (.longCopy 22 1023) = [0xBF, 0xFF] ∧ encode (.extCopy 22 1024) = [0xC0, 0xF4, 0x00] ∧
    encode (.shortLiteral 16) = [0xDF] ∧ encode (.longLiteral 273) = [0xE1, 0x00] := by decide

/-- Table words: the second byte is bits 15 to 8, and missing operand bytes are zero. -/
theorem test_table_words :
    decodeTableWord 8 0x0D = some (.shortCopy 4 3) ∧ decodeTableWord 16 0x1043 = some (.medCopy 6 16) ∧
    decodeTableWord 16 0x0384 = some (.longCopy 8 3) ∧ decodeTableWord 24 0x3485C8 = some (.extCopy 143 1332) ∧
    decodeTableWord 8 0xD3 = some (.shortLiteral 4) ∧ decodeTableWord 16 0x01E1 = some (.longLiteral 274) ∧
    decodeTableWord 8 0xFF40 = some (.medCopy 3 0) := by decide

/-! ### The instructions, one step each -/

/-- P3, second instruction. -/
theorem test_shortCopy_step :
    check (step (onDec (decAt 35 [0xD3, 0x48, 0x4F, 0x4E, 0x47, 0x0D] 7 [0x48, 0x4F, 0x4E, 0x47])))
      (fun s => s.dec.inPtr == 8 && s.dec.outPtr == 8 &&
        s.dec.outMem.toBytes 8 == bs [0x48, 0x4F, 0x4E, 0x47, 0x48, 0x4F, 0x4E, 0x47]) = true := by decide

/-- T2.7: the sentinel, then the byte before, then the sentinel just written. -/
theorem test_shortCopy_sentinel :
    check (step (onDec (decAt 6 [0xD0, 0x41, 0x04, 0xD0, 0x42] 4 [0x41])))
      (fun s => s.dec.inPtr == 5 && out s == bs [0x41, 0xFF, 0x41, 0xFF, 0, 0]) = true := by decide

/-- T2.1. -/
theorem test_medCopy_step :
    check (step (onDec (decAt 6 [0xD2, 0x31, 0x32, 0x33, 0x40, 0x02] 6 [0x31, 0x32, 0x33])))
      (fun s => s.dec.inPtr == 8 && out s == bs [0x31, 0x32, 0x33, 0x31, 0x32, 0x33]) = true := by decide

/-- T2.11: every source index is negative. -/
theorem test_medCopy_sentinel :
    check (step (onDec (decAt 5 [0xD0, 0x41, 0x40, 0x03] 4 [0x41])))
      (fun s => s.dec.inPtr == 6 && s.dec.outPtr == 4 && out s == bs [0x41, 0xFF, 0xFF, 0xFF, 0]) = true := by decide

/-- P1: the self-overlapping copy. -/
theorem test_longCopy_overlap :
    check (step (onDec (decAt 11 [0xD0, 0x41, 0x8C, 0x00] 4 [0x41])))
      (fun s => s.dec.inPtr == 6 && s.dec.outPtr == 11 && out s == List.replicate 11 0x41) = true := by decide

/-- T2.5: sentinel bytes, then real ones, clamped by the declared size. -/
theorem test_longCopy_sentinel_clamp :
    check (step (onDec (decAt 8 [0xD1, 0x41, 0x42, 0x80, 0x03] 5 [0x41, 0x42])))
      (fun s => s.dec.inPtr == 7 && s.dec.outPtr == 8 &&
        out s == bs [0x41, 0x42, 0xFF, 0xFF, 0x41, 0x42, 0xFF, 0xFF]) = true := by decide

/-- T2.3, in VER's inner DEC. -/
theorem test_extCopy_step :
    check (step (onVer (decAt 10 [0xD2, 0x61, 0x62, 0x63, 0xC0, 0x00, 0x02] 6 [0x61, 0x62, 0x63])))
      (fun s => s.ver.inner.inPtr == 9 && s.ver.inner.outPtr == 10 && s.dec == Dec.reset &&
        out s == bs [0x61, 0x62, 0x63, 0x61, 0x62, 0x63, 0x61, 0x62, 0x63, 0x61]) = true := by decide

/-- P3, last instruction (`out_ptr` 20, offset 3): the fields of `extra1` and `extra2` are not mixed up. -/
theorem test_extCopy_length :
    check (exec (.extCopy 8 3) (onDec (decAt 35 [] 2 [1, 2, 3, 4, 5])))
      (fun s => s.dec.inPtr == 2 && s.dec.outPtr == 13 &&
        s.dec.outMem.toBytes 13 == bs [1, 2, 3, 4, 5, 2, 3, 4, 5, 2, 3, 4, 5]) = true := by decide

/-- T3.4: clamped by the declared size; `in_ptr` moves over the bytes moved only. -/
theorem test_shortLiteral_output_clamp :
    check (step (onDec (decAt 2 [0xD3, 0x41, 0x42, 0x43, 0x44] 2 [])))
      (fun s => s.dec.inPtr == 5 && s.dec.outPtr == 2 && out s == bs [0x41, 0x42]) = true := by decide

/-- T3.5: clamped by the input. -/
theorem test_shortLiteral_input_clamp :
    check (step (onDec (decAt 5 [0xD3, 0x41, 0x42] 2 [])))
      (fun s => s.dec.inPtr == 5 && s.dec.outPtr == 2 && s.dec.status == .running &&
        out s == bs [0x41, 0x42, 0, 0, 0]) = true := by decide

/-- T3.2: the ignored bits, and 18 bytes of payload. -/
theorem test_longLiteral_step :
    check (step (onDec (decAt 18 (0xFC :: 0x01 :: List.range' 1 18) 2 [])))
      (fun s => s.dec.inPtr == 22 && s.dec.outPtr == 18 && out s == bs (List.range' 1 18)) = true := by decide

/-- T3.8: clamped by the input. -/
theorem test_longLiteral_input_clamp :
    check (step (onDec (decAt 20 (0xE0 :: 0x00 :: List.range' 1 10) 2 [])))
      (fun s => s.dec.inPtr == 14 && s.dec.outPtr == 10 && out s == bs (List.range' 1 10 ++ List.replicate 10 0)) = true := by
  decide

/-! ### The engine of DEC -/

/-- T4.2. -/
theorem test_header_too_short :
    check (step (onDec (decBegin [0x05])))
      (fun s => s.dec.status == .failed && s.dec.err == .formatHeaderTooShort && s.dec.err.code == 1) = true := by decide

/-- The header is little-endian (R64), and the output is padded (R151): T2.10's header. -/
theorem test_header_step :
    check (step (onDec (decBegin [0x10, 0x01, 0xD0])))
      (fun s => s.dec.declaredSize == 272 && s.dec.inPtr == 2 && s.dec.outPtr == 0 && s.dec.status == .running &&
        s.dec.outMem.toBytes 3 == [0, 0, 0]) = true := by decide

/-- T4.5: the early stop. -/
theorem test_early_stop :
    check (step (onDec (decAt 5 [0xD1, 0x41, 0x42] 5 [0x41, 0x42])))
      (fun s => decResult s.dec == some (.ok ⟨bs [0x41, 0x42, 0, 0, 0], 5, 5, 2, true⟩)) = true := by
  rfl

/-- T4.8: one of two extra bytes. -/
theorem test_truncated_stream :
    check (step (onDec (decAt 9 [0xD0, 0x41, 0xC0, 0x00] 4 [0x41])))
      (fun s => s.dec.status == .failed && s.dec.err == .truncatedStream && s.dec.inPtr == 5) = true := by decide

/-- An instruction placed after reset is the one the next step runs. -/
theorem test_withFetchWord_step :
    check (step (State.reset.withFetchWord 16 0x0184)) (fun s => s.dec.inPtr == 4 && s.dec.outPtr == 8) = true := by
  decide

/-! ### CMP -/

/-- T5.1: no candidate while `C = 0`. -/
theorem test_findMatch_no_history :
    (cmpAt (List.replicate 20 0x41) 0 5 [20, 0]).findMatch = .ok none := by decide

/-- T5.2: the run continues into the copy's own output. -/
theorem test_findMatch_own_output :
    (cmpAt (List.replicate 20 0x41) 16 0 [20, 0]).findMatch = .ok (some ⟨15, 4, 0, .shortCopy⟩) := by decide

/-- T5.4: the most recent of two equal runs. -/
theorem test_findMatch_tie :
    (cmpAt [0x78, 0x79, 0x7A, 0x31, 0x32, 0x78, 0x79, 0x7A, 0x33, 0x34, 0x35, 0x36, 0x37, 0x38, 0x39, 0x30, 0x78, 0x79,
      0x7A, 0x51] 16 0 [20, 0]).findMatch = .ok (some ⟨5, 3, 10, .shortCopy⟩) := by decide

/-- The source of P5 and T6.8. -/
def sourceP5 : List Nat := List.range 16 ++ [0xFE] ++ List.range 6 ++ [0xFF]

/-- T5.5: the pending byte counts in the offset. -/
theorem test_findMatch_pending_offset :
    (cmpAt sourceP5 16 1 [24, 0]).findMatch = .ok (some ⟨0, 6, 16, .medCopy⟩) := by decide

/-- P5: the flush `D0 FE` comes before the copy `43 10`. -/
theorem test_emitCopy_step :
    check (step (onCmp (cmpAt sourceP5 16 1 [24, 0])))
      (fun s => s.cmp.cur == 23 && s.cmp.committed == 23 && s.cmp.pending == 0 &&
        s.cmp.csMem.toBytes s.cmp.csLen == bs [24, 0, 0xD0, 0xFE, 0x43, 0x10] &&
        s.cmp.shadowMem.toBytes 23 == bs (sourceP5.take 23)) = true := by decide

/-- P4, step 16: the sixteenth literal flushes. -/
theorem test_pushLiteral_flush :
    check (step (onCmp (cmpAt (List.replicate 20 0x41) 0 15 [20, 0])))
      (fun s => s.cmp.cur == 16 && s.cmp.committed == 16 && s.cmp.pending == 0 && s.cmp.csLen == 19 &&
        s.cmp.csMem.toBytes 19 == bs ([20, 0, 0xDF] ++ List.replicate 16 0x41)) = true := by decide

/-- T6.2, the last flush. -/
theorem test_finish :
    check (step (onCmp (cmpAt [0x41] 0 1 [1, 0])))
      (fun s => cmpResult s.cmp == some (.ok (bs [1, 0, 0xD0, 0x41]))) = true := by rfl

/-- T6.18. -/
theorem test_input_too_large :
    check (step (onCmp { Cmp.reset with srcLen := 65536, status := .running }))
      (fun s => s.cmp.status == .failed && s.cmp.err == .inputTooLarge && s.cmp.csLen == 0) = true := by decide

/-! ### VER -/

/-- A VER whose inner DEC is DONE with an output. -/
def verAt (orig output : List Nat) : State :=
  { State.reset with
    turn := .ver
    ver :=
      { Ver.reset with
        origMem := Memory.ofBytes (bs orig)
        origLen := orig.length
        inner := (decAt output.length [] 2 output).afterHalt
        status := .running } }

/-- T7.3. -/
theorem test_verify_content :
    check (step (verAt [0x41, 0x42, 0x43] [0x41, 0x42, 0x44]))
      (fun s => verResult s.ver == some (.error (.verifyMismatch, some ⟨.content, 3, 3, 2, 1⟩))) = true := by rfl

/-- T7.4. -/
theorem test_verify_length :
    check (step (verAt [0x41, 0x42, 0x43] [0x41, 0x42]))
      (fun s => verResult s.ver == some (.error (.verifyMismatch, some ⟨.length, 3, 2, 2, 0⟩))) = true := by rfl

/-- T7.5. -/
theorem test_verify_two_mismatches :
    check (step (verAt [0x41, 0x42, 0x43] [0x41, 0, 0]))
      (fun s => verResult s.ver == some (.error (.verifyMismatch, some ⟨.content, 3, 3, 1, 2⟩))) = true := by rfl

/-! ### Witnesses for the obligations with hypotheses -/

/-- The DEC of P3 before its second instruction. -/
def decP3 : Dec :=
  decAt 35 [0xD3, 0x48, 0x4F, 0x4E, 0x47, 0x0D, 0x41, 0x05, 0x84, 0x01, 0xC0, 0x10, 0x03] 7 [0x48, 0x4F, 0x4E, 0x47]

theorem decP3_inv : decP3.Inv where
  inWf := by decide
  inBelow := by decide
  outWf := by decide
  outBelow := by decide
  errNone := by decide
  errFailed := fun h => absurd h (by decide)
  running := fun _ _ => ⟨by decide, by decide, by decide, by decide, by decide, by decide⟩
  done := fun h => absurd h (by decide)

theorem onDec_inv : (onDec decP3).Inv := ⟨decP3_inv, Cmp.reset_inv, Ver.reset_inv⟩

/-- A CMP at a step boundary is sound when the closed facts about it hold. -/
theorem cmp_inv {c : Cmp} (hs : c.status = .running) (he : c.err = .none) (hl : c.InLoop)
    (hw : c.srcMem.wf ∧ c.shadowMem.wf ∧ c.pendMem.wf ∧ c.csMem.wf)
    (hb : c.srcMem.below c.srcLen ∧ c.shadowMem.below c.committed ∧ c.pendMem.below c.pending ∧ c.csMem.below c.csLen) :
    c.Inv where
  srcWf := hw.1
  srcBelow := hb.1
  shadowWf := hw.2.1
  shadowBelow := hb.2.1
  pendWf := hw.2.2.1
  pendBelow := hb.2.2.1
  csWf := hw.2.2.2
  csBelow := hb.2.2.2
  errNone := by simp [hs, he]
  errFailed := fun h => by rw [hs] at h; cases h
  running := fun _ _ => hl
  done := fun h => by rw [hs] at h; cases h

/-- The CMP of P5 at its match, with one literal pending. -/
def cmpP5 : Cmp := cmpAt sourceP5 16 1 ([24, 0, 0xDF] ++ List.range 16)

theorem cmpP5_inLoop : cmpP5.InLoop :=
  ⟨by decide, by decide, by decide, by decide, by decide, by decide, by decide, by decide, by decide, by decide, by decide⟩

theorem cmpP5_inv : cmpP5.Inv := cmp_inv rfl rfl cmpP5_inLoop (by decide) (by decide)

/-- O3: an opcode for each of the six clauses, at an end of its range. -/
theorem witness_DecodeFollowsSourceFormulas :
    (0x3F : Byte).toNat >>> 6 = 0 ∧ (0x7F : Byte).toNat >>> 6 = 1 ∧ (0xBF : Byte).toNat >>> 6 = 2 ∧
    ((0xCF : Byte).toNat >>> 6 = 3 ∧ ((0xCF : Byte).toNat >>> 4) &&& 3 = 0) ∧
    ((0xDF : Byte).toNat >>> 6 = 3 ∧ ((0xDF : Byte).toNat >>> 4) &&& 3 = 1) ∧
    ((0xE0 : Byte).toNat >>> 6 = 3 ∧ 2 ≤ ((0xE0 : Byte).toNat >>> 4) &&& 3) := by decide

/-- O4. -/
theorem witness_DecodeOfEncodeIsIdentity :
    (Instr.extCopy 262 4095).wf = true ∧ (Instr.longLiteral 1040).wf = true ∧ (Instr.shortCopy 3 0).wf = true := by decide

/-- O5: both disjuncts of the last clause. -/
theorem witness_DecodedBytesAreAnEncoding :
    decode [0xCF, 0xFF, 0xFF, 0x01] = .ok (.extCopy 262 4095, [0x01]) ∧
    decode [0xFC, 0x01, 0x02] = .ok (.longLiteral 18, [0x02]) := by decide

/-- O6. -/
theorem witness_LongLiteralIgnoresThreeBits : (17 ≤ 1040 ∧ 1040 ≤ 1040 ∧ 7 < 8) ∧ (17 ≤ 17 ∧ 17 ≤ 1040 ∧ 0 < 8) := by
  decide

/-- O8, O9. -/
theorem witness_CopyClosedForm :
    (onDec decP3).curDec.outMem.wf ∧ Instr.extCopy 8 3 ∈ copyForms 8 3 ∧ 2 < min 8 (35 - 4) := by decide

/-- O10: one sentinel byte, then real ones. -/
theorem witness_CopyBeforeStartGivesSentinel :
    (onDec decP3).curDec.outMem.wf ∧ (onDec decP3).curDec.outPtr < 4 + 1 ∧ Instr.medCopy 6 4 ∈ copyForms 6 4 ∧
    0 < 4 + 1 - (onDec decP3).curDec.outPtr ∧ 4 + 1 - (onDec decP3).curDec.outPtr ≤ 5 := by decide

/-- O11: a copy that overlaps itself. -/
theorem witness_SelfOverlapRepeatsPattern :
    (onVer decP3).curDec.outMem.wf ∧ 1 + 1 ≤ (onVer decP3).curDec.outPtr ∧ Instr.longCopy 10 1 ∈ copyForms 10 1 := by
  decide

/-- O12: one byte of room, and a copy of at least three. -/
theorem witness_CopyClampEndsTheRun :
    (onDec (decAt 2 [0x00] 2 [1])).Serving ∧ (onDec (decAt 2 [0x00] 2 [1])).curDec.headerRead = true ∧
    (onDec (decAt 2 [0x00] 2 [1])).curDec.outPtr ≤ (onDec (decAt 2 [0x00] 2 [1])).curDec.declaredSize ∧
    (onDec (decAt 2 [0x00] 2 [1])).curDec.declaredSize - (onDec (decAt 2 [0x00] 2 [1])).curDec.outPtr < 3 ∧
    Instr.shortCopy 3 0 ∈ copyForms 3 0 := by decide

/-- O13, O14. -/
theorem witness_LiteralMovesPayload :
    (onDec decP3).curDec.outMem.wf ∧ Instr.longLiteral 17 ∈ literalForms 17 ∧
    Instr.shortLiteral 16 ∈ literalForms 16 := by decide

/-- O15: the clause of the declared size (with equality of the bounds), then the clause of the input. -/
theorem witness_LiteralClampsAreNoErrors :
    (let d := decAt 2 [0xD3, 0x41, 0x42] 3 []
     d.inPtr ≤ d.inLen ∧ d.outPtr ≤ d.declaredSize ∧ d.declaredSize - d.outPtr ≤ 2 ∧
       d.declaredSize - d.outPtr ≤ d.inLen - d.inPtr) ∧
    (let d := decAt 5 [0xD3, 0x41, 0x42] 3 []
     d.inPtr ≤ d.inLen ∧ d.outPtr ≤ d.declaredSize ∧ d.inLen - d.inPtr < 4 ∧
       d.inLen - d.inPtr < d.declaredSize - d.outPtr) := by decide

/-- O16, O22: a sound state at an instruction, whose bytes decode to a copy. -/
theorem witness_StepRunsTheDecodedInstruction :
    (onDec decP3).Inv ∧ (onDec decP3).AtInstr ∧
    decode (onDec decP3).curDec.window =
      .ok (.shortCopy 4 3, [0x41, 0x05, 0x84, 0x01, 0xC0, 0x10, 0x03]) ∧
    (onVer decP3).AtInstr :=
  ⟨onDec_inv, by decide, by decide, by decide⟩

/-- O17: T4.8. -/
theorem witness_TruncatedFixedPartRaises :
    (onDec (decAt 9 [0xD0, 0x41, 0xC0, 0x00] 4 [0x41])).AtInstr ∧
    (onDec (decAt 9 [0xD0, 0x41, 0xC0, 0x00] 4 [0x41])).curDec.window = [0xC0, 0x00] ∧
    formOf 0xC0 = some .extCopy ∧ [(0x00 : Byte)].length < Form.extCopy.extraBytes := by decide

/-- O18: one byte, T4.2. -/
theorem witness_ShortHeaderRaises :
    (onDec (decBegin [0x05])).Serving ∧ (onDec (decBegin [0x05])).curDec.headerRead = false ∧
    (onDec (decBegin [0x05])).curDec.inLen < 2 := by decide

/-- O19: exactly two bytes. -/
theorem witness_HeaderStepStartsTheLoop :
    (onVer (decBegin [0x05, 0x00])).Serving ∧ (onVer (decBegin [0x05, 0x00])).curDec.headerRead = false ∧
    2 ≤ (onVer (decBegin [0x05, 0x00])).curDec.inLen := by decide

/-- O20: a full output, an exhausted input, and neither. -/
theorem witness_LoopTestEndsTheRun :
    ((onDec (decAt 1 [0x00, 0x00] 3 [1])).Serving ∧ (decAt 1 [0x00, 0x00] 3 [1]).headerRead = true ∧
      (decAt 1 [0x00, 0x00] 3 [1]).declaredSize ≤ (decAt 1 [0x00, 0x00] 3 [1]).outPtr) ∧
    ((onDec (decAt 5 [] 2 [])).Serving ∧ (decAt 5 [] 2 []).headerRead = true ∧
      (decAt 5 [] 2 []).inLen ≤ (decAt 5 [] 2 []).inPtr) ∧
    ((onDec decP3).Serving ∧ decP3.headerRead = true ∧ decP3.outPtr < decP3.declaredSize ∧
      decP3.inPtr < decP3.inLen) := by decide

/-- O21: T4.12. -/
theorem witness_DeclaredSizeZeroGivesEmptyOutput :
    ∃ s1, startDecode (0x00 :: 0x00 :: [0xFF, 0xFF]) State.reset = .next s1 := ⟨_, rfl⟩

/-- O23, O24, O25: a whole call (T2.4) that gives a result, from two different states. -/
theorem witness_DecodeResultDependsOnStreamOnly :
    ∃ s1 s1' t t' r, startDecode [0x03, 0x00, 0x3C] State.reset = .next s1 ∧
      startDecode [0x03, 0x00, 0x3C] (onCmp cmpP5) = .next s1' ∧ StepsTo 3 s1 t ∧ StepsTo 3 s1' t' ∧
      t.dec.status ≠ .running ∧ t'.dec.status ≠ .running ∧ decResult t.dec = some (.ok r) ∧ r.short = false :=
  ⟨_, _, _, _, _, rfl, rfl, rfl, rfl, by decide, by decide, rfl, rfl⟩

/-- O25: a call that stops early (T4.4). -/
theorem witness_OutputHasDeclaredLength :
    ∃ s1 t r, startDecode [0x05, 0x00] State.reset = .next s1 ∧ StepsTo 2 s1 t ∧ decResult t.dec = some (.ok r) ∧
      r.short = true ∧ r.produced ≤ 4 ∧ 4 < r.outLen :=
  ⟨_, _, _, rfl, rfl, rfl, rfl, by decide, by decide⟩

/-- O28. -/
theorem witness_SoundStateStepsToSoundState : (onDec decP3).Inv ∧ (onCmp cmpP5).Inv :=
  ⟨onDec_inv, Dec.reset_inv, cmpP5_inv, Ver.reset_inv⟩

/-- O29, O33: a reachable state past an error. -/
theorem witness_ReachableStatesAreSound : ∃ s, Reachable s ∧ s.dec.status = .failed ∧ s.dec.err = .formatHeaderTooShort :=
  ⟨_, .step (.startDecode [0x05] .reset rfl) rfl, rfl, rfl⟩

/-- O30, O31, O32: a step on each turn, with the other units not RUNNING. -/
theorem witness_EndedUnitTakesNoStep :
    (∃ t, step (onDec decP3) = .next t ∧ (onDec decP3).cmp.status ≠ .running ∧ (onDec decP3).turn ≠ .ver) ∧
    (∃ t, step (onVer decP3) = .next t ∧ (onVer decP3).dec.status ≠ .running ∧ (onVer decP3).turn ≠ .cmp) ∧
    (∃ t, step (onCmp cmpP5) = .next t ∧ (onCmp cmpP5).ver.status ≠ .running ∧ (onCmp cmpP5).turn ≠ .dec) :=
  ⟨⟨_, rfl, by decide, by decide⟩, ⟨_, rfl, by decide, by decide⟩, ⟨_, rfl, by decide, by decide⟩⟩

/-- O34: each unit RUNNING, and each not. -/
theorem witness_RunningUnitAcceptsNoCall :
    (onDec decP3).dec.status = .running ∧ (onCmp cmpP5).cmp.status = .running ∧ (onVer decP3).ver.status = .running ∧
    State.reset.dec.status ≠ .running ∧ State.reset.cmp.status ≠ .running ∧ State.reset.ver.status ≠ .running ∧
    (onDec decP3).statusOf .dec = .running ∧ (onDec decP3).statusOf .cmp ≠ .running := by decide

/-- O35: a call on each unit, from a unit that is IDLE and from one that has ended, with the same draw. -/
theorem witness_CallStartsFromItsInputOnly :
    (∃ t t', startDecode [0x00, 0x41] State.reset = .next t ∧
      startDecode [0x00, 0x41] (onDec decP3.afterHalt) = .next t' ∧
      (onDec decP3.afterHalt).freeSeed = State.reset.freeSeed) ∧
    (∃ t t', startEncode [0x00, 0x41] State.reset = .next t ∧
      startEncode [0x00, 0x41] (onCmp (cmpP5.afterRaise .inputTooLarge)) = .next t' ∧
      (onCmp (cmpP5.afterRaise .inputTooLarge)).freeSeed = State.reset.freeSeed) ∧
    (∃ t t', startVerify [0x00] [0x41] State.reset = .next t ∧
      startVerify [0x00] [0x41] ((onVer decP3).raise .ver .verifyMismatch) = .next t' ∧
      ((onVer decP3).raise .ver .verifyMismatch).freeSeed = State.reset.freeSeed) :=
  ⟨⟨_, _, rfl, rfl, rfl⟩, ⟨_, _, rfl, rfl, rfl⟩, ⟨_, _, rfl, rfl, rfl⟩⟩

/-- O36: a result of each unit acknowledged, and an IDLE unit. -/
theorem witness_AcknowledgeReturnsToIdle :
    (∃ t, acknowledge .dec (onDec decP3.afterHalt) = .next t ∧ (onDec decP3.afterHalt).statusOf .dec ≠ .idle) ∧
    (∃ t, acknowledge .cmp (onCmp (cmpP5.afterRaise .inputTooLarge)) = .next t ∧
      (onCmp (cmpP5.afterRaise .inputTooLarge)).statusOf .cmp ≠ .idle) ∧
    (∃ t, acknowledge .ver ((onVer decP3).raise .ver .verifyMismatch) = .next t ∧
      ((onVer decP3).raise .ver .verifyMismatch).statusOf .ver ≠ .idle) ∧
    (∃ t, acknowledge .ver State.reset = .next t ∧ Agent.ver ≠ .dec ∧ Agent.ver ≠ .cmp) :=
  ⟨⟨_, rfl, by decide⟩, ⟨_, rfl, by decide⟩, ⟨_, rfl, by decide⟩, ⟨_, rfl, by decide, by decide⟩⟩

/-- O37: 65536 and 65535. -/
theorem witness_OversizedInputRaises :
    (let s := onCmp { Cmp.reset with srcLen := 65536, status := .running }
     s.turn = .cmp ∧ s.cmp.status = .running ∧ s.cmp.headerWritten = false ∧ 65535 < s.cmp.srcLen) ∧
    (let s := onCmp { Cmp.reset with srcLen := 65535, status := .running }
     s.turn = .cmp ∧ s.cmp.status = .running ∧ s.cmp.headerWritten = false ∧ s.cmp.srcLen = 65535) := by decide

/-- O38: the greatest length. -/
theorem witness_CompressorHeaderStep :
    let s := onCmp { Cmp.reset with srcLen := 65535, status := .running }
    s.turn = .cmp ∧ s.cmp.status = .running ∧ s.cmp.headerWritten = false ∧ s.cmp.srcLen ≤ 65535 := by decide

/-- O39: a full buffer with just enough room, and an empty one. -/
theorem witness_FlushEmitsOneShortLiteral :
    (let c := { cmpAt (List.range 16) 0 16 [16, 0] with csLen := 69616 }
     c.csMem.wf ∧ c.shadowMem.wf ∧ 1 ≤ c.pending ∧ c.pending ≤ 16 ∧ c.csLen + 1 + c.pending ≤ 69633 ∧
       c.committed + c.pending ≤ c.srcLen) ∧
    (let c := cmpAt (List.range 16) 16 0 [16, 0]
     c.csMem.wf ∧ c.shadowMem.wf ∧ c.pending = 0) := by decide

/-- O40: the ends of the ranges, on both sides of the equivalence. -/
theorem witness_UnusableLengthsAndOffsets :
    (3 ≤ 6 ∧ 6 ≤ 262 ∧ 1024 ≤ 4109 ∧ selectForm 6 1024 = none) ∧
    (3 ≤ 262 ∧ 262 ≤ 262 ∧ 4095 ≤ 4109 ∧ selectForm 262 4095 = some .extCopy) ∧
    (3 ≤ 7 ∧ 7 ≤ 262 ∧ 4096 ≤ 4109 ∧ selectForm 7 4096 = none) := by decide

/-- O41: a well-formed MedCopy beside the selected ShortCopy. -/
theorem witness_SelectedFormIsSmallest :
    3 ≤ 6 ∧ selectForm 6 15 = some .shortCopy ∧ Instr.medCopy 6 15 ∈ copyForms 6 15 ∧ (Instr.medCopy 6 15).wf = true := by
  decide

/-- A CMP whose history holds no match. -/
def cmpNoMatch : Cmp := cmpAt sourceP5 16 0 ([24, 0, 0xDF] ++ List.range 16)

theorem cmpNoMatch_inLoop : cmpNoMatch.InLoop :=
  ⟨by decide, by decide, by decide, by decide, by decide, by decide, by decide, by decide, by decide, by decide, by decide⟩

/-- O42: a CMP with a match and one without. -/
theorem witness_FindMatchSelectsLongestMostRecent :
    (cmpP5.committed ≤ cmpP5.srcLen ∧ cmpP5.pending ≤ 16 ∧ cmpP5.cur ≤ cmpP5.srcLen ∧
      cmpP5.findMatch = .ok (some ⟨0, 6, 16, .medCopy⟩)) ∧
    (cmpNoMatch.committed ≤ cmpNoMatch.srcLen ∧ cmpNoMatch.pending ≤ 16 ∧ cmpNoMatch.cur ≤ cmpNoMatch.srcLen ∧
      cmpNoMatch.findMatch = .ok none) := by decide

/-- A CMP whose one candidate of length 3 lies at offset 1024 (T5.6 in small: the history between is not needed). -/
def cmpFar : Cmp :=
  { cmpAt ([0x61, 0x62, 0x63] ++ List.replicate 1022 0 ++ [0x61, 0x62, 0x63]) 1025 0 [4, 4] with csLen := 1091 }

/-- O42, last clause: the candidate that is selected has length 3 and no form. -/
theorem witness_UnusableCandidate :
    cmpFar.committed ≤ cmpFar.srcLen ∧ cmpFar.pending ≤ 16 ∧ cmpFar.cur ≤ cmpFar.srcLen ∧
    cmpFar.runAt 0 = .ok 3 ∧ cmpFar.runAt 1 = .ok 0 ∧ cmpFar.windowStart ≤ 0 ∧
    selectForm 3 (cmpFar.committed + cmpFar.pending - 0 - 1) = none := by decide +kernel

/-- No candidate of a CMP has a longer run, and none more recent as long a one, as a condition that computes. -/
def noBetter (c : Cmp) (p run : Nat) : Bool :=
  (List.range c.committed).all fun q =>
    match c.runAt q with
    | .ok r => decide (r ≤ run) && (decide (q ≤ p) || decide (r < run))
    | .error _ => false

theorem selected_of_noBetter {c : Cmp} {p run : Nat} (hp : c.CandidateRun p run) (h : noBetter c p run = true) :
    c.Selected p run := by
  have key : ∀ q r, c.CandidateRun q r → r ≤ run ∧ (p < q → r < run) := fun q r hq => by
    have := List.all_eq_true.1 h q (List.mem_range.2 hq.2.1)
    simp only [hq.2.2, Bool.and_eq_true, Bool.or_eq_true, decide_eq_true_eq] at this
    omega
  exact ⟨hp, fun q r hq => (key q r hq).1, fun q r hq => (key q r hq).2⟩

theorem cmpFar_inLoop : cmpFar.InLoop := by constructor <;> decide +kernel

/-- O43: a selected match that is used, with a literal pending, and one that no form can carry. -/
theorem witness_EffectiveOffsetIsTheDecoders :
    (cmpP5.InLoop ∧ cmpP5.Selected 0 6 ∧ cmpP5.findMatch = .ok (some ⟨0, 6, 16, .medCopy⟩)) ∧
    (cmpFar.InLoop ∧ cmpFar.Selected 0 3 ∧ selectForm 3 (cmpFar.effOff 0) = none) :=
  ⟨⟨cmpP5_inLoop, selected_of_noBetter ⟨by decide, by decide, by decide⟩ (by decide), by decide⟩,
    cmpFar_inLoop,
    selected_of_noBetter ⟨by decide +kernel, by decide +kernel, by decide +kernel⟩ (by decide +kernel), by decide +kernel⟩

/-- O44: the last candidate. -/
theorem witness_HistoryRunIsSourceRun : cmpP5.InLoop ∧ 15 < cmpP5.committed := ⟨cmpP5_inLoop, by decide⟩

/-- The CMP of P4 before the sixteenth literal. -/
def cmpP4 : Cmp := cmpAt (List.replicate 20 0x41) 0 15 [20, 0]

theorem cmpP4_inLoop : cmpP4.InLoop :=
  ⟨by decide, by decide, by decide, by decide, by decide, by decide, by decide, by decide, by decide, by decide, by decide⟩

/-- O45: room for the literal, and the sixteenth. -/
theorem witness_PushLiteralStep :
    ((onCmp cmpNoMatch).cmp.Inv ∧ (onCmp cmpNoMatch).AtCmpStep ∧ (onCmp cmpNoMatch).cmp.findMatch = .ok none ∧
      (onCmp cmpNoMatch).cmp.pending < 15) ∧
    ((onCmp cmpP4).cmp.Inv ∧ (onCmp cmpP4).AtCmpStep ∧ (onCmp cmpP4).cmp.findMatch = .ok none ∧
      (onCmp cmpP4).cmp.pending = 15) :=
  ⟨⟨cmp_inv rfl rfl cmpNoMatch_inLoop (by decide) (by decide), by decide, by decide, by decide⟩,
    ⟨cmp_inv rfl rfl cmpP4_inLoop (by decide) (by decide), by decide, by decide, by decide⟩⟩

/-- O46. -/
theorem witness_EmitCopyStep :
    (onCmp cmpP5).cmp.Inv ∧ (onCmp cmpP5).AtCmpStep ∧
    (onCmp cmpP5).cmp.findMatch = .ok (some ⟨0, 6, 16, .medCopy⟩) := ⟨cmpP5_inv, by decide, by decide⟩

/-- O47: a short source, and one above 65535 bytes. -/
theorem witness_EncodeCallTerminates :
    (∃ s1, startEncode [0x41] State.reset = .next s1 ∧ [(0x41 : Byte)].length ≤ 65535) ∧
    (∃ s1, startEncode (List.replicate 65536 0) State.reset = .next s1 ∧ 65535 < (List.replicate 65536 (0 : Byte)).length) :=
  ⟨⟨_, rfl, by decide⟩, ⟨_, rfl, by rw [List.length_replicate]; decide⟩⟩

/-- O48: a whole call with a result (T6.2). -/
theorem witness_CompressedLengthBound :
    ∃ s1 t, startEncode [0x41] State.reset = .next s1 ∧ StepsTo 3 s1 t ∧
      cmpResult t.cmp = some (.ok [0x01, 0x00, 0xD0, 0x41]) := ⟨_, _, rfl, rfl, rfl⟩

/-- O51: T6.8, a whole call whose stream has a MedCopy, and two ShortLiterals in a row. -/
theorem witness_CompressorNeverEmitsLongLiteral :
    ∃ s1 t, startEncode (bs sourceP5) State.reset = .next s1 ∧ StepsTo 21 s1 t ∧
      cmpResult t.cmp = some (.ok (bs ([24, 0, 0xDF] ++ List.range 16 ++ [0xD0, 0xFE, 0x43, 0x10, 0xD0, 0xFF]))) :=
  ⟨_, _, rfl, rfl, by decide +kernel⟩

/-- O49. -/
theorem witness_EmptyInputGivesZeroHeader :
    (∃ s1, startEncode [] State.reset = .next s1) ∧ (∃ s1, startDecode [0x00, 0x00] State.reset = .next s1) :=
  ⟨⟨_, rfl⟩, ⟨_, rfl⟩⟩

/-- Runs of one step more than a run that ends in a state which a step leaves as it is. -/
theorem stepsTo_fixed {k n : Nat} {s t u : State} (hu : StepsTo (k + n) s u) (h : StepsTo k s t)
    (hf : step t = .next t) : u = t := by
  unfold StepsTo at h hu
  induction k generalizing s with
  | zero =>
    cases h
    rw [Nat.zero_add] at hu
    induction n with
    | zero => cases hu; rfl
    | succ n ih =>
      simp only [Host.Core.run, core, hf] at hu
      exact ih hu
  | succ k ih =>
    rw [show k + 1 + n = k + n + 1 from by omega] at hu
    simp only [Host.Core.run, core] at h hu ih
    cases hs : step s with
    | next s' => rw [hs] at h hu; exact ih hu h
    | fault f => rw [hs] at h; cases h
    | refused r => rw [hs] at h; cases h

/-- O50: the one-byte source never has a match (T6.2). -/
theorem witness_LiteralOnlySizeIsExact :
    ∃ s1, [(0x41 : Byte)].length ≤ 65535 ∧ startEncode [0x41] State.reset = .next s1 ∧
      ∀ k u, StepsTo k s1 u → u.AtCmpStep → u.cmp.findMatch = .ok none := by
  refine ⟨_, by decide, rfl, fun k u hu ha => ?_⟩
  match k, hu with
  | 0, hu => cases hu; exact absurd ha.2.2.1 (by decide)
  | 1, hu => cases hu; rfl
  | 2, hu => cases hu; exact absurd ha.2.2.2 (by decide)
  | k + 3, hu =>
    rw [Nat.add_comm] at hu
    have := stepsTo_fixed hu rfl rfl
    subst this
    exact absurd ha.2.1 (by decide)

/-- O52, O56: an encode call on a source, and the calls on its result. -/
theorem witness_RoundTripIsExact :
    ∃ s1 s2 s3, [(0x41 : Byte)].length ≤ 65535 ∧ startEncode [0x41] State.reset = .next s1 ∧
      startDecode [0x01, 0x00, 0xD0, 0x41] s1 = .next s2 ∧ startVerify [0x41] [0x01, 0x00, 0xD0, 0x41] s1 = .next s3 :=
  ⟨_, _, _, by decide, rfl, rfl, rfl⟩

/-- The inner DEC of `verAt` is sound when its closed facts hold. -/
theorem verAt_inner_inv (orig output : List Nat) (hw : (Memory.ofBytes (bs output)).below output.length)
    (hh : output.length = (decAt output.length [] 2 output).headerValue) : (verAt orig output).ver.inner.Inv :=
  Dec.afterHalt_inv (decAt output.length [] 2 output)
    { inWf := Memory.ofBytes_wf _
      inBelow := Memory.ofBytes_below _
      outWf := Memory.ofBytes_wf _
      outBelow := hw
      errNone := ⟨fun _ h => (by cases h), fun _ => rfl⟩
      errFailed := fun h => by cases h
      running := fun _ _ => ⟨rfl, hh, Nat.le_refl _, Nat.le_refl _, Nat.le_refl _, hw⟩
      done := fun h => by cases h }
    rfl ⟨rfl, hh, Nat.le_refl _, Nat.le_refl _, Nat.le_refl _, hw⟩ (.inl rfl)

/-- O53: a length mismatch, a content mismatch, and agreement. -/
theorem witness_VerifyComparesLengthThenContent :
    (let s := verAt [0x41, 0x42, 0x43] [0x41, 0x42]
     s.turn = .ver ∧ s.ver.status = .running ∧ s.ver.inner.Inv ∧ s.ver.inner.status = .done ∧
       s.ver.inner.outLen ≠ s.ver.origLen) ∧
    (let s := verAt [0x41, 0x42, 0x43] [0x41, 0, 0]
     s.turn = .ver ∧ s.ver.status = .running ∧ s.ver.inner.Inv ∧ s.ver.inner.status = .done ∧
       s.ver.inner.outLen = s.ver.origLen ∧ s.ver.differing = 1 :: [2]) ∧
    (let s := verAt [0x41] [0x41]
     s.turn = .ver ∧ s.ver.status = .running ∧ s.ver.inner.Inv ∧ s.ver.inner.status = .done ∧
       s.ver.inner.outLen = s.ver.origLen ∧ s.ver.differing = []) :=
  ⟨⟨rfl, rfl, verAt_inner_inv _ _ (by decide) (by decide), rfl, by decide⟩,
    ⟨rfl, rfl, verAt_inner_inv _ _ (by decide) (by decide), rfl, rfl, by decide⟩,
    ⟨rfl, rfl, verAt_inner_inv _ _ (by decide) (by decide), rfl, rfl, by decide⟩⟩

/-- O54: T7.6 at the end of the inner DEC's call. -/
theorem witness_VerifyPassesOnDecoderErrors :
    let s := onVer ((decBegin [0x03]).afterRaise .formatHeaderTooShort 0)
    s.turn = .ver ∧ s.ver.status = .running ∧ s.ver.inner.status = .failed := by decide

/-- O55: an original of 65536 bytes, and a candidate with no header. -/
theorem witness_OversizedOriginalNeverVerifies :
    ∃ s1 t, 65535 < (List.replicate 65536 (0 : Byte)).length ∧
      startVerify (List.replicate 65536 0) [] State.reset = .next s1 ∧ StepsTo 3 s1 t ∧ t.ver.status ≠ .running :=
  ⟨_, _, by rw [List.length_replicate]; decide, rfl, rfl, by decide⟩

/-- O57: a CMP that has emitted one ShortLiteral, and one at its header; both streams decode to the history. -/
theorem witness_EveryStepKeepsTheEmittedStreamDecodable :
    ((onCmp cmpP5).Inv ∧ (onCmp cmpP5).StreamInv ∧ (onCmp cmpP5).cmp.committed = 16) ∧
    ((onCmp cmpP4).Inv ∧ (onCmp cmpP4).StreamInv ∧ (onCmp cmpP4).cmp.committed = 0) := by
  refine ⟨⟨⟨Dec.reset_inv, cmpP5_inv, Ver.reset_inv⟩, fun _ => ?_, rfl⟩,
    ⟨⟨Dec.reset_inv, cmp_inv rfl rfl cmpP4_inLoop (by decide) (by decide), Ver.reset_inv⟩, fun _ => ?_, rfl⟩⟩
  · rw [show (onCmp cmpP5).cmp.csMem.toBytes (onCmp cmpP5).cmp.csLen = [24, 0] ++ ([0xDF] ++ bs (List.range 16)) from by decide,
      show (onCmp cmpP5).cmp.shadowMem.toBytes (onCmp cmpP5).cmp.committed = [] ++ bs (List.range 16) from by decide]
    exact (decodesTo_header 24 0).append (i := .shortLiteral 16) (by decide) (by decide) (by decide) (by decide) (by decide)
      (by decide) (by decide) (by decide)
  · rw [show (onCmp cmpP4).cmp.csMem.toBytes (onCmp cmpP4).cmp.csLen = [20, 0] from by decide]
    exact decodesTo_header 20 0

/-- O58: the sound states of O57, which accept a decode call, a verify call and an acknowledgement; and the reset state,
which accepts an encode call. -/
theorem witness_ResetAndHostMovesKeepSoundness :
    (∃ t, startDecode [0x05] (onCmp cmpP5) = .next t) ∧ (∃ t, startVerify [0x41] [0x05] (onCmp cmpP5) = .next t) ∧
    (∃ t, acknowledge .dec (onCmp cmpP5) = .next t) ∧
    (State.reset.StreamInv ∧ ∃ t, startEncode [0x41] State.reset = .next t) :=
  ⟨⟨_, rfl⟩, ⟨_, rfl⟩, ⟨_, rfl⟩, fun h => absurd h (by decide), ⟨_, rfl⟩⟩

/-- O59: a whole call (T6.2) from two different states. -/
theorem witness_EncodeResultDependsOnSourceOnly :
    ∃ s1 s1' t t', startEncode [0x41] State.reset = .next s1 ∧
      startEncode [0x41] (onCmp (cmpP5.afterRaise .inputTooLarge)) = .next s1' ∧ StepsTo 3 s1 t ∧ StepsTo 3 s1' t' ∧
      t.cmp.status ≠ .running ∧ t'.cmp.status ≠ .running :=
  ⟨_, _, _, _, rfl, rfl, rfl, rfl, by decide, by decide⟩

end Sys2Proof.Tests
end

/-! PROOFS of the statements of 10_state.md: what a step can write, CMP along an encode call, and the obligations O26,
O27, O31, O35, O36 and O48. -/

namespace Sys2Proof.Machine

/-! ### What a step can do, from any state -/

/-- An operation that may fault gives a next state exactly when it completes. -/
theorem outcomeOf_eq_next {α : Type} {x : Except Fault α} {k : α → State} {t : State} :
    outcomeOf x k = .next t ↔ ∃ a, x = .ok a ∧ t = k a := by
  cases x with
  | error f => simp [outcomeOf]
  | ok a => simp [outcomeOf, eq_comm]

/-- `raise` under `Agent.dec` writes the DEC that executes and the number of the next draw, and nothing else (R246). -/
theorem State.raise_dec_setCurDec (s : State) (d : Dec) (e : ErrCode) :
    (s.setCurDec d).raise .dec e =
      { s with freeSeed := s.freeSeed + 1 }.setCurDec (d.afterRaise e s.freeSeed) := by
  obtain ⟨turn, _, _, _, _⟩ := s
  cases turn <;> rfl

/-- A step of the DEC that executes writes that DEC and the number of the next draw, and nothing else. -/
theorem State.serveDec_next {s t : State} (h : s.serveDec = .next t) :
    ∃ d n, t = { s with freeSeed := n }.setCurDec d := by
  unfold State.serveDec at h
  split_ifs at h with hread hloop hshort
  · unfold State.instrStep at h
    cases hf : s.curDec.fetch with
    | error f => rw [hf] at h; cases h
    | ok fetched =>
      rw [hf] at h
      cases fetched with
      | raises e d => cases h; exact ⟨_, _, s.raise_dec_setCurDec d e⟩
      | instr i d =>
        obtain ⟨d', hexec, -⟩ := exec_next i (s.setCurDec d)
        cases hexec.symm.trans h
        exact ⟨d', s.freeSeed, State.setCurDec_setCurDec s d d'⟩
  · cases h; exact ⟨_, s.freeSeed, rfl⟩
  · cases h
    exact ⟨_, _, by rw [← State.raise_dec_setCurDec, State.setCurDec_curDec]⟩
  · obtain ⟨d, -, rfl⟩ := outcomeOf_eq_next.1 h
    exact ⟨d, s.freeSeed, rfl⟩

/-- A step of CMP writes CMP only. -/
theorem State.serveCmp_next {s t : State} (h : s.serveCmp = .next t) : ∃ c, t = { s with cmp := c } := by
  unfold State.serveCmp at h
  split_ifs at h
  · obtain ⟨c, -, rfl⟩ := outcomeOf_eq_next.1 h
    exact ⟨c, rfl⟩
  · obtain ⟨c, -, rfl⟩ := outcomeOf_eq_next.1 h
    exact ⟨c, rfl⟩
  · cases h; exact ⟨_, rfl⟩
  · obtain ⟨c, -, rfl⟩ := outcomeOf_eq_next.1 h
    exact ⟨c, rfl⟩

/-- A step of VER writes VER and the number of the next draw, and nothing else. -/
theorem State.serveVer_next {s t : State} (hturn : s.turn = .ver) (h : s.serveVer = .next t) :
    ∃ v n, t = { s with ver := v, freeSeed := n } := by
  unfold State.serveVer at h
  split at h
  · cases h; exact ⟨_, _, rfl⟩
  · obtain ⟨d, n, rfl⟩ := State.serveDec_next h
    exact ⟨_, n, State.setCurDec_of_ver (s := { s with freeSeed := n }) hturn d⟩
  · cases h; exact ⟨_, s.freeSeed, rfl⟩
  · unfold State.compareStep at h
    split at h
    · cases h; exact ⟨_, s.freeSeed, rfl⟩
    · split at h <;> cases h
      · exact ⟨_, s.freeSeed, rfl⟩
      · exact ⟨_, s.freeSeed, rfl⟩

/-- What one step that answers a next state can do, from any state, sound or not: the turn passes, or the unit whose
turn it is moves in its call and the other two stay as they are (R20, log 2). -/
theorem step_next {s t : State} (h : step s = .next t) :
    (s.statusOf s.turn ≠ .running ∧ t = { s with turn := s.nextTurn }) ∨
    (s.turn = .dec ∧ s.dec.status = .running ∧ ∃ d n, t = { s with dec := d, freeSeed := n }) ∨
    (s.turn = .cmp ∧ s.cmp.status = .running ∧ ∃ c, t = { s with cmp := c }) ∨
    (s.turn = .ver ∧ s.ver.status = .running ∧ ∃ v n, t = { s with ver := v, freeSeed := n }) := by
  by_cases hrun : s.statusOf s.turn = .running
  · have hturns : s.turn = .dec ∨ s.turn = .cmp ∨ s.turn = .ver := by cases s.turn <;> decide
    rcases hturns with hturn | hturn | hturn <;> rw [hturn] at hrun
    · rw [step_of_serving (.inl ⟨hturn, hrun⟩)] at h
      obtain ⟨d, n, rfl⟩ := State.serveDec_next h
      exact .inr (.inl ⟨hturn, hrun, d, n, State.setCurDec_of_dec (s := { s with freeSeed := n }) hturn d⟩)
    · rw [step_of_cmp hturn hrun] at h
      exact .inr (.inr (.inl ⟨hturn, hrun, State.serveCmp_next h⟩))
    · rw [step_of_ver hturn hrun] at h
      exact .inr (.inr (.inr ⟨hturn, hrun, State.serveVer_next hturn h⟩))
  · rw [step_of_not_running hrun] at h
    cases h
    exact .inl ⟨hrun, rfl⟩

/-! ### The source and the invariant of CMP along a run -/

/-- A step of a sound CMP in its call keeps its invariant and its source. -/
theorem State.serveCmp_keeps_call {s t : State} (hc : s.cmp.Inv) (hr : s.cmp.status = .running)
    (h : s.serveCmp = .next t) : t.cmp.Inv ∧ t.cmp.srcMem = s.cmp.srcMem ∧ t.cmp.srcLen = s.cmp.srcLen := by
  have hinv : t.cmp.Inv := by
    rcases s.serveCmp_cases hc hr with ⟨c, hnext, hcInv⟩ | ⟨hnext, hsize⟩
    · cases hnext.symm.trans h; exact hcInv
    · cases hnext.symm.trans h; exact s.cmp.afterRaise_inv hc hsize
  refine ⟨hinv, ?_⟩
  unfold State.serveCmp at h
  split_ifs at h with hwritten hcur hsize
  · obtain ⟨c, hstep, -, -, hmem, hlen, -⟩ := s.cmp.cmpStep_spec hc.stored (hc.running hr hwritten) hcur
    rw [hstep] at h
    cases h; exact ⟨hmem, hlen⟩
  · obtain ⟨hfinish, -⟩ := s.cmp.finish_spec hc.stored (hc.running hr hwritten) (Nat.not_lt.1 hcur)
      (hc.errNone.2 (by simp [hr]))
    rw [hfinish] at h
    obtain ⟨hmem, hlen, -⟩ := s.cmp.flushed_fields
    cases h; exact ⟨hmem, hlen⟩
  · cases h; exact ⟨rfl, rfl⟩
  · obtain ⟨c, hstep, -, -, hmem, hlen, -⟩ := s.cmp.headerStep_spec hc.stored (Nat.not_lt.1 hsize)
    rw [hstep] at h
    cases h; exact ⟨hmem, hlen⟩

/-- Every step keeps the invariant and the source of CMP, whatever the other units hold. -/
theorem step_keeps_cmp_call {s t : State} (hc : s.cmp.Inv) (h : step s = .next t) :
    t.cmp.Inv ∧ t.cmp.srcMem = s.cmp.srcMem ∧ t.cmp.srcLen = s.cmp.srcLen := by
  rcases step_next h with ⟨-, rfl⟩ | ⟨-, -, _, _, rfl⟩ | ⟨hturn, hrun, -⟩ | ⟨-, -, _, _, rfl⟩
  · exact ⟨hc, rfl, rfl⟩
  · exact ⟨hc, rfl, rfl⟩
  · rw [step_of_cmp hturn hrun] at h
    exact State.serveCmp_keeps_call hc hrun h
  · exact ⟨hc, rfl, rfl⟩

/-- Every run of steps keeps the invariant and the source of CMP. -/
theorem stepsTo_keeps_cmp_call {k : Nat} {s t : State} (hc : s.cmp.Inv) (h : StepsTo k s t) :
    t.cmp.Inv ∧ t.cmp.srcMem = s.cmp.srcMem ∧ t.cmp.srcLen = s.cmp.srcLen := by
  induction k generalizing s with
  | zero => rw [stepsTo_zero] at h; subst h; exact ⟨hc, rfl, rfl⟩
  | succ k ih =>
    obtain ⟨u, hstep, hrest⟩ := stepsTo_succ.1 h
    obtain ⟨hu, humem, hulen⟩ := step_keeps_cmp_call hc hstep
    obtain ⟨ht, htmem, htlen⟩ := ih hu hrest
    exact ⟨ht, htmem.trans humem, htlen.trans hulen⟩

/-- In every state after the start of an encode call, CMP is sound and its source is the host's. -/
theorem encodeCall_cmp {source : List Byte} {s s1 t : State} {k : Nat} (hstart : startEncode source s = .next s1)
    (hrun : StepsTo k s1 t) :
    t.cmp.Inv ∧ t.cmp.srcMem = Memory.ofBytes source ∧ t.cmp.srcLen = source.length := by
  obtain ⟨-, rfl⟩ := startEncode_cases hstart
  exact stepsTo_keeps_cmp_call (Cmp.begin_inv _ _ (Memory.ofBytes_wf _) (Memory.ofBytes_below _)) hrun

/-! ### The result of an encode call -/

/-- An encode call has a result exactly when it is DONE, and the result is `CS[0..cs_len)` (R37). -/
theorem cmpResult_eq_ok {c : Cmp} {bytes : List Byte} :
    cmpResult c = some (.ok bytes) ↔ c.status = .done ∧ bytes = c.csMem.toBytes c.csLen := by
  unfold cmpResult
  cases c.status <;> simp [eq_comm]

/-- The first two bytes of a memory. -/
theorem Memory.toBytes_take_two (m : Memory) {n : Nat} (h : 2 ≤ n) : (m.toBytes n).take 2 = [m.read 0, m.read 1] := by
  obtain ⟨k, rfl⟩ := Nat.exists_eq_add_of_le h
  rw [Memory.toBytes_add, List.take_left' (Memory.toBytes_length m 2)]
  rfl

/-- A sound CMP that is DONE holds a whole stream: its length is bounded by R36, and it begins with the little-endian
source length (R64). -/
theorem Cmp.Finished.stream_bound_and_header {c : Cmp} (h : c.Finished) :
    c.csLen ≤ 69633 ∧
    (c.csMem.toBytes c.csLen).take 2 = [BitVec.ofNat 8 c.srcLen, BitVec.ofNat 8 (c.srcLen / 256)] := by
  have hsrc : c.srcLen ≤ 65535 := h.srcMax
  have hcs := h.csHigh
  exact ⟨by omega, by rw [Memory.toBytes_take_two _ h.csLow, h.header0, h.header1]⟩

/-! ### The obligations -/

/-- Settles O26: with no unit RUNNING, a step only passes the turn, and from reset it passes to DEC, which has it. -/
theorem resetIsIdle : Obligations.ResetIsIdle := by
  have hidle : State.reset.statusOf State.reset.turn ≠ .running := by decide
  exact ⟨rfl, rfl, rfl, rfl, rfl, rfl, rfl, rfl, step_of_not_running hidle⟩

/-- Settles O27, unit by unit. -/
theorem resetIsSound : Obligations.ResetIsSound := ⟨Dec.reset_inv, Cmp.reset_inv, Ver.reset_inv⟩

/-- Settles O31: whichever unit the step serves, it writes no other. -/
theorem stepServesOneUnit : Obligations.StepServesOneUnit := by
  unfold Obligations.StepServesOneUnit
  intro s t h
  rcases step_next h with ⟨-, rfl⟩ | ⟨hturn, -, d, n, rfl⟩ | ⟨hturn, -, c, rfl⟩ | ⟨hturn, -, v, n, rfl⟩
  · exact ⟨fun _ => rfl, fun _ => rfl, fun _ => rfl⟩
  · exact ⟨fun hne => absurd hturn hne, fun _ => rfl, fun _ => rfl⟩
  · exact ⟨fun _ => rfl, fun hne => absurd hturn hne, fun _ => rfl⟩
  · exact ⟨fun _ => rfl, fun _ => rfl, fun hne => absurd hturn hne⟩

/-- Settles O35: the unit a call starts is made of the host's bytes and of the draw `freeSeed`, and of nothing else. -/
theorem callStartsFromItsInputOnly : Obligations.CallStartsFromItsInputOnly := by
  unfold Obligations.CallStartsFromItsInputOnly
  refine ⟨fun input s t h => ?_, fun source s t h => ?_, fun original candidate s t h => ?_⟩
  · obtain ⟨-, rfl⟩ := startDecode_cases h
    refine ⟨rfl, rfl, rfl, rfl, Memory.toBytes_ofBytes input, rfl, rfl, fun s' t' h' hdraw => ?_⟩
    obtain ⟨-, rfl⟩ := startDecode_cases h'
    simp only [Dec.begin, hdraw]
  · obtain ⟨-, rfl⟩ := startEncode_cases h
    refine ⟨rfl, rfl, rfl, rfl, Memory.toBytes_ofBytes source, rfl, rfl, fun s' t' h' hdraw => ?_⟩
    obtain ⟨-, rfl⟩ := startEncode_cases h'
    simp only [Cmp.begin, hdraw]
  · obtain ⟨-, rfl⟩ := startVerify_cases h
    refine ⟨rfl, rfl, rfl, rfl, Memory.toBytes_ofBytes original, rfl, Memory.toBytes_ofBytes candidate, rfl, rfl,
      fun s' t' h' hdraw => ?_⟩
    obtain ⟨-, rfl⟩ := startVerify_cases h'
    simp only [Ver.begin, hdraw]

/-- Settles O36: there is nothing to acknowledge on an IDLE unit, and an ended one is put between calls, alone. -/
theorem acknowledgeReturnsToIdle : Obligations.AcknowledgeReturnsToIdle := by
  unfold Obligations.AcknowledgeReturnsToIdle
  intro u s t h
  rcases acknowledge_cases h with ⟨hidle, rfl⟩ | ⟨-, rfl⟩
  · exact ⟨hidle, rfl, fun _ => rfl, fun _ => rfl, fun _ => rfl, fun hne => absurd hidle hne⟩
  · cases u <;> simp [State.statusOf]

/-- Settles O48: the invariant of CMP holds along the call, and says of a CMP that is DONE what R36 says. -/
theorem compressedLengthBound : Obligations.CompressedLengthBound := by
  unfold Obligations.CompressedLengthBound
  intro source bytes s s1 t k hstart hrun hresult
  obtain ⟨hinv, -, hlen⟩ := encodeCall_cmp hstart hrun
  obtain ⟨hdone, rfl⟩ := cmpResult_eq_ok.1 hresult
  have hfin := hinv.done hdone
  obtain ⟨hmax, hheader⟩ := hfin.stream_bound_and_header
  rw [Memory.toBytes_length, ← hlen]
  exact ⟨rfl, hfin.csLow, hfin.csHigh, hmax, hheader⟩

end Sys2Proof.Machine

/-! PROOFS of the statements of 20_memory.md: what a step does from a sound state, what a host move does to a sound
state, what no step writes, and the obligations O28, O29 and O32. -/

namespace Sys2Proof.Machine

/-! ### VER at the end of a call: its invariant -/

/-- The error of a failed inner DEC, passed on (R231). -/
theorem Ver.afterRaise_innerErr_inv {v : Ver} (hv : v.Inv) (hinner : v.inner.status = .failed) :
    (v.afterRaise v.inner.err).Inv where
  origWf := hv.origWf
  origBelow := hv.origBelow
  inner := hv.inner
  errNone := by
    have herr : v.inner.err ≠ .none := fun h => hv.inner.errNone.1 h hinner
    simp [herr]
  failed := fun _ => .inr ⟨hinner, rfl⟩
  done := fun h => by cases h

/-- VerificationMismatchError, raised with registers that report it (R233). -/
theorem Ver.afterRaise_mismatch_inv {v : Ver} (hv : v.Inv) {kind : MismatchKind} {first count : Nat}
    (hreported : ((v.report kind first count).afterRaise .verifyMismatch).Reported) :
    ((v.report kind first count).afterRaise .verifyMismatch).Inv where
  origWf := hv.origWf
  origBelow := hv.origBelow
  inner := hv.inner
  errNone := by simp
  failed := fun _ => .inl ⟨rfl, hreported⟩
  done := fun h => by cases h

/-- What R231 writes to the five registers when the lengths differ. -/
theorem Ver.report_length_reported {v : Ver} (hinner : v.inner.status = .done) (hlen : v.inner.outLen ≠ v.origLen) :
    ((v.report .length (min v.origLen v.inner.outLen) 0).afterRaise .verifyMismatch).Reported where
  innerDone := hinner
  expectedLen := rfl
  actualLen := rfl
  length := fun _ => ⟨hlen.symm, rfl, rfl⟩
  content := fun h => by cases h

/-- What R231 writes to the five registers when the contents differ: the first differing index, and their number. -/
theorem Ver.report_content_reported {v : Ver} {first : Nat} {rest : List Nat} (hinner : v.inner.status = .done)
    (hlen : v.inner.outLen = v.origLen) (hdiff : v.differing = first :: rest) :
    ((v.report .content first (rest.length + 1)).afterRaise .verifyMismatch).Reported where
  innerDone := hinner
  expectedLen := rfl
  actualLen := rfl
  length := fun h => by cases h
  content := fun _ => by
    have hdiff' : ((v.report .content first (rest.length + 1)).afterRaise .verifyMismatch).differing = first :: rest :=
      hdiff
    rw [hdiff']
    exact ⟨hlen.symm, rfl, rfl⟩

/-- `halt(DONE)` of VER, when nothing differs (R231). -/
theorem Ver.verified_inv {v : Ver} (hv : v.Inv) (hrun : v.status = .running) (hinner : v.inner.status = .done)
    (hlen : v.inner.outLen = v.origLen) (hdiff : v.differing = []) : ({ v with status := .done } : Ver).Inv where
  origWf := hv.origWf
  origBelow := hv.origBelow
  inner := hv.inner
  errNone := by simpa using hv.errNone.2 (by simp [hrun])
  failed := fun h => by cases h
  done := fun _ => ⟨hinner, hlen, hdiff⟩

/-! ### A step of each unit from a sound state -/

/-- A step of a sound DEC in its call completes and keeps the DEC sound. -/
theorem State.serveDec_sound (s : State) (hd : s.curDec.Inv) (hrun : s.curDec.status = .running) :
    ∃ d n, s.serveDec = .next ({ s with freeSeed := n }.setCurDec d) ∧ d.Inv := by
  rcases s.serveDec_cases hd hrun with ⟨d, hnext, hd'⟩ | ⟨d, e, hnext, hd', he⟩
  · exact ⟨d, s.freeSeed, hnext, hd'⟩
  · rw [State.raise_dec_setCurDec] at hnext
    exact ⟨_, _, hnext, d.afterRaise_inv e _ hd' he⟩

/-- A step of a sound CMP in its call completes and keeps the CMP sound. -/
theorem State.serveCmp_sound (s : State) (hc : s.cmp.Inv) (hrun : s.cmp.status = .running) :
    ∃ c, s.serveCmp = .next { s with cmp := c } ∧ c.Inv := by
  rcases s.serveCmp_cases hc hrun with hnext | ⟨hnext, hsize⟩
  · exact hnext
  · exact ⟨_, hnext, s.cmp.afterRaise_inv hc hsize⟩

/-- The comparison (R231) completes: the inner DEC that is DONE has declared as many bytes as it reports, so every byte
compared lies in its space. -/
theorem State.compareStep_sound (s : State) (hv : s.ver.Inv) (hrun : s.ver.status = .running)
    (hinner : s.ver.inner.status = .done) : ∃ v, s.compareStep = .next { s with ver := v } ∧ v.Inv := by
  unfold State.compareStep
  by_cases hlen : s.ver.inner.outLen = s.ver.origLen
  · have hsize : s.ver.origLen ≤ s.ver.inner.declaredSize := by
      rw [← hlen, (hv.inner.done hinner).outLen]
    rw [if_neg (not_not.2 hlen), Ver.mismatches_all _ hsize]
    cases hdiff : s.ver.differing with
    | nil => exact ⟨_, rfl, Ver.verified_inv hv hrun hinner hlen hdiff⟩
    | cons first rest =>
      exact ⟨_, rfl, Ver.afterRaise_mismatch_inv hv (Ver.report_content_reported hinner hlen hdiff)⟩
  · rw [if_pos hlen]
    exact ⟨_, rfl, Ver.afterRaise_mismatch_inv hv (Ver.report_length_reported hinner hlen)⟩

/-- A step of a sound VER in its call completes and keeps the VER sound, wherever its inner DEC stands. -/
theorem State.serveVer_sound (s : State) (hturn : s.turn = .ver) (hv : s.ver.Inv) (hrun : s.ver.status = .running) :
    ∃ v n, s.serveVer = .next { s with ver := v, freeSeed := n } ∧ v.Inv := by
  unfold State.serveVer
  cases hinner : s.ver.inner.status with
  | idle =>
    have hbegun := s.ver.inner.begin_inv s.freeSeed hv.inner.inWf hv.inner.inBelow
    exact ⟨_, _, rfl, s.ver.setInner_inv _ hv hrun hbegun⟩
  | running =>
    have hcur := State.curDec_of_ver hturn
    obtain ⟨d, n, hnext, hd⟩ := s.serveDec_sound (hcur ▸ hv.inner) (hcur ▸ hinner)
    rw [State.setCurDec_of_ver (s := { s with freeSeed := n }) hturn d] at hnext
    exact ⟨_, n, hnext, s.ver.setInner_inv d hv hrun hd⟩
  | done =>
    obtain ⟨v, hnext, hv'⟩ := s.compareStep_sound hv hrun hinner
    exact ⟨v, s.freeSeed, hnext, hv'⟩
  | failed => exact ⟨_, s.freeSeed, rfl, Ver.afterRaise_innerErr_inv hv hinner⟩

/-! ### The host's moves from a sound state -/

theorem startDecode_inv {input : List Byte} {s t : State} (hs : s.Inv) (h : startDecode input s = .next t) : t.Inv := by
  obtain ⟨-, rfl⟩ := startDecode_cases h
  exact { hs with dec := Dec.begin_inv _ _ (Memory.ofBytes_wf input) (Memory.ofBytes_below input) }

theorem startEncode_inv {source : List Byte} {s t : State} (hs : s.Inv) (h : startEncode source s = .next t) : t.Inv := by
  obtain ⟨-, rfl⟩ := startEncode_cases h
  exact { hs with cmp := Cmp.begin_inv _ _ (Memory.ofBytes_wf source) (Memory.ofBytes_below source) }

theorem startVerify_inv {original candidate : List Byte} {s t : State} (hs : s.Inv)
    (h : startVerify original candidate s = .next t) : t.Inv := by
  obtain ⟨-, rfl⟩ := startVerify_cases h
  exact { hs with
    ver := Ver.begin_inv _ _ (Memory.ofBytes_wf original) (Memory.ofBytes_below original)
      (Memory.ofBytes_wf candidate) (Memory.ofBytes_below candidate) }

theorem acknowledge_inv {u : Agent} {s t : State} (hs : s.Inv) (h : acknowledge u s = .next t) : t.Inv := by
  rcases acknowledge_cases h with ⟨-, rfl⟩ | ⟨-, rfl⟩
  · exact hs
  · cases u with
    | dec => exact { hs with dec := Dec.unspecified_inv _ }
    | cmp => exact { hs with cmp := Cmp.unspecified_inv _ }
    | ver => exact { hs with ver := Ver.unspecified_inv _ }

/-! ### The input of a DEC, in any state -/

/-- `IN` with `in_len`: what the host hands to a decode call (R60). -/
def Dec.input (d : Dec) : Memory × Nat := (d.inMem, d.inLen)

theorem Dec.input_eq_iff {d d' : Dec} : d'.input = d.input ↔ d'.inMem = d.inMem ∧ d'.inLen = d.inLen := Prod.mk_inj

theorem Dec.execCopy_input {d d' : Dec} {length offset : Nat} (h : d.execCopy length offset = .ok d') :
    d'.input = d.input := by
  obtain ⟨m, hcopy, -⟩ := d.execCopy_spec length offset
  cases hcopy.symm.trans h; rfl

theorem Dec.execLiteral_input {d d' : Dec} {length : Nat} (h : d.execLiteral length = .ok d') :
    d'.input = d.input := by
  cases (d.execLiteral_eq length).symm.trans h; rfl

/-- Every instruction leaves the input of the DEC that executes as it is (R76). -/
theorem exec_input {i : Instr} {s t : State} (h : exec i s = .next t) : t.curDec.input = s.curDec.input := by
  obtain ⟨d, hexec, hd⟩ := exec_next i s
  cases hexec.symm.trans h
  rw [State.curDec_setCurDec]
  rcases hd with ⟨length, offset, hcopy⟩ | ⟨length, hliteral⟩
  · exact Dec.execCopy_input hcopy
  · exact Dec.execLiteral_input hliteral

theorem Dec.headerStep_input {d d' : Dec} (h : d.headerStep = .ok d') : d'.input = d.input := by
  unfold Dec.headerStep at h
  split at h <;> cases h
  rfl

/-- A step of the DEC that executes leaves its input as it is, whether it executes, raises, halts or reads the header. -/
theorem State.serveDec_input {s t : State} (h : s.serveDec = .next t) : t.curDec.input = s.curDec.input := by
  unfold State.serveDec at h
  split_ifs at h with hread hloop hshort
  · unfold State.instrStep at h
    rcases s.curDec.fetch_cases hloop.2 with ⟨i, rest, -, -, hfetch⟩ | ⟨-, hfetch⟩ <;> rw [hfetch] at h
    · rw [exec_input h, State.curDec_setCurDec]; rfl
    · cases h
      rw [State.raise_dec_curDec, State.curDec_setCurDec]; rfl
  · cases h
    rw [State.curDec_setCurDec]; rfl
  · cases h
    rw [State.raise_dec_curDec]; rfl
  · obtain ⟨d, hheader, rfl⟩ := outcomeOf_eq_next.1 h
    rw [State.curDec_setCurDec]
    exact Dec.headerStep_input hheader

/-! ### The source of CMP, in any state -/

/-- `SRC` with `src_len`: what the host hands to an encode call (R60). -/
def Cmp.source (c : Cmp) : Memory × Nat := (c.srcMem, c.srcLen)

theorem Cmp.source_eq_iff {c c' : Cmp} : c'.source = c.source ↔ c'.srcMem = c.srcMem ∧ c'.srcLen = c.srcLen :=
  Prod.mk_inj

theorem Cmp.appendCs_source {c c' : Cmp} {b : Byte} (h : c.appendCs b = .ok c') : c'.source = c.source := by
  unfold Cmp.appendCs at h
  split at h <;> cases h
  rfl

theorem Cmp.appendShadow_source {c c' : Cmp} {b : Byte} (h : c.appendShadow b = .ok c') : c'.source = c.source := by
  unfold Cmp.appendShadow at h
  split at h <;> cases h
  rfl

theorem Cmp.appendPend_source {c c' : Cmp} {b : Byte} (h : c.appendPend b = .ok c') : c'.source = c.source := by
  unfold Cmp.appendPend at h
  split at h <;> cases h
  rfl

theorem Cmp.appendCsAll_source {bytes : List Byte} {c c' : Cmp} (h : c.appendCsAll bytes = .ok c') :
    c'.source = c.source := by
  induction bytes generalizing c with
  | nil => cases h; rfl
  | cons b rest ih =>
    unfold Cmp.appendCsAll at h
    split at h
    next c1 hb => exact (ih h).trans (Cmp.appendCs_source hb)
    next => cases h

theorem Cmp.flushLoop_source {n j : Nat} {c c' : Cmp} (h : Cmp.flushLoop n j c = .ok c') : c'.source = c.source := by
  induction n generalizing j c with
  | zero => cases h; rfl
  | succ n ih =>
    unfold Cmp.flushLoop at h
    split at h
    next => cases h
    next b _ =>
      split at h
      next => cases h
      next c1 hcs =>
        split at h
        next => cases h
        next c2 hshadow =>
          exact (ih h).trans ((Cmp.appendShadow_source hshadow).trans (Cmp.appendCs_source hcs))

theorem Cmp.flush_source {c c' : Cmp} (h : c.flush = .ok c') : c'.source = c.source := by
  unfold Cmp.flush at h
  split at h
  · split at h
    next => cases h
    next c1 hcs =>
      split at h
      next => cases h
      next c2 hloop =>
        cases h
        exact (Cmp.flushLoop_source hloop).trans (Cmp.appendCsAll_source hcs)
  · cases h; rfl

theorem Cmp.shadowLoop_source {n p : Nat} {c c' : Cmp} (h : Cmp.shadowLoop n p c = .ok c') : c'.source = c.source := by
  induction n generalizing p c with
  | zero => cases h; rfl
  | succ n ih =>
    unfold Cmp.shadowLoop at h
    split at h
    next => cases h
    next b _ =>
      split at h
      next => cases h
      next c1 hshadow => exact (ih h).trans (Cmp.appendShadow_source hshadow)

theorem Cmp.emitCopy_source {c c' : Cmp} {m : Match} (h : c.emitCopy m = .ok c') : c'.source = c.source := by
  unfold Cmp.emitCopy at h
  split at h
  next => cases h
  next c1 hflush =>
    split at h
    next => cases h
    next c2 hcs =>
      split at h
      next => cases h
      next c3 hloop =>
        cases h
        exact (Cmp.shadowLoop_source hloop).trans ((Cmp.appendCsAll_source hcs).trans (Cmp.flush_source hflush))

theorem Cmp.pushLiteral_source {c c' : Cmp} (h : c.pushLiteral = .ok c') : c'.source = c.source := by
  unfold Cmp.pushLiteral at h
  split at h
  next => cases h
  next b _ =>
    split at h
    next => cases h
    next c1 hpend =>
      have hc1 := Cmp.appendPend_source hpend
      split at h
      · exact (Cmp.flush_source h).trans hc1
      · cases h
        exact hc1

theorem Cmp.cmpStep_source {c c' : Cmp} (h : c.cmpStep = .ok c') : c'.source = c.source := by
  unfold Cmp.cmpStep at h
  split at h
  next => cases h
  next => exact Cmp.pushLiteral_source h
  next m _ => exact Cmp.emitCopy_source h

theorem Cmp.finish_source {c c' : Cmp} (h : c.finish = .ok c') : c'.source = c.source := by
  unfold Cmp.finish at h
  split at h
  next => cases h
  next c1 hflush =>
    have hc1 := Cmp.flush_source hflush
    cases h
    exact hc1

theorem Cmp.headerStep_source {c c' : Cmp} (h : c.headerStep = .ok c') : c'.source = c.source := by
  unfold Cmp.headerStep at h
  have hcs := Cmp.appendCsAll_source h
  exact hcs

/-- A step of CMP leaves its source as it is. -/
theorem State.serveCmp_source {s t : State} (h : s.serveCmp = .next t) : t.cmp.source = s.cmp.source := by
  unfold State.serveCmp at h
  split_ifs at h
  · obtain ⟨c, hstep, rfl⟩ := outcomeOf_eq_next.1 h
    exact Cmp.cmpStep_source hstep
  · obtain ⟨c, hfinish, rfl⟩ := outcomeOf_eq_next.1 h
    exact Cmp.finish_source hfinish
  · cases h; rfl
  · obtain ⟨c, hheader, rfl⟩ := outcomeOf_eq_next.1 h
    exact Cmp.headerStep_source hheader

/-! ### The inputs of VER, in any state -/

/-- `ORIG` with `orig_len`, and `CAND` with `cand_len`: what the host hands to a verify call (R60). -/
def Ver.inputs (v : Ver) : (Memory × Nat) × (Memory × Nat) := ((v.origMem, v.origLen), v.inner.input)

theorem Ver.inputs_eq_iff {v v' : Ver} :
    v'.inputs = v.inputs ↔ v'.origMem = v.origMem ∧ v'.origLen = v.origLen ∧ v'.inner.inMem = v.inner.inMem ∧
      v'.inner.inLen = v.inner.inLen := by
  simp [Ver.inputs, Dec.input, and_assoc]

theorem State.compareStep_inputs {s t : State} (h : s.compareStep = .next t) : t.ver.inputs = s.ver.inputs := by
  unfold State.compareStep at h
  split at h
  · cases h; rfl
  · split at h <;> cases h <;> rfl

/-- A step of VER leaves its inputs as they are: the inner DEC reads `CAND` only, as any DEC does its input. -/
theorem State.serveVer_inputs {s t : State} (hturn : s.turn = .ver) (h : s.serveVer = .next t) :
    t.ver.inputs = s.ver.inputs := by
  unfold State.serveVer at h
  split at h
  next => cases h; rfl
  next =>
    have hinput := State.serveDec_input h
    obtain ⟨d, n, rfl⟩ := State.serveDec_next h
    have hset := State.setCurDec_of_ver (s := { s with freeSeed := n }) hturn d
    rw [State.curDec_setCurDec, State.curDec_of_ver hturn] at hinput
    rw [hset]
    exact congrArg (Prod.mk _) hinput
  next => cases h; rfl
  next => exact State.compareStep_inputs h

/-! ### The obligations -/

/-- Settles O28: the turn passes, or the unit whose turn it is takes its step; the other units stay as they are. -/
theorem soundStateStepsToSoundState : Obligations.SoundStateStepsToSoundState := by
  unfold Obligations.SoundStateStepsToSoundState
  intro s hs
  by_cases hrun : s.statusOf s.turn = .running
  · cases hturn : s.turn <;> rw [hturn] at hrun
    case dec =>
      have hcur := State.curDec_of_dec hturn
      obtain ⟨d, n, hnext, hd⟩ := s.serveDec_sound (hcur ▸ hs.dec) (hcur ▸ hrun)
      rw [State.setCurDec_of_dec (s := { s with freeSeed := n }) hturn d] at hnext
      exact ⟨_, (step_of_serving (.inl ⟨hturn, hrun⟩)).trans hnext, { hs with dec := hd }⟩
    case cmp =>
      obtain ⟨c, hnext, hc⟩ := s.serveCmp_sound hs.cmp hrun
      exact ⟨_, (step_of_cmp hturn hrun).trans hnext, { hs with cmp := hc }⟩
    case ver =>
      obtain ⟨v, n, hnext, hv⟩ := s.serveVer_sound hturn hs.ver hrun
      exact ⟨_, (step_of_ver hturn hrun).trans hnext, { hs with ver := hv }⟩
  · exact ⟨_, step_of_not_running hrun, ⟨hs.dec, hs.cmp, hs.ver⟩⟩

/-- Settles O29, by induction on the run: the reset state is sound (O27), and a step (O28) or a host move from a sound
state gives a sound state. -/
theorem reachableStatesAreSound : Obligations.ReachableStatesAreSound := by
  unfold Obligations.ReachableStatesAreSound
  intro s hreach
  induction hreach with
  | reset => exact resetIsSound
  | step _ hstep hs =>
    obtain ⟨t, hnext, ht⟩ := soundStateStepsToSoundState _ hs
    cases hnext.symm.trans hstep
    exact ht
  | startDecode input _ hstart hs => exact startDecode_inv hs hstart
  | startEncode source _ hstart hs => exact startEncode_inv hs hstart
  | startVerify original candidate _ hstart hs => exact startVerify_inv hs hstart
  | acknowledge u _ hack hs => exact acknowledge_inv hs hack

/-- Settles O32: a step writes the unit it serves only, and each unit leaves its own input as it is. -/
theorem inputsAreNeverWritten : Obligations.InputsAreNeverWritten := by
  unfold Obligations.InputsAreNeverWritten
  intro s t h
  suffices hkeep : t.dec.input = s.dec.input ∧ t.cmp.source = s.cmp.source ∧ t.ver.inputs = s.ver.inputs by
    obtain ⟨hdec, hcmp, hver⟩ := hkeep
    obtain ⟨hin, hinLen⟩ := Dec.input_eq_iff.1 hdec
    obtain ⟨hsrc, hsrcLen⟩ := Cmp.source_eq_iff.1 hcmp
    exact ⟨hin, hinLen, hsrc, hsrcLen, Ver.inputs_eq_iff.1 hver⟩
  rcases step_next h with ⟨-, rfl⟩ | ⟨hturn, hrun, d, n, rfl⟩ | ⟨hturn, hrun, c, rfl⟩ | ⟨hturn, hrun, v, n, rfl⟩
  · exact ⟨rfl, rfl, rfl⟩
  · rw [step_of_serving (.inl ⟨hturn, hrun⟩)] at h
    have hinput := State.serveDec_input h
    rw [State.curDec_of_dec hturn, State.curDec_of_dec (s := { s with dec := d, freeSeed := n }) hturn] at hinput
    exact ⟨hinput, rfl, rfl⟩
  · rw [step_of_cmp hturn hrun] at h
    exact ⟨rfl, State.serveCmp_source h, rfl⟩
  · rw [step_of_ver hturn hrun] at h
    exact ⟨rfl, rfl, State.serveVer_inputs hturn h⟩

end Sys2Proof.Machine

/-! PROOFS of the statements of 30_encoding.md: the opcode map, what decoding answers and from which bytes, the packing of
each form against its fields, and the obligations O1 to O7. -/

namespace Sys2Proof

/-! ### The opcode map (R101) -/

/-- The first opcode of a form in the opcode map (R101). -/
def Form.firstOpcode : Form → Nat
  | .shortCopy => 0x00
  | .medCopy => 0x40
  | .longCopy => 0x80
  | .extCopy => 0xC0
  | .shortLiteral => 0xD0
  | .longLiteral => 0xE0

/-- The last opcode of a form in the opcode map (R101). -/
def Form.lastOpcode : Form → Nat
  | .shortCopy => 0x3F
  | .medCopy => 0x7F
  | .longCopy => 0xBF
  | .extCopy => 0xCF
  | .shortLiteral => 0xDF
  | .longLiteral => 0xFF

/-- An opcode has a form exactly when it lies in the form's range (R101). -/
theorem formOf_eq_some_iff {cmd : Byte} {form : Form} :
    formOf cmd = some form ↔ form.firstOpcode ≤ cmd.toNat ∧ cmd.toNat ≤ form.lastOpcode := by
  constructor
  · intro h
    have hcmd := cmd.isLt
    unfold formOf bits at h
    simp only at h
    split_ifs at h <;> cases h <;> simp only [Form.firstOpcode, Form.lastOpcode] <;> omega
  · rintro ⟨hfirst, hlast⟩
    obtain ⟨hsc, hmc, hlc, hec, hsl, hll⟩ := formOf_of_range cmd
    cases form with
    | shortCopy => exact hsc (Nat.lt_succ_of_le hlast)
    | medCopy => exact hmc hfirst (Nat.lt_succ_of_le hlast)
    | longCopy => exact hlc hfirst (Nat.lt_succ_of_le hlast)
    | extCopy => exact hec hfirst (Nat.lt_succ_of_le hlast)
    | shortLiteral => exact hsl hfirst (Nat.lt_succ_of_le hlast)
    | longLiteral => exact hll hfirst

/-- The number of opcodes of a form is the width of its range (R101). -/
theorem opcode_count (form : Form) :
    ((List.range 256).filter (fun n => formOf (BitVec.ofNat 8 n) == some form)).length =
      form.lastOpcode + 1 - form.firstOpcode := by
  cases form <;> decide

/-- One row of the opcode map: a mask that picks out the form's range picks out its opcodes. -/
theorem opcodeMap_row (form : Form) {mask code : Byte}
    (hmask : ∀ cmd : Byte, form.firstOpcode ≤ cmd.toNat ∧ cmd.toNat ≤ form.lastOpcode ↔ cmd &&& mask = code) :
    (∀ cmd : Byte, (formOf cmd = some form ↔ form.firstOpcode ≤ cmd.toNat ∧ cmd.toNat ≤ form.lastOpcode) ∧
      (formOf cmd = some form ↔ cmd &&& mask = code)) ∧
    ((List.range 256).filter (fun n => formOf (BitVec.ofNat 8 n) == some form)).length =
      form.lastOpcode + 1 - form.firstOpcode :=
  ⟨fun cmd => ⟨formOf_eq_some_iff, formOf_eq_some_iff.trans (hmask cmd)⟩, opcode_count form⟩

/-! ### What decoding answers, and from which bytes -/

/-- An opcode with exactly the extra bytes of its form decodes, and what follows them is left over (R105). -/
theorem decode_fixedPart {cmd : Byte} {extra : List Byte} {form : Form} (hform : formOf cmd = some form)
    (hextra : extra.length = form.extraBytes) (rest : List Byte) :
    decode (cmd :: (extra ++ rest)) =
      .ok (decodeForm form cmd.toNat (extra.getD 0 0).toNat (extra.getD 1 0).toNat, rest) := by
  rw [decode_of_form cmd _ form hform (by simp; omega), ← Machine.decodeForm_take, List.take_left' hextra,
    List.drop_left' hextra]

/-- Bytes that decode are an opcode, the extra bytes of its form and what is left over. -/
theorem fixedPart_of_decode {bytes rest : List Byte} {i : Instr} (h : decode bytes = .ok (i, rest)) :
    ∃ cmd extra form, bytes = cmd :: (extra ++ rest) ∧ formOf cmd = some form ∧ extra.length = form.extraBytes ∧
      i = decodeForm form cmd.toNat (extra.getD 0 0).toNat (extra.getD 1 0).toNat := by
  cases bytes with
  | nil => cases h
  | cons cmd tail =>
    obtain ⟨form, hform⟩ := formOf_total cmd
    by_cases hshort : tail.length < form.extraBytes
    · simp [decode, hform, hshort] at h
    · rw [decode_of_form cmd tail form hform (Nat.not_lt.1 hshort), ← Machine.decodeForm_take] at h
      cases h
      exact ⟨cmd, tail.take form.extraBytes, form, by rw [List.take_append_drop], hform,
        List.length_take_of_le (Nat.not_lt.1 hshort), rfl⟩

/-- No bytes decode to the refusing arm (R102). -/
theorem decode_ne_unknownOpcode (bytes : List Byte) : decode bytes ≠ .error .unknownOpcode := by
  cases bytes with
  | nil => simp [decode]
  | cons cmd tail => rcases Machine.decode_cases cmd tail with ⟨i, rest, h, -, -⟩ | h <;> simp [h]

/-- The only error a fetch raises is TruncatedStreamError (R155, R156). -/
theorem Machine.Dec.fetch_raises {d d' : Dec} {e : ErrCode} (h : d.fetch = .ok (.raises e d')) :
    e = .truncatedStream := by
  by_cases hp : d.inPtr < d.inLen
  · rcases d.fetch_cases hp with ⟨i, rest, -, -, hf⟩ | ⟨-, hf⟩ <;> rw [hf] at h <;> cases h
    rfl
  · simp [Dec.fetch, Dec.consume, Dec.readIn, hp] at h

/-! ### The operand ranges (R100) -/

theorem inRange_iff {lo hi v : Nat} : inRange lo hi v = true ↔ lo ≤ v ∧ v ≤ hi := by simp [inRange]

@[simp] theorem Instr.wf_shortCopy {length offset : Nat} :
    (Instr.shortCopy length offset).wf = true ↔ (3 ≤ length ∧ length ≤ 6) ∧ offset ≤ 15 := by
  simp [Instr.wf, inRange_iff, Config.offScMax]

@[simp] theorem Instr.wf_medCopy {length offset : Nat} :
    (Instr.medCopy length offset).wf = true ↔ (3 ≤ length ∧ length ≤ 6) ∧ offset ≤ 4095 := by
  simp [Instr.wf, inRange_iff, Config.offMcDecMax]

@[simp] theorem Instr.wf_longCopy {length offset : Nat} :
    (Instr.longCopy length offset).wf = true ↔ (7 ≤ length ∧ length ≤ 22) ∧ offset ≤ 1023 := by
  simp [Instr.wf, inRange_iff, Config.offLcMax]

@[simp] theorem Instr.wf_extCopy {length offset : Nat} :
    (Instr.extCopy length offset).wf = true ↔ (7 ≤ length ∧ length ≤ 262) ∧ offset ≤ 4095 := by
  simp [Instr.wf, inRange_iff, Config.extLenMax, Config.offEcMax]

@[simp] theorem Instr.wf_shortLiteral {length : Nat} :
    (Instr.shortLiteral length).wf = true ↔ 1 ≤ length ∧ length ≤ 16 := by
  simp [Instr.wf, inRange_iff]

@[simp] theorem Instr.wf_longLiteral {length : Nat} :
    (Instr.longLiteral length).wf = true ↔ 17 ≤ length ∧ length ≤ 1040 := by
  simp [Instr.wf, inRange_iff, Config.llLenMax]

/-- Decoding gives operands within the ranges of R100: each is a field of bounded width plus its bias. -/
theorem decodeForm_wf (form : Form) (cmd extra1 extra2 : Byte) :
    (decodeForm form cmd.toNat extra1.toNat extra2.toNat).wf = true := by
  have h1 := extra1.isLt
  have h2 := extra2.isLt
  cases form
  all_goals
    simp [decodeForm, concat, bits]
    omega

/-! ### Packing and unpacking -/

/-- The fixed part of every well-formed instruction starts with an opcode of its form (R91, R101). -/
theorem encodedForm (i : Instr) : Laws.EncodedForm.Statement i := by
  cases i with
  | shortCopy length offset => exact Laws.EncodedForm.shortCopy length offset
  | medCopy length offset => exact Laws.EncodedForm.medCopy length offset
  | longCopy length offset => exact Laws.EncodedForm.longCopy length offset
  | extCopy length offset => exact Laws.EncodedForm.extCopy length offset
  | shortLiteral length => exact Laws.EncodedForm.shortLiteral length
  | longLiteral length => exact Laws.EncodedForm.longLiteral length

/-- Unpacking after packing: in each form the fields of the encoding hold quotients and remainders that make up the
operands, so no bit is dropped. -/
theorem decodeForm_encode {i : Instr} {cmd : Byte} {extra : List Byte} (hwf : i.wf = true)
    (henc : encode i = cmd :: extra) :
    decodeForm i.form cmd.toNat (extra.getD 0 0).toNat (extra.getD 1 0).toNat = i := by
  cases i
  all_goals
    cases henc
    simp [Instr.form, decodeForm, concat, bits] at hwf ⊢
    omega

/-- Whatever the ignored bits hold, the fixed part of a LongLiteral starts with an opcode of its form (R99, R101). -/
theorem encodedLongLiteral {length x : Nat} (hhigh : length ≤ 1040) (hx : x < 8) :
    ∃ cmd extra, encodeLongLiteral length x = cmd :: extra ∧ formOf cmd = some .longLiteral ∧
      extra.length = Form.longLiteral.extraBytes := by
  refine ⟨_, _, rfl, formOf_eq_some_iff.2 ⟨?_, Nat.le_of_lt_succ (BitVec.isLt _)⟩, rfl⟩
  rw [toNat_ofNat_byte] <;> (simp only [concat, Form.firstOpcode]; omega)

/-- Unpacking a LongLiteral after packing it with any value in its ignored bits (R99, decision D4): the length is read
from `cmd[1:0]`, below them, and from the extra byte. -/
theorem decodeForm_encodeLongLiteral {length x : Nat} {cmd : Byte} {extra : List Byte} (hlow : 17 ≤ length)
    (hhigh : length ≤ 1040) (henc : encodeLongLiteral length x = cmd :: extra) :
    decodeForm .longLiteral cmd.toNat (extra.getD 0 0).toNat (extra.getD 1 0).toNat = .longLiteral length := by
  cases henc
  simp [decodeForm, concat, bits]
  omega

/-- The extra bytes of a form, read one by one. -/
theorem extra_eq_take {extra : List Byte} {form : Form} (hextra : extra.length = form.extraBytes) :
    extra = [extra.getD 0 0, extra.getD 1 0].take form.extraBytes := by
  have hle := Machine.Form.extraBytes_le form
  rw [← hextra] at hle ⊢
  match extra, hle with
  | [], _ => rfl
  | [_], _ => rfl
  | [_, _], _ => rfl

/-- Packing after unpacking, for the forms that use every bit: it gives the fixed part back. -/
theorem encode_decodeForm {cmd : Byte} {form : Form} (hform : formOf cmd = some form) (hbits : form ≠ .longLiteral)
    (extra1 extra2 : Byte) :
    encode (decodeForm form cmd.toNat extra1.toNat extra2.toNat) = cmd :: [extra1, extra2].take form.extraBytes := by
  have h1 := extra1.isLt
  have h2 := extra2.isLt
  obtain ⟨hfirst, hlast⟩ := formOf_eq_some_iff.1 hform
  cases form
  case longLiteral => exact absurd rfl hbits
  all_goals
    simp only [Form.firstOpcode, Form.lastOpcode] at hfirst hlast
    simp [decodeForm, encode, Form.extraBytes, concat, bits, BitVec.toNat_eq]
    omega

/-- Packing after unpacking, for LongLiteral: the fixed part comes back with the opcode's `cmd[4:2]` in the ignored bits
(R99, decision D4). -/
theorem encodeLongLiteral_fields {cmd : Byte} (hform : formOf cmd = some .longLiteral) (extra1 : Byte) :
    encodeLongLiteral (concat 8 (bits 1 0 cmd.toNat) extra1.toNat + 17) (bits 4 2 cmd.toNat) = [cmd, extra1] := by
  have hcmd := cmd.isLt
  have h1 := extra1.isLt
  obtain ⟨hfirst, hlast⟩ := formOf_eq_some_iff.1 hform
  simp only [Form.firstOpcode, Form.lastOpcode] at hfirst hlast
  simp [encodeLongLiteral, concat, bits, BitVec.toNat_eq]
  omega

/-! ### The fields of a fixed part as the source table writes them (R90, R12) -/

/-- The primary selector `cmd >> 6` (R93). -/
theorem primary_eq (n : Nat) : n >>> 6 = n / 64 := Nat.shiftRight_eq_div_pow n 6

/-- The secondary selector `(cmd >> 4) & 3` (R93). -/
theorem secondary_eq (n : Nat) : (n >>> 4) &&& 3 = n / 16 % 4 := by
  rw [Nat.shiftRight_eq_div_pow]
  exact Nat.and_two_pow_sub_one_eq_mod _ 2

/-- The two low bits of a byte. -/
theorem bits_1_0 (n : Nat) : bits 1 0 n = n &&& 3 := bits_eq_shift_mask 1 0 n

/-- The four low bits of a byte. -/
theorem bits_3_0 (n : Nat) : bits 3 0 n = n &&& 0xF := bits_eq_shift_mask 3 0 n

/-- The four middle bits of a byte. -/
theorem bits_5_2 (n : Nat) : bits 5 2 n = (n >>> 2) &&& 0xF := bits_eq_shift_mask 5 2 n

/-- The four high bits of a byte need no mask. -/
theorem bits_7_4 (b : Byte) : bits 7 4 b.toNat = b.toNat >>> 4 := by
  have h := b.isLt
  rw [bits, Nat.shiftRight_eq_div_pow]
  omega

/-- The offset of a ShortCopy needs no mask: the bits above it are the primary selector 0. -/
theorem bits_5_2_of_lt {n : Nat} (h : n < 64) : bits 5 2 n = n >>> 2 := by
  rw [bits, Nat.shiftRight_eq_div_pow]
  omega

/-! ### The obligations -/

/-- Settles O4: the encoding is an opcode of the form with the form's extra bytes, and the form's fields are the
operands. -/
theorem decodeOfEncodeIsIdentity : Obligations.DecodeOfEncodeIsIdentity := by
  unfold Obligations.DecodeOfEncodeIsIdentity
  intro i rest hwf
  obtain ⟨cmd, extra, henc, hform, hextra⟩ := encodedForm i hwf
  rw [henc, List.cons_append, decode_fixedPart hform hextra, decodeForm_encode hwf henc]

/-- Settles O3: the selectors place the opcode in the range of its form, and each field is its shift and mask. -/
theorem decodeFollowsSourceFormulas : Obligations.DecodeFollowsSourceFormulas := by
  unfold Obligations.DecodeFollowsSourceFormulas
  intro cmd e1 e2 rest
  obtain ⟨hsc, hmc, hlc, hec, hsl, hll⟩ := formOf_of_range cmd
  have hcmd := cmd.isLt
  simp only [primary_eq, secondary_eq]
  refine ⟨fun h => ?_, fun h => ?_, fun h => ?_, fun h h' => ?_, fun h h' => ?_, fun h h' => ?_⟩
  · rw [← bits_1_0, ← bits_5_2_of_lt (by omega)]
    exact decode_fixedPart (extra := []) (hsc (by omega)) rfl rest
  · rw [← bits_1_0, ← bits_5_2, ← concat_eq_shift_or _ _ _ e1.isLt]
    exact decode_fixedPart (extra := [e1]) (hmc (by omega) (by omega)) rfl rest
  · rw [← bits_1_0, ← bits_5_2, ← concat_eq_shift_or _ _ _ e1.isLt]
    exact decode_fixedPart (extra := [e1]) (hlc (by omega) (by omega)) rfl rest
  · rw [← bits_3_0 cmd.toNat, ← bits_3_0 e1.toNat, ← bits_7_4, ← concat_eq_shift_or _ _ _ (bits_lt 7 4 _),
      ← concat_eq_shift_or _ _ _ e2.isLt]
    exact decode_fixedPart (extra := [e1, e2]) (hec (by omega) (by omega)) rfl rest
  · rw [← bits_3_0]
    exact decode_fixedPart (extra := []) (hsl (by omega) (by omega)) rfl rest
  · rw [← bits_1_0, Nat.shiftLeft_eq]
    exact decode_fixedPart (extra := [e1]) (hll (by omega)) rfl rest

/-- Settles O5: a LongLiteral is packed again with its ignored bits, every other instruction by `encode`. -/
theorem decodedBytesAreAnEncoding : Obligations.DecodedBytesAreAnEncoding := by
  unfold Obligations.DecodedBytesAreAnEncoding
  intro bytes rest i h
  obtain ⟨cmd, extra, form, rfl, hform, hextra, rfl⟩ := fixedPart_of_decode h
  refine ⟨decodeForm_wf _ _ _ _, cmd :: extra, rfl, ?_, ?_⟩
  · rw [Machine.form_decodeForm, List.length_cons, hextra, Nat.add_comm]
  · by_cases hbits : form = .longLiteral
    · subst hbits
      refine .inr ⟨_, bits 4 2 cmd.toNat, rfl, bits_lt 4 2 _, ?_⟩
      rw [encodeLongLiteral_fields hform]
      exact congrArg (cmd :: ·) (extra_eq_take hextra)
    · rw [encode_decodeForm hform hbits, ← extra_eq_take hextra]
      exact .inl rfl

/-- Settles O6, as O4: no field of a LongLiteral reads the ignored bits. -/
theorem longLiteralIgnoresThreeBits : Obligations.LongLiteralIgnoresThreeBits := by
  unfold Obligations.LongLiteralIgnoresThreeBits
  intro length x rest hlow hhigh hx
  obtain ⟨cmd, extra, henc, hform, hextra⟩ := encodedLongLiteral hhigh hx
  rw [henc, List.cons_append, decode_fixedPart hform hextra, decodeForm_encodeLongLiteral hlow hhigh henc]

/-- Settles O1, by evaluation. -/
theorem specWordsDecode : Obligations.SpecWordsDecode := by
  unfold Obligations.SpecWordsDecode
  exact ⟨rfl, rfl, rfl, rfl, rfl, rfl⟩

/-- Settles O2: a row for each form, whose mask is checked on the 256 opcodes, and every opcode has some form. -/
theorem opcodeMapPartitionsAllOpcodes : Obligations.OpcodeMapPartitionsAllOpcodes := by
  unfold Obligations.OpcodeMapPartitionsAllOpcodes
  constructor
  · simp only [List.forall_mem_cons, List.not_mem_nil, false_imp_iff, implies_true, and_true]
    exact ⟨opcodeMap_row .shortCopy (by decide), opcodeMap_row .medCopy (by decide),
      opcodeMap_row .longCopy (by decide), opcodeMap_row .extCopy (by decide),
      opcodeMap_row .shortLiteral (by decide), opcodeMap_row .longLiteral (by decide)⟩
  · intro cmd
    obtain ⟨form, hform⟩ := formOf_total cmd
    exact ⟨form, hform, fun form' hform' => Option.some.inj (hform'.symm.trans hform)⟩

/-- Settles O7: decoding answers no such error, and a fetch raises TruncatedStreamError only. -/
theorem noOpcodeIsUnknown : Obligations.NoOpcodeIsUnknown := by
  unfold Obligations.NoOpcodeIsUnknown
  refine ⟨decode_ne_unknownOpcode, fun d d' h => ?_⟩
  cases Machine.Dec.fetch_raises h

end Sys2Proof

/-! PROOFS of the statements of 40_copy_instructions.md: what a copy of any form does, what the loop test does at the end
of a run, and the obligations O8 to O12. -/

namespace Sys2Proof.Machine

/-! ### What a copy does (R120 to R123) -/

/-- A DEC after a copy that leaves `OUT` as `m`: `out_ptr` is past the clamped count, and no other register has changed
(R120, R132). -/
def Dec.afterCopy (d : Dec) (length : Nat) (m : Memory) : Dec :=
  { d with outMem := m, outPtr := d.outPtr + d.copyCount length }

@[simp] theorem Dec.afterCopy_outMem (d : Dec) (length : Nat) (m : Memory) : (d.afterCopy length m).outMem = m := rfl
@[simp] theorem Dec.afterCopy_outPtr (d : Dec) (length : Nat) (m : Memory) :
    (d.afterCopy length m).outPtr = d.outPtr + d.copyCount length := rfl
@[simp] theorem Dec.afterCopy_declaredSize (d : Dec) (length : Nat) (m : Memory) :
    (d.afterCopy length m).declaredSize = d.declaredSize := rfl
@[simp] theorem Dec.afterCopy_status (d : Dec) (length : Nat) (m : Memory) :
    (d.afterCopy length m).status = d.status := rfl
@[simp] theorem Dec.afterCopy_err (d : Dec) (length : Nat) (m : Memory) : (d.afterCopy length m).err = d.err := rfl
@[simp] theorem Dec.afterCopy_headerRead (d : Dec) (length : Nat) (m : Memory) :
    (d.afterCopy length m).headerRead = d.headerRead := rfl

/-- A clamped copy fills `OUT` (R130). -/
theorem Dec.outPtr_add_copyCount {d : Dec} {length : Nat} (hout : d.outPtr ≤ d.declaredSize)
    (hlen : d.declaredSize - d.outPtr < length) : d.outPtr + d.copyCount length = d.declaredSize := by
  unfold Dec.copyCount
  omega

/-- What a copy does that leaves `OUT` as `m`: it completes, it writes its own bytes only, and each of them is the sentinel
or, from a canonical `OUT`, the byte that lies `offset + 1` back when the copy is over. -/
structure CopyEffect (i : Instr) (s : State) (length offset : Nat) (m : Memory) : Prop where
  completes : exec i s = .next (s.setCurDec (s.curDec.afterCopy length m))
  outside : ∀ a, (a < s.curDec.outPtr ∨ s.curDec.outPtr + s.curDec.copyCount length ≤ a) →
    m.read a = s.curDec.outMem.read a
  sentinel : s.curDec.outMem.wf → ∀ k < s.curDec.copyCount length, s.curDec.outPtr + k < offset + 1 →
    m.read (s.curDec.outPtr + k) = Config.sentinel
  source : s.curDec.outMem.wf → ∀ k < s.curDec.copyCount length, offset + 1 ≤ s.curDec.outPtr + k →
    m.read (s.curDec.outPtr + k) = m.read (s.curDec.outPtr + k - (offset + 1))

/-- Every copy form has that effect, in every state (R126 to R129). -/
theorem copyEffect {i : Instr} {length offset : Nat} (hi : i ∈ copyForms length offset) (s : State) :
    ∃ m, CopyEffect i s length offset m := by
  obtain ⟨m, hexec, houtside, hbyte, -, -⟩ := s.curDec.execCopy_spec length offset
  refine ⟨m, ?_, houtside, fun hwf k hk hneg => ?_, fun hwf k hk hpos => ?_⟩
  · rw [exec_of_mem_copyForms hi, State.execCopy, hexec]
    rfl
  · rw [hbyte hwf k hk, if_pos (by unfold Dec.copySource; omega)]
  · have hindex : (s.curDec.copySource offset + k).toNat = s.curDec.outPtr + k - (offset + 1) := by
      unfold Dec.copySource
      omega
    rw [hbyte hwf k hk, if_neg (by unfold Dec.copySource; omega), hindex]

section

variable {i : Instr} {s : State} {length offset : Nat} {m : Memory}

/-- The first `offset + 1` bytes of a copy come from bytes of `OUT` that it does not write (R123). -/
theorem CopyEffect.source_old (h : CopyEffect i s length offset m) (hwf : s.curDec.outMem.wf) {k : Nat}
    (hk : k < s.curDec.copyCount length) (hpos : offset + 1 ≤ s.curDec.outPtr + k) (hd : k < offset + 1) :
    m.read (s.curDec.outPtr + k) = s.curDec.outMem.read (s.curDec.outPtr + k - (offset + 1)) := by
  rw [h.source hwf k hk hpos, h.outside _ (.inl (by omega))]

/-- Every later byte repeats the byte that the copy wrote `offset + 1` before it (R121, R123). -/
theorem CopyEffect.source_new (h : CopyEffect i s length offset m) (hwf : s.curDec.outMem.wf) {k : Nat}
    (hk : k < s.curDec.copyCount length) (hd : offset + 1 ≤ k) :
    m.read (s.curDec.outPtr + k) = m.read (s.curDec.outPtr + (k - (offset + 1))) := by
  rw [h.source hwf k hk (by omega), Nat.add_sub_assoc hd]

/-- A copy from inside the output repeats the `offset + 1` bytes before it (R121), by induction on the index of the byte:
a later byte equals the one a whole pattern before it, whose index has the same remainder. -/
theorem CopyEffect.pattern (h : CopyEffect i s length offset m) (hwf : s.curDec.outMem.wf)
    (hin : offset + 1 ≤ s.curDec.outPtr) {k : Nat} (hk : k < s.curDec.copyCount length) :
    m.read (s.curDec.outPtr + k) =
      s.curDec.outMem.read (s.curDec.outPtr - (offset + 1) + k % (offset + 1)) := by
  induction k using Nat.strong_induction_on with
  | _ k ih =>
    by_cases hd : k < offset + 1
    · rw [h.source_old hwf hk (by omega) hd, Nat.mod_eq_of_lt hd, Nat.sub_add_comm hin]
    · have hd' : offset + 1 ≤ k := Nat.not_lt.1 hd
      rw [h.source_new hwf hk hd', ih (k - (offset + 1)) (by omega) (by omega), ← Nat.mod_eq_sub_mod hd']

end

/-! ### The end of a run (R152) -/

/-- Served past its header with the loop test false, a DEC halts with DONE. -/
theorem step_of_loop_ended {s : State} (hs : s.Serving) (hread : s.curDec.headerRead = true)
    (hend : ¬(s.curDec.outPtr < s.curDec.declaredSize ∧ s.curDec.inPtr < s.curDec.inLen)) :
    step s = .next (s.setCurDec s.curDec.afterHalt) := by
  rw [step_of_serving hs, State.serveDec, if_pos hread, if_neg hend]

/-! ### The obligations -/

/-- Settles O8: each byte of a copy is the sentinel, comes from before the copy, or comes from the copy itself. -/
theorem copyClosedForm : Obligations.CopyClosedForm := by
  unfold Obligations.CopyClosedForm
  intro s length offset hwf i hi
  obtain ⟨m, h⟩ := copyEffect hi s
  refine ⟨_, h.completes, ?_⟩
  rw [State.curDec_setCurDec]
  exact ⟨rfl, fun k hk => ⟨h.sentinel hwf k hk, h.source_old hwf hk, h.source_new hwf hk⟩, h.outside⟩

/-- Settles O9: a copy replaces the DEC that executes by one that differs in `OUT` and `out_ptr`. -/
theorem copyFrame : Obligations.CopyFrame := by
  unfold Obligations.CopyFrame
  intro s length offset i hi
  obtain ⟨m, h⟩ := copyEffect hi s
  refine ⟨_, h.completes, ?_⟩
  rw [State.curDec_setCurDec]
  exact ⟨rfl, h.outside, State.setCurDec_turn s _, State.setCurDec_freeSeed s _, State.setCurDec_cmp s _,
    State.setCurDec_frame s _⟩

/-- Settles O10: the source index is negative for the first `offset + 1 - out_ptr` bytes, and counts up from 0 after
them. -/
theorem copyBeforeStartGivesSentinel : Obligations.CopyBeforeStartGivesSentinel := by
  unfold Obligations.CopyBeforeStartGivesSentinel
  intro s length offset hwf hbefore i hi
  obtain ⟨m, h⟩ := copyEffect hi s
  refine ⟨_, h.completes, ?_⟩
  rw [State.curDec_setCurDec]
  refine ⟨rfl, rfl, fun k hk => ⟨fun hneg => h.sentinel hwf k hk (by omega), fun hpos => ?_⟩⟩
  have hindex : k - (offset + 1 - s.curDec.outPtr) = s.curDec.outPtr + k - (offset + 1) := by omega
  rw [hindex]
  exact h.source hwf k hk (by omega)

/-- Settles O11: the pattern of `CopyEffect.pattern`, for every form. -/
theorem selfOverlapRepeatsPattern : Obligations.SelfOverlapRepeatsPattern := by
  unfold Obligations.SelfOverlapRepeatsPattern
  intro s length offset hwf hin i hi
  obtain ⟨m, h⟩ := copyEffect hi s
  refine ⟨_, h.completes, ?_⟩
  rw [State.curDec_setCurDec]
  exact fun k hk => h.pattern hwf hin hk

/-- Settles O12: the copy leaves `out_ptr` at `declared_size` in a DEC that is still served, and the loop test fails. -/
theorem copyClampEndsTheRun : Obligations.CopyClampEndsTheRun := by
  unfold Obligations.CopyClampEndsTheRun
  intro s length offset hs hread hout hlen i hi
  obtain ⟨m, h⟩ := copyEffect hi s
  have hfull := Dec.outPtr_add_copyCount hout hlen
  have hhalt := step_of_loop_ended (s := s.setCurDec (s.curDec.afterCopy length m)) (hs.setCurDec hs.status)
    (by simpa using hread) (by simp [hfull])
  refine ⟨_, h.completes, ?_, by simp, by simp, _, hhalt, ?_, ?_⟩
  · simpa using hfull
  · simp
  · simp [Dec.shortFlag, hfull]

end Sys2Proof.Machine

/-! PROOFS of the statements of 41_literal_instructions.md: what a literal of either form does, and the obligations O13
to O15. -/

namespace Sys2Proof.Machine

/-! ### What a literal does (R140) -/

/-- A DEC after a literal: the bytes it moves stand in `OUT`, `in_ptr` and `out_ptr` are past the clamped count, and no
other register has changed (R140, R142). -/
def Dec.afterLiteral (d : Dec) (length : Nat) : Dec :=
  { d with
    outMem := d.outMem.writeAll d.outPtr (d.inBytes (d.literalCount length))
    outPtr := d.outPtr + d.literalCount length
    inPtr := d.inPtr + d.literalCount length }

@[simp] theorem Dec.afterLiteral_inPtr (d : Dec) (length : Nat) :
    (d.afterLiteral length).inPtr = d.inPtr + d.literalCount length := rfl
@[simp] theorem Dec.afterLiteral_outPtr (d : Dec) (length : Nat) :
    (d.afterLiteral length).outPtr = d.outPtr + d.literalCount length := rfl

/-- Both literal forms do that, in every state (R143, R144). -/
theorem exec_literalForms {i : Instr} {length : Nat} (hi : i ∈ literalForms length) (s : State) :
    exec i s = .next (s.setCurDec (s.curDec.afterLiteral length)) := by
  rw [exec_of_mem_literalForms hi, State.execLiteral, Dec.execLiteral_eq]
  rfl

/-- A literal writes its own bytes of `OUT` only. -/
theorem Dec.afterLiteral_read_outside (d : Dec) (length : Nat) {a : Nat}
    (ha : a < d.outPtr ∨ d.outPtr + d.literalCount length ≤ a) :
    (d.afterLiteral length).outMem.read a = d.outMem.read a :=
  Memory.read_writeAll_outside _ _ _ _ (by rwa [Dec.inBytes_length])

/-- Each byte it writes is the byte of `IN` at the same distance from `in_ptr`. -/
theorem Dec.afterLiteral_read_moved (d : Dec) (length : Nat) (hwf : d.outMem.wf) {k : Nat}
    (hk : k < d.literalCount length) :
    (d.afterLiteral length).outMem.read (d.outPtr + k) = d.inMem.read (d.inPtr + k) := by
  have hk' : k < (d.inBytes (d.literalCount length)).length := by rwa [Dec.inBytes_length]
  rw [Dec.afterLiteral, Memory.read_writeAll_inside _ _ _ _ hwf hk']
  simp [Dec.inBytes]

/-! ### The clamps (R141) -/

/-- The count is the room left in `OUT` where that is the smallest bound. -/
theorem Dec.literalCount_eq_room {d : Dec} {length : Nat} (hlen : d.declaredSize - d.outPtr ≤ length)
    (hin : d.declaredSize - d.outPtr ≤ d.inLen - d.inPtr) :
    d.literalCount length = d.declaredSize - d.outPtr := by
  rw [Dec.literalCount, Nat.min_eq_right hin, Nat.min_eq_right hlen]

/-- The count is the rest of the input where that is the smallest bound. -/
theorem Dec.literalCount_eq_input {d : Dec} {length : Nat} (hlen : d.inLen - d.inPtr ≤ length)
    (hout : d.inLen - d.inPtr ≤ d.declaredSize - d.outPtr) :
    d.literalCount length = d.inLen - d.inPtr := by
  rw [Dec.literalCount, Nat.min_eq_left hout, Nat.min_eq_right hlen]

/-! ### The obligations -/

/-- Settles O13: the bytes of `OUT` after a literal are those of `IN` in its block, and the old ones elsewhere. -/
theorem literalMovesPayload : Obligations.LiteralMovesPayload := by
  unfold Obligations.LiteralMovesPayload
  intro s length hwf i hi
  refine ⟨_, s.curDec.literalCount length, exec_literalForms hi s, rfl, ?_⟩
  rw [State.curDec_setCurDec]
  exact ⟨rfl, rfl, fun k hk => s.curDec.afterLiteral_read_moved length hwf hk,
    fun a ha => s.curDec.afterLiteral_read_outside length ha⟩

/-- Settles O14: a literal replaces the DEC that executes by one that differs in `OUT`, `out_ptr` and `in_ptr`. -/
theorem literalFrame : Obligations.LiteralFrame := by
  unfold Obligations.LiteralFrame
  intro s length i hi
  refine ⟨_, exec_literalForms hi s, ?_⟩
  rw [State.curDec_setCurDec]
  exact ⟨rfl, fun a ha => s.curDec.afterLiteral_read_outside length ha, State.setCurDec_turn s _,
    State.setCurDec_freeSeed s _, State.setCurDec_cmp s _, State.setCurDec_frame s _⟩

/-- Settles O15: the smallest bound is the count, so the pointer that it limits reaches its end. -/
theorem literalClampsAreNoErrors : Obligations.LiteralClampsAreNoErrors := by
  unfold Obligations.LiteralClampsAreNoErrors
  intro s length hin hout i hi
  refine ⟨_, exec_literalForms hi s, ?_⟩
  rw [State.curDec_setCurDec, Dec.afterLiteral_inPtr, Dec.afterLiteral_outPtr]
  refine ⟨rfl, rfl, fun hlen hroom => ?_, fun hlen hinput => ?_⟩
  · rw [Dec.literalCount_eq_room hlen hroom]
    exact ⟨Nat.add_sub_of_le hout, rfl⟩
  · rw [Dec.literalCount_eq_input hlen.le hinput.le]
    exact ⟨Nat.add_sub_of_le hin, Nat.add_lt_of_lt_sub' hinput⟩

end Sys2Proof.Machine

/-! PROOFS of the statements of 42_decompressor_engine.md: what a step does at each place of a decode call, the end of
every call and its result, and the obligations O16 to O25. -/

namespace Sys2Proof.Machine

/-! ### A step of the DEC that executes, at each place of its call -/

/-- `raise` under `Agent.dec`, as a replacement of the DEC that executes (R246). -/
theorem State.raise_dec_eq (s : State) (e : ErrCode) :
    s.raise .dec e = { s with freeSeed := s.freeSeed + 1 }.setCurDec (s.curDec.afterRaise e s.freeSeed) := by
  simpa using s.raise_dec_setCurDec s.curDec e

/-- A stream too short for its header (R150). -/
theorem step_of_short_header {s : State} (hs : s.Serving) (hread : s.curDec.headerRead = false)
    (hlen : s.curDec.inLen < 2) : step s = .next (s.raise .dec .formatHeaderTooShort) := by
  rw [step_of_serving hs, State.serveDec, if_neg (by simp [hread]), Config.hdrLen, if_pos hlen]

/-- The header step (R151). -/
theorem step_of_header {s : State} (hs : s.Serving) (hread : s.curDec.headerRead = false) (hlen : 2 ≤ s.curDec.inLen) :
    step s = .next (s.setCurDec { s.curDec with
      declaredSize := s.curDec.headerValue, inPtr := 2, outPtr := 0, outMem := [], headerRead := true }) := by
  rw [step_of_serving hs, State.serveDec, if_neg (by simp [hread]), Config.hdrLen,
    if_neg (Nat.not_lt.2 hlen), Dec.headerStep_eq _ hlen]
  rfl

/-- A DEC that has consumed `n` more bytes of `IN` and done nothing else. -/
def Dec.skip (d : Dec) (n : Nat) : Dec := { d with inPtr := d.inPtr + n }

theorem step_of_atInstr {s : State} (h : s.AtInstr) : step s = s.instrStep := by
  obtain ⟨hs, hread, hloop⟩ := h
  rw [step_of_serving hs, State.serveDec, if_pos hread, if_pos hloop]

/-- An instruction whose fixed part is whole (R153). -/
theorem step_of_decoded {s : State} (h : s.AtInstr) {i : Instr} {rest : List Byte}
    (hd : decode s.curDec.window = .ok (i, rest)) :
    step s = exec i (s.setCurDec (s.curDec.skip (1 + i.form.extraBytes))) := by
  rw [step_of_atInstr h, State.instrStep, Dec.fetch_of_decode _ i rest hd]
  rfl

/-- A truncated fixed part (R155). -/
theorem step_of_truncated {s : State} (h : s.AtInstr) (hd : decode s.curDec.window = .error .truncated) :
    step s = .next ((s.setCurDec (s.curDec.skip 1)).raise .dec .truncatedStream) := by
  rw [step_of_atInstr h, State.instrStep, Dec.fetch_of_truncated _ hd]
  rfl

/-- At an instruction the fixed part is whole or truncated (R155, R156), and it lies in the stream as far as it is
read. -/
theorem State.AtInstr.decode_cases {s : State} (h : s.AtInstr) :
    (∃ i rest, decode s.curDec.window = .ok (i, rest) ∧ s.curDec.inPtr + (1 + i.form.extraBytes) ≤ s.curDec.inLen) ∨
      decode s.curDec.window = .error .truncated := by
  obtain ⟨-, -, -, hin⟩ := h
  rcases s.curDec.fetch_cases hin with ⟨i, rest, hd, hfits, -⟩ | ⟨hd, -⟩
  · exact .inl ⟨i, rest, hd, hfits⟩
  · exact .inr hd

/-! ### An instruction, as an operation of the DEC that executes -/

/-- `ExecCopy` or `ExecLiteral` with the operands of an instruction. -/
def Dec.execInstr (d : Dec) : Instr → Except Fault Dec
  | .shortCopy length offset => d.execCopy length offset
  | .medCopy length offset => d.execCopy length offset
  | .longCopy length offset => d.execCopy length offset
  | .extCopy length offset => d.execCopy length offset
  | .shortLiteral length => d.execLiteral length
  | .longLiteral length => d.execLiteral length

theorem exec_eq_execInstr (i : Instr) (s : State) : exec i s = outcomeOf (s.curDec.execInstr i) s.setCurDec := by
  cases i <;> rfl

/-- The forms of the four copies. -/
abbrev copyKinds : List Form := [.shortCopy, .medCopy, .longCopy, .extCopy]

/-- What an instruction does to the pointers of a DEC: it moves neither back nor past its end, and a copy moves `out_ptr`
only, by its clamped count. It leaves the input, the declared size and the place in the call as they are (R25, R120,
R140). -/
structure Dec.Advance (d : Dec) (i : Instr) (d' : Dec) : Prop where
  inMem : d'.inMem = d.inMem
  inLen : d'.inLen = d.inLen
  declaredSize : d'.declaredSize = d.declaredSize
  status : d'.status = d.status
  headerRead : d'.headerRead = d.headerRead
  inPtrLow : d.inPtr ≤ d'.inPtr
  inPtrHigh : d.inPtr ≤ d.inLen → d'.inPtr ≤ d.inLen
  outPtrLow : d.outPtr ≤ d'.outPtr
  outPtrHigh : d.outPtr ≤ d.declaredSize → d'.outPtr ≤ d.declaredSize
  copy : i.form ∈ copyKinds → d'.inPtr = d.inPtr ∧ d'.outPtr = d.outPtr + d.copyCount i.length

theorem Dec.execCopy_advance (d : Dec) {i : Instr} {length offset : Nat} (hlen : i.length = length) :
    ∃ d', d.execCopy length offset = .ok d' ∧ d.Advance i d' := by
  subst hlen
  obtain ⟨m, hexec, -⟩ := d.execCopy_spec i.length offset
  exact ⟨_, hexec,
    { inMem := rfl, inLen := rfl, declaredSize := rfl, status := rfl, headerRead := rfl
      inPtrLow := Nat.le_refl _
      inPtrHigh := id
      outPtrLow := Nat.le_add_right _ _
      outPtrHigh := fun hout => Nat.add_le_of_le_sub' hout (Nat.min_le_right _ _)
      copy := fun _ => ⟨rfl, rfl⟩ }⟩

theorem Dec.execLiteral_advance (d : Dec) {i : Instr} (length : Nat) (hform : i.form ∉ copyKinds) :
    ∃ d', d.execLiteral length = .ok d' ∧ d.Advance i d' := by
  have hin : d.literalCount length ≤ d.inLen - d.inPtr := (Nat.min_le_right _ _).trans (Nat.min_le_left _ _)
  have hout : d.literalCount length ≤ d.declaredSize - d.outPtr := (Nat.min_le_right _ _).trans (Nat.min_le_right _ _)
  exact ⟨_, d.execLiteral_eq length,
    { inMem := rfl, inLen := rfl, declaredSize := rfl, status := rfl, headerRead := rfl
      inPtrLow := Nat.le_add_right _ _
      inPtrHigh := fun hle => Nat.add_le_of_le_sub' hle hin
      outPtrLow := Nat.le_add_right _ _
      outPtrHigh := fun hle => Nat.add_le_of_le_sub' hle hout
      copy := fun hcopy => absurd hcopy hform }⟩

/-- Every instruction completes, and so advances (R157). -/
theorem Dec.execInstr_advance (d : Dec) (i : Instr) : ∃ d', d.execInstr i = .ok d' ∧ d.Advance i d' := by
  cases i with
  | shortCopy length offset => exact d.execCopy_advance rfl
  | medCopy length offset => exact d.execCopy_advance rfl
  | longCopy length offset => exact d.execCopy_advance rfl
  | extCopy length offset => exact d.execCopy_advance rfl
  | shortLiteral length => exact d.execLiteral_advance length (by simp [Instr.form])
  | longLiteral length => exact d.execLiteral_advance length (by simp [Instr.form])

/-- A step at an instruction that decodes. -/
theorem step_advances {s : State} (h : s.AtInstr) {i : Instr} {rest : List Byte}
    (hd : decode s.curDec.window = .ok (i, rest)) :
    ∃ d, (s.curDec.skip (1 + i.form.extraBytes)).execInstr i = .ok d ∧ step s = .next (s.setCurDec d) ∧
      (s.curDec.skip (1 + i.form.extraBytes)).Advance i d := by
  obtain ⟨d, hexec, hadvance⟩ := (s.curDec.skip (1 + i.form.extraBytes)).execInstr_advance i
  refine ⟨d, hexec, ?_, hadvance⟩
  rw [step_of_decoded h hd, exec_eq_execInstr, State.curDec_setCurDec, hexec]
  simp [outcomeOf]

/-- No range of R100 holds a length of 0. -/
theorem length_pos_of_wf {i : Instr} (hwf : i.wf = true) : 0 < i.length := by
  cases i
  all_goals
    simp only [Instr.wf_shortCopy, Instr.wf_medCopy, Instr.wf_longCopy, Instr.wf_extCopy, Instr.wf_shortLiteral,
      Instr.wf_longLiteral] at hwf
    simp only [Instr.length]
    omega

/-! ### The end of a decode call -/

theorem stepsTo_one {s t : State} (h : step s = .next t) : StepsTo 1 s t := stepsTo_succ.2 ⟨t, h, stepsTo_zero.2 rfl⟩

/-- The result of a decode call, when it has one. -/
theorem decResult_eq_ok {d : Dec} {r : DecResult} :
    decResult d = some (.ok r) ↔
      d.status = .done ∧ r = ⟨d.outMem.toBytes d.outLen, d.outLen, d.compSize, d.produced, d.short⟩ := by
  unfold decResult
  cases d.status <;> simp [eq_comm]

/-- A call has a result exactly at its end (R28). -/
theorem decResult_ne_none {d : Dec} : decResult d ≠ none ↔ d.status = .done ∨ d.status = .failed := by
  unfold decResult
  cases d.status <;> simp

/-- A DEC with its result registers cleared: all that a call past its header step reads (R29, R166). -/
def Dec.withoutResults (d : Dec) : Dec := { d with outLen := 0, compSize := 0, produced := 0, short := false }

theorem Dec.produce_withoutResults (d : Dec) (b : Byte) :
    d.withoutResults.produce b = (d.produce b).map Dec.withoutResults := by
  by_cases hout : d.outPtr < d.declaredSize <;> simp [Dec.produce, Dec.writeOut, Dec.withoutResults, hout, Except.map]

theorem Dec.copyLoop_withoutResults (n : Nat) (src : Int) (d : Dec) :
    Dec.copyLoop n src d.withoutResults = (Dec.copyLoop n src d).map Dec.withoutResults := by
  induction n generalizing src d with
  | zero => rfl
  | succ n ih =>
    simp only [Dec.copyLoop, show d.withoutResults.readOut src = d.readOut src from rfl]
    cases d.readOut src with
    | error f => rfl
    | ok b =>
      simp only [Dec.produce_withoutResults]
      cases d.produce b with
      | error f => rfl
      | ok d' => exact ih (src + 1) d'

theorem Dec.execLiteral_withoutResults (d : Dec) (length : Nat) :
    d.withoutResults.execLiteral length = (d.execLiteral length).map Dec.withoutResults := by
  rw [Dec.execLiteral_eq, Dec.execLiteral_eq]
  rfl

/-- No instruction reads a result register. -/
theorem Dec.execInstr_withoutResults (d : Dec) (i : Instr) :
    d.withoutResults.execInstr i = (d.execInstr i).map Dec.withoutResults := by
  cases i with
  | shortCopy length offset => exact d.copyLoop_withoutResults _ _
  | medCopy length offset => exact d.copyLoop_withoutResults _ _
  | longCopy length offset => exact d.copyLoop_withoutResults _ _
  | extCopy length offset => exact d.copyLoop_withoutResults _ _
  | shortLiteral length => exact d.execLiteral_withoutResults length
  | longLiteral length => exact d.execLiteral_withoutResults length

/-- From every state in which DEC runs past its header step, on its turn, and is `b` but for its result registers, the
call ends within `n` steps and gives the host `r`. -/
def Dec.EndsWith (b : Dec) (n : Nat) (r : Except ErrCode DecResult) : Prop :=
  ∀ s : State, s.turn = .dec → s.dec.status = .running → s.dec.headerRead = true → s.dec.withoutResults = b →
    ∃ k t, k ≤ n ∧ StepsTo k s t ∧ decResult t.dec = some r

/-- The loop test ends the run (R152). -/
theorem Dec.endsWith_of_loop_ended {b : Dec} (n : Nat) (hend : ¬(b.outPtr < b.declaredSize ∧ b.inPtr < b.inLen)) :
    b.EndsWith (n + 1) (.ok ⟨b.outMem.toBytes b.declaredSize, b.declaredSize, b.inPtr, b.outPtr, b.shortFlag⟩) := by
  rintro s hturn hrun hread rfl
  have hcur := State.curDec_of_dec hturn
  have hstep := step_of_loop_ended (.inl ⟨hturn, hrun⟩) (by rw [hcur]; exact hread) (by rw [hcur]; exact hend)
  rw [hcur, State.setCurDec_of_dec hturn] at hstep
  exact ⟨1, _, Nat.le_add_left 1 n, stepsTo_one hstep, rfl⟩

/-- A truncated fixed part ends the call (R155). -/
theorem Dec.endsWith_of_truncated {b : Dec} (n : Nat) (hloop : b.outPtr < b.declaredSize ∧ b.inPtr < b.inLen)
    (hd : decode b.window = .error .truncated) : b.EndsWith (n + 1) (.error .truncatedStream) := by
  rintro s hturn hrun hread rfl
  have hcur := State.curDec_of_dec hturn
  have hstep := step_of_truncated ⟨.inl ⟨hturn, hrun⟩, by rw [hcur]; exact ⟨hread, hloop⟩⟩ (by rw [hcur]; exact hd)
  refine ⟨1, _, Nat.le_add_left 1 n, stepsTo_one hstep, ?_⟩
  rw [← State.curDec_of_dec (by simpa using hturn), State.raise_dec_curDec]
  rfl

/-- An instruction takes one step, and leaves the rest of the call to what it leaves of the DEC. -/
theorem Dec.endsWith_of_decoded {b e : Dec} {n : Nat} {r : Except ErrCode DecResult} {i : Instr} {rest : List Byte}
    (hloop : b.outPtr < b.declaredSize ∧ b.inPtr < b.inLen) (hd : decode b.window = .ok (i, rest))
    (hexec : (b.skip (1 + i.form.extraBytes)).execInstr i = .ok e) (he : e.EndsWith n r) : b.EndsWith (n + 1) r := by
  rintro s hturn hrun hread rfl
  have hcur := State.curDec_of_dec hturn
  obtain ⟨d, hd', hstep, hadvance⟩ :=
    step_advances ⟨.inl ⟨hturn, hrun⟩, by rw [hcur]; exact ⟨hread, hloop⟩⟩ (by rw [hcur]; exact hd)
  rw [hcur] at hd' hadvance
  have hsame : d.withoutResults = e := by
    have hcommutes := (s.dec.skip (1 + i.form.extraBytes)).execInstr_withoutResults i
    rw [hd'] at hcommutes
    exact Except.ok.inj (hcommutes.symm.trans hexec)
  rw [State.setCurDec_of_dec hturn] at hstep
  obtain ⟨k, t, hk, hsteps, hresult⟩ := he { s with dec := d } hturn (hadvance.status.trans hrun)
    (hadvance.headerRead.trans hread) hsame
  exact ⟨k + 1, t, Nat.succ_le_succ hk, stepsTo_succ.2 ⟨_, hstep, hsteps⟩, hresult⟩

/-- Past the header step every call ends, within one step more than the stream has bytes left (R158), and its result
depends on nothing but the DEC without its result registers: by induction on the bytes left, of which every instruction
consumes at least one. -/
theorem Dec.exists_endsWith (n : Nat) (b : Dec) (hleft : b.inLen - b.inPtr ≤ n) : ∃ r, b.EndsWith (n + 1) r := by
  induction n generalizing b with
  | zero => exact ⟨_, Dec.endsWith_of_loop_ended 0 (by omega)⟩
  | succ n ih =>
    by_cases hloop : b.outPtr < b.declaredSize ∧ b.inPtr < b.inLen
    · rcases b.fetch_cases hloop.2 with ⟨i, rest, hd, -, -⟩ | ⟨hd, -⟩
      · obtain ⟨e, hexec, hadvance⟩ := (b.skip (1 + i.form.extraBytes)).execInstr_advance i
        have hlen : e.inLen = b.inLen := hadvance.inLen
        have hptr : b.inPtr + (1 + i.form.extraBytes) ≤ e.inPtr := hadvance.inPtrLow
        obtain ⟨r, hr⟩ := ih e (by omega)
        exact ⟨r, Dec.endsWith_of_decoded hloop hd hexec hr⟩
      · exact ⟨_, Dec.endsWith_of_truncated _ hloop hd⟩
    · exact ⟨_, Dec.endsWith_of_loop_ended _ hloop⟩

/-- Every decode call ends, within as many steps as its stream has bytes, with a result that its stream determines. -/
theorem decodeCall_ends (input : List Byte) : ∃ r, ∀ s s1 : State, startDecode input s = .next s1 →
    ∃ k t, k ≤ max 1 input.length ∧ StepsTo k s1 t ∧ decResult t.dec = some r := by
  by_cases hlen : 2 ≤ input.length
  · obtain ⟨r, hr⟩ := Dec.exists_endsWith (input.length - 2) (State.reset.afterHeader input).dec.withoutResults
      (Nat.le_refl _)
    refine ⟨r, fun s s1 hstart => ?_⟩
    obtain ⟨k, t, hk, hsteps, hresult⟩ := hr (s.afterHeader input) rfl rfl rfl rfl
    exact ⟨k + 1, t, by omega, stepsTo_succ.2 ⟨_, step_afterHeader hlen hstart, hsteps⟩, hresult⟩
  · refine ⟨.error .formatHeaderTooShort, fun s s1 hstart => ?_⟩
    obtain ⟨-, rfl⟩ := startDecode_cases hstart
    exact ⟨1, _, Nat.le_max_left _ _,
      stepsTo_one (step_of_short_header (.inl ⟨rfl, rfl⟩) rfl (Nat.not_le.1 hlen)), rfl⟩

/-! ### After the end of a decode call -/

/-- A DEC whose call has ended takes no step (R246). -/
theorem step_keeps_ended_dec {s t : State} (hended : s.dec.status ≠ .running) (h : step s = .next t) : t.dec = s.dec := by
  rcases step_next h with ⟨-, rfl⟩ | ⟨-, hrun, -⟩ | ⟨-, -, _, rfl⟩ | ⟨-, -, _, _, rfl⟩
  · rfl
  · exact absurd hrun hended
  · rfl
  · rfl

theorem stepsTo_keeps_ended_dec {k : Nat} {s t : State} (hended : s.dec.status ≠ .running) (h : StepsTo k s t) :
    t.dec = s.dec := by
  induction k generalizing s with
  | zero => rw [stepsTo_zero.1 h]
  | succ k ih =>
    obtain ⟨u, hstep, hrest⟩ := stepsTo_succ.1 h
    have hu := step_keeps_ended_dec hended hstep
    rw [ih (by rwa [hu]) hrest, hu]

/-- Two runs from one state at whose ends DEC is not RUNNING leave the same DEC, by induction on the first: the longer run
passes through the end of the shorter one, and DEC takes no step after it. -/
theorem StepsTo.ended_dec_unique {k k' : Nat} {s t t' : State} (h : StepsTo k s t) (h' : StepsTo k' s t')
    (ht : t.dec.status ≠ .running) (ht' : t'.dec.status ≠ .running) : t.dec = t'.dec := by
  induction k generalizing s k' with
  | zero =>
    rw [stepsTo_zero] at h
    subst h
    exact (stepsTo_keeps_ended_dec ht h').symm
  | succ k ih =>
    cases k' with
    | zero =>
      rw [stepsTo_zero] at h'
      subst h'
      exact stepsTo_keeps_ended_dec ht' h
    | succ k' =>
      obtain ⟨u, hstep, hrest⟩ := stepsTo_succ.1 h
      obtain ⟨u', hstep', hrest'⟩ := stepsTo_succ.1 h'
      cases hstep.symm.trans hstep'
      exact ih hrest hrest'

/-! ### The invariant and the input of DEC along a run -/

/-- Every step keeps the invariant and the input of DEC, whatever the other units hold. -/
theorem step_keeps_dec_call {s t : State} (hd : s.dec.Inv) (h : step s = .next t) :
    t.dec.Inv ∧ t.dec.input = s.dec.input := by
  rcases step_next h with ⟨-, rfl⟩ | ⟨hturn, hrun, d, n, rfl⟩ | ⟨-, -, _, rfl⟩ | ⟨-, -, _, _, rfl⟩
  · exact ⟨hd, rfl⟩
  · have hcur := State.curDec_of_dec hturn
    rw [step_of_serving (.inl ⟨hturn, hrun⟩)] at h
    obtain ⟨d', n', hnext, hd'⟩ := s.serveDec_sound (hcur ▸ hd) (hcur ▸ hrun)
    rw [State.setCurDec_of_dec (s := { s with freeSeed := n' }) hturn] at hnext
    have hinput := State.serveDec_input h
    rw [hcur, State.curDec_of_dec (s := { s with dec := d, freeSeed := n }) hturn] at hinput
    cases hnext.symm.trans h
    exact ⟨hd', hinput⟩
  · exact ⟨hd, rfl⟩
  · exact ⟨hd, rfl⟩

theorem stepsTo_keeps_dec_call {k : Nat} {s t : State} (hd : s.dec.Inv) (h : StepsTo k s t) :
    t.dec.Inv ∧ t.dec.input = s.dec.input := by
  induction k generalizing s with
  | zero => rw [← stepsTo_zero.1 h]; exact ⟨hd, rfl⟩
  | succ k ih =>
    obtain ⟨u, hstep, hrest⟩ := stepsTo_succ.1 h
    obtain ⟨hu, huinput⟩ := step_keeps_dec_call hd hstep
    obtain ⟨ht, htinput⟩ := ih hu hrest
    exact ⟨ht, htinput.trans huinput⟩

/-- In every state after the start of a decode call, DEC is sound and its input is the host's. -/
theorem decodeCall_dec {input : List Byte} {s s1 t : State} {k : Nat} (hstart : startDecode input s = .next s1)
    (hrun : StepsTo k s1 t) : t.dec.Inv ∧ t.dec.inMem = Memory.ofBytes input ∧ t.dec.inLen = input.length := by
  obtain ⟨-, rfl⟩ := startDecode_cases hstart
  obtain ⟨hinv, hinput⟩ := stepsTo_keeps_dec_call
    (Dec.begin_inv _ _ (Memory.ofBytes_wf input) (Memory.ofBytes_below input)) hrun
  exact ⟨hinv, Dec.input_eq_iff.1 hinput⟩

/-- The header of a stream, little-endian (R64). -/
theorem Dec.headerValue_of_stream {d : Dec} {b0 b1 : Byte} {rest : List Byte}
    (hin : d.inMem = Memory.ofBytes (b0 :: b1 :: rest)) : d.headerValue = b0.toNat + 256 * b1.toNat := by
  simp only [Dec.headerValue, hin, Memory.read_ofBytes, List.getD_cons_zero, List.getD_cons_succ, concat]
  omega

/-- `declared_size` as the spec writes it (R64, R151). -/
theorem Dec.headerValue_eq_or (d : Dec) :
    d.headerValue = (d.inMem.read 0).toNat ||| ((d.inMem.read 1).toNat <<< 8) := by
  rw [Dec.headerValue, concat_eq_shift_or _ _ _ (BitVec.isLt _), Nat.lor_comm]

/-! ### The obligations -/

/-- Settles O16: the fetch of a DEC reads what `decode` reads from its window. -/
theorem stepRunsTheDecodedInstruction : Obligations.StepRunsTheDecodedInstruction := by
  unfold Obligations.StepRunsTheDecodedInstruction
  intro s i rest hat hd
  exact step_of_decoded hat hd

/-- Settles O17: the window does not decode, so the step raises with `in_ptr` past `cmd`. -/
theorem truncatedFixedPartRaises : Obligations.TruncatedFixedPartRaises := by
  unfold Obligations.TruncatedFixedPartRaises
  intro s cmd rest form hat hwindow hform hshort
  have hd : decode s.curDec.window = .error .truncated := by
    rw [hwindow]
    simp [decode, hform, hshort]
  refine ⟨_, step_of_truncated hat hd, ?_⟩
  rw [State.raise_dec_curDec, State.curDec_setCurDec, State.raise_dec_cmp, State.raise_dec_turn]
  exact ⟨rfl, rfl, rfl, rfl, rfl, rfl, rfl, rfl, State.setCurDec_cmp s _, State.setCurDec_turn s _, rfl⟩

/-- Settles O18: the header check reads `in_len` only, and `raise` writes the DEC that executes and the number of the next
draw. -/
theorem shortHeaderRaises : Obligations.ShortHeaderRaises := by
  unfold Obligations.ShortHeaderRaises
  intro s hs hread hlen
  refine ⟨_, step_of_short_header hs hread hlen, ?_⟩
  rw [State.raise_dec_eq, State.curDec_setCurDec]
  obtain ⟨hver, hdec⟩ := State.setCurDec_frame { s with freeSeed := s.freeSeed + 1 }
    (s.curDec.afterRaise .formatHeaderTooShort s.freeSeed)
  refine ⟨rfl, rfl, State.setCurDec_turn _ _, State.setCurDec_cmp _ _, hver, hdec, fun m => ?_⟩
  have hs' : (s.setCurDec { s.curDec with inMem := m }).Serving := hs.setCurDec hs.status
  rw [step_of_short_header hs' (by simpa using hread) (by simpa using hlen), State.raise_dec_setCurDec,
    State.setCurDec_setCurDec]
  rfl

/-- Settles O19, by the header step. -/
theorem headerStepStartsTheLoop : Obligations.HeaderStepStartsTheLoop := by
  unfold Obligations.HeaderStepStartsTheLoop
  intro s hs hread hlen
  refine ⟨_, step_of_header hs hread hlen, ?_⟩
  rw [State.curDec_setCurDec]
  exact ⟨s.curDec.headerValue_eq_or, rfl, rfl, Memory.read_nil, rfl, State.setCurDec_cmp s _, State.setCurDec_turn s _⟩

/-- Settles O20: where the loop test fails the run halts; where it holds, an instruction leaves the DEC RUNNING and a
truncation makes it FAILED. -/
theorem loopTestEndsTheRun : Obligations.LoopTestEndsTheRun := by
  unfold Obligations.LoopTestEndsTheRun
  intro s hs hread
  refine ⟨fun hend => ?_, fun hout hin => ?_⟩
  · refine ⟨_, step_of_loop_ended hs hread (by omega), State.setCurDec_turn s _, State.setCurDec_cmp s _, ?_⟩
    rw [State.curDec_setCurDec]
    rfl
  · have hat : s.AtInstr := ⟨hs, hread, hout, hin⟩
    rcases hat.decode_cases with ⟨i, rest, hd, -⟩ | hd
    · obtain ⟨d, -, hstep, hadvance⟩ := step_advances hat hd
      have hstatus : d.status = s.curDec.status := hadvance.status
      exact ⟨_, hstep, by rw [State.curDec_setCurDec, hstatus, hs.status]; decide⟩
    · exact ⟨_, step_of_truncated hat hd, by simp⟩

/-- Settles O21: the header step declares size 0, and the loop test fails at once. -/
theorem declaredSizeZeroGivesEmptyOutput : Obligations.DeclaredSizeZeroGivesEmptyOutput := by
  unfold Obligations.DeclaredSizeZeroGivesEmptyOutput
  intro rest s s1 hstart
  have hsize : (s.afterHeader (0x00 :: 0x00 :: rest)).dec.declaredSize = 0 := by simp [State.afterHeader, concat]
  have hhalt := step_of_loop_ended (s := s.afterHeader (0x00 :: 0x00 :: rest)) (.inl ⟨rfl, rfl⟩) rfl
    (fun hloop => Nat.not_lt_zero _ (hsize ▸ hloop.1))
  refine ⟨2, _, (stepsTo_one (step_afterHeader (by simp) hstart)).trans (stepsTo_one hhalt), ?_⟩
  rw [State.setCurDec_of_dec rfl, State.curDec_of_dec rfl]
  refine ⟨rfl, decResult_eq_ok.2 ⟨rfl, ?_⟩, hsize, rfl, rfl⟩
  rw [Dec.afterHalt_short, Dec.shortFlag, Dec.afterHalt_outLen, hsize]
  rfl

/-- Settles O22: an instruction consumes its fixed part and advances from there; a truncation consumes `cmd`. The bounds
before the step are those of the loop test, so the invariant is not needed. -/
theorem instructionStepMakesProgress : Obligations.InstructionStepMakesProgress := by
  unfold Obligations.InstructionStepMakesProgress
  intro s _ hat
  have ⟨_, _, hout, hin⟩ := hat
  rcases hat.decode_cases with ⟨i, rest, hd, hfits⟩ | hd
  · obtain ⟨d, -, hstep, hadvance⟩ := step_advances hat hd
    have hlow : s.curDec.inPtr + (1 + i.form.extraBytes) ≤ d.inPtr := hadvance.inPtrLow
    refine ⟨_, hstep, ?_⟩
    rw [State.curDec_setCurDec, hadvance.inLen, hadvance.declaredSize]
    refine ⟨by omega, hadvance.inPtrHigh hfits, hadvance.outPtrLow, hadvance.outPtrHigh hout.le, rfl, hadvance.inMem, rfl,
      fun i' rest' hd' hform => ?_⟩
    cases hd.symm.trans hd'
    obtain ⟨hptr, hgrown⟩ := hadvance.copy hform
    obtain ⟨hwf, -⟩ := decodedBytesAreAnEncoding _ _ _ hd
    have hpos : 0 < s.curDec.copyCount i.length := Nat.lt_min.2 ⟨length_pos_of_wf hwf, Nat.sub_pos_of_lt hout⟩
    exact ⟨hgrown ▸ Nat.lt_add_of_pos_right hpos, hptr⟩
  · refine ⟨_, step_of_truncated hat hd, ?_⟩
    rw [State.raise_dec_curDec, State.curDec_setCurDec]
    refine ⟨Nat.lt_succ_self _, hin, Nat.le_refl _, hout.le, rfl, rfl, rfl, fun i rest hd' => ?_⟩
    cases hd.symm.trans hd'

/-- Settles O23, by `decodeCall_ends`: a call that has a result is DONE or FAILED. -/
theorem decodeCallTerminates : Obligations.DecodeCallTerminates := by
  unfold Obligations.DecodeCallTerminates
  intro input s s1 hstart
  obtain ⟨r, hr⟩ := decodeCall_ends input
  obtain ⟨k, t, hk, hsteps, hresult⟩ := hr s s1 hstart
  exact ⟨k, t, hk, hsteps, decResult_ne_none.1 (by simp [hresult])⟩

/-- Settles O24: each call leaves the DEC of the run that `decodeCall_ends` gives, with the one result of the stream. -/
theorem decodeResultDependsOnStreamOnly : Obligations.DecodeResultDependsOnStreamOnly := by
  unfold Obligations.DecodeResultDependsOnStreamOnly
  intro input s s' s1 s1' t t' k k' hstart hstart' hrun hrun' hended hended'
  obtain ⟨r, hr⟩ := decodeCall_ends input
  have hresult {s s1 t : State} {k : Nat} (hstart : startDecode input s = .next s1) (hrun : StepsTo k s1 t)
      (hended : t.dec.status ≠ .running) : decResult t.dec = some r := by
    obtain ⟨n, u, -, hsteps, hu⟩ := hr s s1 hstart
    have hstatus := decResult_ne_none.1 (by simp [hu] : decResult u.dec ≠ none)
    rw [hrun.ended_dec_unique hsteps hended (by rcases hstatus with h | h <;> simp [h]), hu]
  rw [hresult hstart hrun hended, hresult hstart' hrun' hended']
  exact ⟨rfl, by simp⟩

/-- Settles O25: the invariant of DEC holds along the call, and says of a DEC that is DONE what R160 and R161 say. -/
theorem outputHasDeclaredLength : Obligations.OutputHasDeclaredLength := by
  unfold Obligations.OutputHasDeclaredLength
  intro b0 b1 rest s s1 t k r hstart hrun hresult
  obtain ⟨hinv, hin, hinLen⟩ := decodeCall_dec hstart hrun
  obtain ⟨hdone, rfl⟩ := decResult_eq_ok.1 hresult
  have hfin := hinv.done hdone
  have hsize : t.dec.declaredSize = b0.toNat + 256 * b1.toNat :=
    hfin.inLoop.header.trans (Dec.headerValue_of_stream hin)
  have hinLen' : t.dec.inLen = rest.length + 2 := hinLen
  simp only [Memory.toBytes_length, hfin.outLen, hfin.compSize, hfin.produced, hfin.short, decide_eq_true_eq]
  refine ⟨hsize, trivial, hfin.inLoop.outPtrHigh, hfin.inLoop.inPtrLow, hinLen' ▸ hfin.inLoop.inPtrHigh, trivial,
    fun hshort => ?_, fun a hlow hhigh => ?_⟩
  · rcases hfin.ended with hfull | hend
    · exact absurd hfull hshort.ne
    · exact hend.trans hinLen'
  · rw [List.getD_eq_getElem _ _ (by simpa using hhigh), Memory.toBytes_getElem,
      Memory.read_of_below hfin.inLoop.padAbove hlow, Memory.unlisted]

end Sys2Proof.Machine

/-! PROOFS of the statements of 43_match_finder.md: the candidate that the scan selects, the usability test, the window, and
the obligations O40, O42, O43 and O44. -/

namespace Sys2Proof.Machine

/-! ### The selected candidate (R183, R186) -/

theorem Cmp.Selected.unique {c : Cmp} {p q run run' : Nat} (h : c.Selected p run) (h' : c.Selected q run') :
    p = q ∧ run = run' := by
  obtain ⟨hp, hmax, hrecent⟩ := h
  obtain ⟨hq, hmax', hrecent'⟩ := h'
  have hrun : run = run' := Nat.le_antisymm (hmax' p run hp) (hmax q run' hq)
  rcases Nat.lt_trichotomy p q with hlt | heq | hgt
  · exact absurd (hrecent q run' hq hlt) (by omega)
  · exact ⟨heq, hrun⟩
  · exact absurd (hrecent' p run hp hgt) (by omega)

/-- The scan completes. What it keeps is the selected candidate, and it keeps that one whenever its run is not empty. -/
theorem Cmp.bestCandidate_selected (c : Cmp) (hc : c.Bounded) :
    ∃ best, c.bestCandidate = .ok best ∧ (∀ b, best = some b → c.Selected b.pos b.len) ∧
      (∀ p run, c.Selected p run → 0 < run → best = some ⟨p, run⟩) := by
  have hstart : c.windowStart + (c.committed - c.windowStart) = c.committed := by unfold Cmp.windowStart; split <;> omega
  obtain ⟨best, hscan, hbest⟩ := c.scan_spec hc c.windowStart (c.committed - c.windowStart) none hstart.le
  simp only [hstart] at hbest
  refine ⟨best, hscan, ?_⟩
  rcases hbest with ⟨rfl, hempty⟩ | ⟨q, r, rfl, hlow, hhigh, hrun, -, hmax, hrecent⟩
  · refine ⟨fun _ h => (Option.some_ne_none _ h.symm).elim, fun p run ⟨⟨hlow, hhigh, hrun⟩, _⟩ hpos => ?_⟩
    exact absurd (hempty p run hlow hhigh hrun) (Nat.not_le.2 hpos)
  · have hsel : c.Selected q r :=
      ⟨⟨hlow, hhigh, hrun⟩, fun q' r' ⟨hlow', hhigh', hrun'⟩ => hmax q' r' hlow' hhigh' hrun',
        fun q' r' ⟨_, hhigh', hrun'⟩ hlater => hrecent q' r' hlater hhigh' hrun'⟩
    refine ⟨fun b hb => Option.some.inj hb ▸ hsel, fun p run hp _ => ?_⟩
    obtain ⟨rfl, rfl⟩ := hsel.unique hp
    rfl

/-! ### The usability test (R188, R189) -/

theorem Cmp.usable_eq_some {c : Cmp} {best : Option Candidate} {m : Match} (h : c.usable best = some m) :
    best = some ⟨m.pos, m.len⟩ ∧ 3 ≤ m.len ∧ m.effOff = c.effOff m.pos ∧ selectForm m.len m.effOff = some m.form := by
  unfold Cmp.usable at h
  split at h
  · cases h
  · split at h
    · cases h
    · rename_i b hlen
      split at h
      · cases h
      · rename_i hform
        cases h
        exact ⟨rfl, Nat.not_lt.1 hlen, rfl, hform⟩

theorem Cmp.usable_eq_none {c : Cmp} {b : Candidate} (h : c.usable (some b) = none) (hlen : 3 ≤ b.len) :
    selectForm b.len (c.effOff b.pos) = none := by
  simp only [Cmp.usable, Config.minMatch, Nat.not_lt.2 hlen, if_false] at h
  split at h
  · assumption
  · cases h

theorem Cmp.findMatch_of_bestCandidate {c : Cmp} {best : Option Candidate} (h : c.bestCandidate = .ok best) :
    c.findMatch = .ok (c.usable best) := by
  rw [Cmp.findMatch, h]

/-! ### The window and the effective offset (R183, R187) -/

theorem Cmp.committed_le_windowStart_add (c : Cmp) : c.committed ≤ c.windowStart + 4095 := by
  unfold Cmp.windowStart Config.window
  split <;> omega

/-- The effective offset is one less than the distance from the end of the virtual history back to `pos`. -/
theorem Cmp.effOff_add_one {c : Cmp} {pos : Nat} (h : pos < c.committed) :
    c.effOff pos + 1 + pos = c.committed + c.pending := by
  unfold Cmp.effOff
  omega

/-- The effective offset does not change when the pending literals are flushed. -/
theorem Cmp.effOff_flushed (c : Cmp) (pos : Nat) : c.flushed.effOff pos = c.effOff pos := by
  obtain ⟨-, -, -, hcommitted, hpending, -⟩ := c.flushed_fields
  rw [Cmp.effOff, Cmp.effOff, hcommitted, hpending, Nat.add_zero]

/-! ### Form selection (R190, R204) -/

theorem selectForm_eq_none_iff {len offset : Nat} (hlen : len ≤ 262) :
    selectForm len offset = none ↔ (len ≤ 6 ∧ 1023 < offset) ∨ (7 ≤ len ∧ 4095 < offset) := by
  simp only [selectForm, Config.offScMax, Config.offMcEncMax, Config.offLcMax, Config.extLenMax, Config.offEcMax]
  rcases Nat.lt_or_ge 6 len with hlong | hshort
  · have hlong' : ¬len ≤ 6 := Nat.not_le.2 hlong
    have hseven : 7 ≤ len := hlong
    simp only [hlong', hseven, hlen, false_and, true_and, if_false, false_or]
    split_ifs <;> simp <;> omega
  · have hseven : ¬7 ≤ len := Nat.not_le.2 (Nat.lt_succ_of_le hshort)
    simp only [hshort, hseven, false_and, true_and, if_false, or_false]
    split_ifs <;> simp <;> omega

/-! ### The obligations -/

/-- Settles O40: a form is selected up to the last offset of its range, and the two packings are evaluated. -/
theorem unusableLengthsAndOffsets : Obligations.UnusableLengthsAndOffsets := by
  unfold Obligations.UnusableLengthsAndOffsets
  exact ⟨fun _ _ _ hlen _ => selectForm_eq_none_iff hlen, rfl, rfl, rfl, rfl⟩

/-- Settles O42: the usability test is made of what the scan keeps, which is the selected candidate. -/
theorem findMatchSelectsLongestMostRecent : Obligations.FindMatchSelectsLongestMostRecent := by
  unfold Obligations.FindMatchSelectsLongestMostRecent
  intro c hcommitted hpending hcur
  obtain ⟨best, hbest, hselected, hkept⟩ := c.bestCandidate_selected ⟨hcommitted, hpending, hcur⟩
  refine ⟨c.usable best, Cmp.findMatch_of_bestCandidate hbest, fun m hm => ?_, fun hnone p run hp hrun => ?_⟩
  · obtain ⟨hb, hlen, hoff, hform⟩ := Cmp.usable_eq_some hm
    exact ⟨hselected _ hb, hlen, hoff, hform⟩
  · rw [hkept p run hp (by omega)] at hnone
    exact Cmp.usable_eq_none hnone hrun

/-- Settles O43: the distance back to `p` is the same before and after the flush, and the window bounds it. -/
theorem effectiveOffsetIsTheDecoders : Obligations.EffectiveOffsetIsTheDecoders := by
  unfold Obligations.EffectiveOffsetIsTheDecoders
  intro c hl
  refine ⟨fun p run ⟨⟨hlow, hhigh, _⟩, _⟩ => ?_, fun m hm => ?_⟩
  · have hoff := Cmp.effOff_add_one hhigh
    have hwindow := c.committed_le_windowStart_add
    have hpending := hl.pendMax
    obtain ⟨-, -, -, hcommitted, hempty, -⟩ := c.flushed_fields
    refine ⟨by omega, by omega, by omega, c.flushed, hl.flush_eq, hcommitted, hempty, (c.effOff_flushed p).symm,
      fun d hd => ?_⟩
    rw [Dec.copySource, hd, hcommitted]
    omega
  · obtain ⟨found, hfound, hsome, -⟩ := findMatchSelectsLongestMostRecent c hl.bounded.committed hl.bounded.pending
      hl.bounded.cur
    obtain ⟨hselected, -, hoff, -⟩ := hsome m (Except.ok.inj (hfound.symm.trans hm))
    exact ⟨hselected, hoff⟩

/-- Settles O44: a longer agreement with the source would hold at the position where the run stops, and the history and
the source are one sequence. -/
theorem historyRunIsSourceRun : Obligations.HistoryRunIsSourceRun := by
  unfold Obligations.HistoryRunIsSourceRun
  intro c p hl hp
  obtain ⟨r, hrun, hmax, hagree, hstop⟩ := c.runAt_spec hl.bounded p hp
  simp only [hl.virtByte_eq] at hagree hstop
  refine ⟨r, hrun, hmax, hagree, fun r' hmax' hagree' => Nat.le_of_not_lt fun hlt => ?_⟩
  exact hstop (hlt.trans_le hmax') (hagree' r hlt)

end Sys2Proof.Machine

/-! PROOFS of the statements of 44_instruction_encoder.md: the forms of a match, what each operation of CMP leaves, R215 (e)
along every run, the end of every encode call, the program that a stream spells, and the obligations O38, O39, O41, O45 to
O47, O49 to O52 and O57 to O59. -/

namespace Sys2Proof.Machine

/-! ### R215 (e) along every run -/

/-- R215 (e) speaks of CMP only. -/
theorem State.StreamInv.of_cmp_eq {s t : State} (he : s.StreamInv) (h : t.cmp = s.cmp) : t.StreamInv := by
  unfold State.StreamInv
  rw [h]
  exact he

/-- Every step keeps R215 (e), whatever the other units hold: decoding reads back what the encoder writes (O4). -/
theorem step_keeps_streamInv {s t : State} (hc : s.cmp.Inv) (he : s.StreamInv) (h : step s = .next t) : t.StreamInv := by
  rcases step_next h with ⟨-, rfl⟩ | ⟨-, -, _, _, rfl⟩ | ⟨hturn, hrun, -⟩ | ⟨-, -, _, _, rfl⟩
  · exact he.of_cmp_eq rfl
  · exact he.of_cmp_eq rfl
  · rw [step_of_cmp hturn hrun] at h
    exact State.serveCmp_decodes decodeOfEncodeIsIdentity hc hrun he h
  · exact he.of_cmp_eq rfl

/-- Between calls and before the header step of a call nothing has been emitted. -/
theorem streamInv_of_no_stream {s : State} (hnew : s.cmp.headerWritten = false) (hdone : s.cmp.status ≠ .done) :
    s.StreamInv := by
  rintro (⟨-, hwritten⟩ | hended)
  · exact absurd hwritten (by simp [hnew])
  · exact absurd hended hdone

/-! ### Form selection (R204) -/

/-- What a selected form says of the length and the offset: the first test of R204 that holds is that of the form. -/
theorem selectForm_cases {len offset : Nat} {form : Form} (h : selectForm len offset = some form) :
    (form = .shortCopy ∧ len ≤ 6 ∧ offset ≤ 15) ∨
    (form = .medCopy ∧ len ≤ 6 ∧ 16 ≤ offset ∧ offset ≤ 1023) ∨
    (form = .longCopy ∧ 7 ≤ len ∧ len ≤ 22 ∧ offset ≤ 1023) ∨
    (form = .extCopy ∧ 7 ≤ len ∧ len ≤ 262 ∧ offset ≤ 4095 ∧ (len ≤ 22 → 1023 < offset)) := by
  unfold selectForm Config.offScMax Config.offMcEncMax Config.offLcMax Config.extLenMax Config.offEcMax at h
  split_ifs at h with hsc hmc hlc hec <;> cases h
  · exact .inl ⟨rfl, hsc⟩
  · obtain ⟨hlen, hoffset⟩ := hmc
    exact .inr (.inl ⟨rfl, hlen, by omega, hoffset⟩)
  · exact .inr (.inr (.inl ⟨rfl, hlc⟩))
  · obtain ⟨hlow, hhigh, hoffset⟩ := hec
    exact .inr (.inr (.inr ⟨rfl, hlow, hhigh, hoffset, by omega⟩))

theorem mem_copyForms {i : Instr} {length offset : Nat} : i ∈ copyForms length offset ↔
    i = .shortCopy length offset ∨ i = .medCopy length offset ∨ i = .longCopy length offset ∨
      i = .extCopy length offset := by
  simp [copyForms]

/-! ### What a flush appends (R202) -/

/-- `CS[0..cs_len)`, the stream emitted so far (R36). -/
def Cmp.stream (c : Cmp) : List Byte := c.csMem.toBytes c.csLen

/-- What a flush appends to the stream: one ShortLiteral with the pending bytes, or nothing. -/
def Cmp.flushBytes (c : Cmp) : List Byte :=
  if c.pending = 0 then [] else encode (.shortLiteral c.pending) ++ c.pendMem.toBytes c.pending

theorem Cmp.pendBytes_all (c : Cmp) : c.pendBytes 0 c.pending = c.pendMem.toBytes c.pending := by
  simp [Cmp.pendBytes, Memory.toBytes]

theorem Cmp.flushed_of_empty {c : Cmp} (h : c.pending = 0) : c.flushed = c := by simp [Cmp.flushed, h]

/-- A flush of pending bytes, with the bytes it writes to `CS` and to `SHADOW`. -/
theorem Cmp.flushed_of_pending {c : Cmp} (h : 0 < c.pending) :
    c.flushed = { c with
      csMem := c.csMem.writeAll c.csLen (encode (.shortLiteral c.pending) ++ c.pendMem.toBytes c.pending)
      csLen := c.csLen + 1 + c.pending
      shadowMem := c.shadowMem.writeAll c.committed (c.pendMem.toBytes c.pending)
      committed := c.committed + c.pending
      pendMem := []
      pending := 0 } := by
  rw [Cmp.flushed, if_pos h, Cmp.pendBytes_all]

@[simp] theorem Cmp.flushed_srcLen (c : Cmp) : c.flushed.srcLen = c.srcLen := by
  obtain ⟨-, hsrcLen, -⟩ := c.flushed_fields
  exact hsrcLen

theorem Cmp.flushed_stream {c : Cmp} (hwf : c.csMem.wf) : c.flushed.stream = c.stream ++ c.flushBytes := by
  rcases Nat.eq_zero_or_pos c.pending with h | h
  · simp [Cmp.flushed_of_empty h, Cmp.flushBytes, h]
  · rw [Cmp.flushBytes, if_neg h.ne', Cmp.stream, Cmp.stream, ← Memory.toBytes_writeAll _ _ _ hwf,
      Cmp.flushed_of_pending h]
    have hlen : c.csLen + (encode (.shortLiteral c.pending) ++ c.pendMem.toBytes c.pending).length =
        c.csLen + 1 + c.pending := by simp [encode]; omega
    rw [hlen]

theorem Cmp.flushed_shadow_below (c : Cmp) {i : Nat} (hi : i < c.committed) :
    c.flushed.shadowMem.read i = c.shadowMem.read i := by
  rcases Nat.eq_zero_or_pos c.pending with h | h
  · rw [Cmp.flushed_of_empty h]
  · rw [Cmp.flushed_of_pending h]
    exact Memory.read_writeAll_outside _ _ _ _ (.inl hi)

/-- The fixed part of a ShortLiteral, as R202 writes it. -/
theorem encode_shortLiteral {n : Nat} (h1 : 1 ≤ n) (h16 : n ≤ 16) :
    encode (.shortLiteral n) = [BitVec.ofNat 8 (0xD0 ||| (n - 1))] := by
  rw [encode, concat_eq_shift_or _ _ _ (show n - 1 < 2 ^ 4 by omega)]
  rfl

/-! ### The header step (R200) -/

/-- The header of the stream of a source of `n` bytes (R64). -/
def headerBytes (n : Nat) : List Byte := [BitVec.ofNat 8 n, BitVec.ofNat 8 (n / 256)]

/-- CMP after its header step. -/
def Cmp.withHeader (c : Cmp) : Cmp :=
  { c with
    cur := 0
    shadowMem := []
    committed := 0
    pendMem := []
    pending := 0
    csMem := Memory.writeAll [] 0 (headerBytes c.srcLen)
    csLen := 2
    headerWritten := true }

@[simp] theorem Cmp.withHeader_srcLen (c : Cmp) : c.withHeader.srcLen = c.srcLen := rfl
@[simp] theorem Cmp.withHeader_committed (c : Cmp) : c.withHeader.committed = 0 := rfl
@[simp] theorem Cmp.withHeader_csLen (c : Cmp) : c.withHeader.csLen = 2 := rfl

theorem Cmp.headerStep_eq (c : Cmp) : c.headerStep = .ok c.withHeader := by
  have hlow : BitVec.ofNat 8 (bits 7 0 c.srcLen) = BitVec.ofNat 8 c.srcLen := by simp [bits, BitVec.toNat_eq]
  rw [Cmp.headerStep, Cmp.appendCsAll_eq _ _ (by simp [Config.csMax]), hlow]
  rfl

theorem Cmp.withHeader_stream (c : Cmp) : c.withHeader.stream = headerBytes c.srcLen :=
  Memory.toBytes_writeAll [] 0 (headerBytes c.srcLen) Memory.nil_wf

/-! ### The literal push (R209) -/

/-- CMP with the source byte at `cur` pushed into `PEND`. -/
def Cmp.pushed (c : Cmp) : Cmp :=
  { c with
    pendMem := c.pendMem.write c.pending (c.srcMem.read c.cur)
    pending := c.pending + 1
    cur := c.cur + 1 }

@[simp] theorem Cmp.pushed_srcMem (c : Cmp) : c.pushed.srcMem = c.srcMem := rfl
@[simp] theorem Cmp.pushed_srcLen (c : Cmp) : c.pushed.srcLen = c.srcLen := rfl
@[simp] theorem Cmp.pushed_cur (c : Cmp) : c.pushed.cur = c.cur + 1 := rfl
@[simp] theorem Cmp.pushed_committed (c : Cmp) : c.pushed.committed = c.committed := rfl
@[simp] theorem Cmp.pushed_pending (c : Cmp) : c.pushed.pending = c.pending + 1 := rfl
@[simp] theorem Cmp.pushed_csMem (c : Cmp) : c.pushed.csMem = c.csMem := rfl
@[simp] theorem Cmp.pushed_csLen (c : Cmp) : c.pushed.csLen = c.csLen := rfl
@[simp] theorem Cmp.pushed_stream (c : Cmp) : c.pushed.stream = c.stream := rfl
@[simp] theorem Cmp.pushed_shadowMem (c : Cmp) : c.pushed.shadowMem = c.shadowMem := rfl
@[simp] theorem Cmp.pushed_status (c : Cmp) : c.pushed.status = c.status := rfl
@[simp] theorem Cmp.pushed_err (c : Cmp) : c.pushed.err = c.err := rfl

theorem Cmp.pushed_stored {c : Cmp} (hc : c.Stored) : c.pushed.Stored :=
  { hc with
    pendWf := Memory.write_wf _ _ _ hc.pendWf
    pendBelow := Memory.write_below _ _ _ _ (Nat.lt_succ_self _) (Memory.below_mono hc.pendBelow (Nat.le_succ _)) }

/-- The pending bytes are those of the source behind the committed history (R215). -/
theorem Cmp.pushed_pend {c : Cmp} (hc : c.Stored) (hl : c.InLoop) :
    ∀ j < c.pushed.pending, c.pushed.pendMem.read j = c.srcMem.read (c.committed + j) := by
  intro j hj
  rcases Nat.lt_succ_iff_lt_or_eq.1 hj with hlt | rfl
  · exact (Memory.read_write_other _ _ _ _ hlt.ne).trans (hl.pend j hlt)
  · exact (Memory.read_write_same _ _ _ hc.pendWf).trans (congrArg _ hl.curEq)

/-- A push flushes exactly when the byte is the sixteenth. -/
theorem Cmp.pushLiteral_eq {c : Cmp} (hl : c.InLoop) (hcur : c.cur < c.srcLen) :
    c.pushLiteral = .ok (if c.pending = 15 then c.pushed.flushed else c.pushed) := by
  have hpending := hl.pendMax
  have hcurEq := hl.curEq
  simp only [Cmp.pushLiteral, Cmp.readSrc_eq c c.cur hcur, Cmp.appendPend_eq c _ (show c.pending < 16 by omega)]
  by_cases hfull : c.pending = 15
  · have hroom : c.csLen + 1 + c.pushed.pending ≤ 69633 :=
      csBound_room hl.csHigh (by rw [Cmp.pushed_pending]; omega) hl.srcMax
    rw [if_pos (by simp [hfull, Config.pendMax]), if_pos hfull]
    exact c.pushed.flush_eq (by rw [Cmp.pushed_pending]; omega) hroom
      (by rw [Cmp.pushed_committed, Cmp.pushed_pending, Cmp.pushed_srcLen]; omega)
  · rw [if_neg (by simpa [Config.pendMax] using hfull), if_neg hfull]
    rfl

/-- The sixteenth literal sends all sixteen to the stream (R202, R209). -/
theorem Cmp.pushed_flushed_stream {c : Cmp} (hc : c.Stored) (hl : c.InLoop) (hfull : c.pending = 15) :
    c.pushed.flushed.stream =
      c.stream ++ (0xDF : Byte) :: (List.range 16).map (fun j => c.srcMem.read (c.committed + j)) := by
  have hsixteen : c.pushed.pending = 16 := by rw [Cmp.pushed_pending, hfull]
  have hbytes : c.pushed.pendMem.toBytes 16 = (List.range 16).map (fun j => c.srcMem.read (c.committed + j)) :=
    List.map_congr_left fun j hj => Cmp.pushed_pend hc hl j (by rw [hsixteen]; exact List.mem_range.1 hj)
  rw [Cmp.flushed_stream (c := c.pushed) hc.csWf, Cmp.pushed_stream, Cmp.flushBytes, hsixteen, hbytes]
  rfl

/-! ### A step of CMP, at each place of its call -/

/-- CMP at the end of its call (R211): the last flush and `halt(DONE)`. -/
def Cmp.finished (c : Cmp) : Cmp := { c.flushed with status := .done }

/-- The header step. -/
theorem step_of_cmp_header {s : State} (hturn : s.turn = .cmp) (hrun : s.cmp.status = .running)
    (hwritten : s.cmp.headerWritten = false) (hsize : s.cmp.srcLen ≤ 65535) :
    step s = .next { s with cmp := s.cmp.withHeader } := by
  rw [step_of_cmp hturn hrun, State.serveCmp, if_neg (by simp [hwritten]), Config.sizeMax, if_neg (Nat.not_lt.2 hsize),
    Cmp.headerStep_eq]
  rfl

/-- The size check (R244). -/
theorem step_of_cmp_tooLarge {s : State} (hturn : s.turn = .cmp) (hrun : s.cmp.status = .running)
    (hwritten : s.cmp.headerWritten = false) (hsize : 65535 < s.cmp.srcLen) :
    step s = .next { s with cmp := s.cmp.afterRaise .inputTooLarge } := by
  rw [step_of_cmp hturn hrun, State.serveCmp, if_neg (by simp [hwritten]), Config.sizeMax, if_pos hsize]
  rfl

/-- A source position (R210). -/
theorem step_of_cmpStep {s : State} (hat : s.AtCmpStep) {c : Cmp} (hc : s.cmp.cmpStep = .ok c) :
    step s = .next { s with cmp := c } := by
  obtain ⟨hturn, hrun, hwritten, hcur⟩ := hat
  rw [step_of_cmp hturn hrun, State.serveCmp, if_pos hwritten, if_pos hcur, hc]
  rfl

/-- The end (R211). -/
theorem step_of_cmp_end {s : State} (hturn : s.turn = .cmp) (hrun : s.cmp.status = .running) (hl : s.cmp.InLoop)
    (hcur : s.cmp.srcLen ≤ s.cmp.cur) : step s = .next { s with cmp := s.cmp.finished } := by
  rw [step_of_cmp hturn hrun, State.serveCmp, if_pos hl.headerWritten, if_neg (Nat.not_lt.2 hcur), Cmp.finish,
    hl.flush_eq]
  rfl

/-- The invariant of CMP at a source position. -/
theorem State.AtCmpStep.inLoop {s : State} (hat : s.AtCmpStep) (hc : s.cmp.Inv) : s.cmp.InLoop := by
  obtain ⟨-, hrun, hwritten, -⟩ := hat
  exact hc.running hrun hwritten

theorem State.AtCmpStep.cur_lt {s : State} (hat : s.AtCmpStep) : s.cmp.cur < s.cmp.srcLen := by
  obtain ⟨-, -, -, hcur⟩ := hat
  exact hcur

theorem Cmp.cmpStep_of_none {c : Cmp} (h : c.findMatch = .ok none) : c.cmpStep = c.pushLiteral := by
  simp [Cmp.cmpStep, h]

theorem Cmp.cmpStep_of_match {c : Cmp} {m : Match} (h : c.findMatch = .ok (some m)) : c.cmpStep = c.emitCopy m := by
  simp [Cmp.cmpStep, h]

/-- What the match finder's answer says at a step boundary (R183 to R189). -/
theorem Cmp.InLoop.match_spec {c : Cmp} (hl : c.InLoop) {m : Match} (h : c.findMatch = .ok (some m)) :
    m.pos < c.committed ∧ c.runAt m.pos = .ok m.len ∧ 3 ≤ m.len ∧ selectForm m.len m.effOff = some m.form := by
  obtain ⟨found, hfound, hmatch⟩ := c.findMatch_spec hl.bounded
  obtain ⟨-, hpos, hrun, hlen, -, hform⟩ := hmatch m (Except.ok.inj (hfound.symm.trans h))
  exact ⟨hpos, hrun, hlen, hform⟩

/-- What a copy emission leaves (R208), with the invariant of the next step boundary. -/
theorem Cmp.emitCopy_next {c : Cmp} (hc : c.Inv) (hl : c.InLoop) {m : Match} (h : c.findMatch = .ok (some m)) :
    ∃ c', c.cmpStep = .ok c' ∧ c'.InLoop ∧ c'.stream = c.stream ++ c.flushBytes ++ encode (matchInstr m) ∧
      c'.srcMem = c.srcMem ∧ c'.srcLen = c.srcLen ∧ c'.cur = c.cur + m.len ∧
      c'.committed = c.committed + c.pending + m.len ∧ c'.pending = 0 ∧ c'.status = c.status ∧ c'.err = c.err := by
  obtain ⟨hpos, hrun, hlen, hform⟩ := hl.match_spec h
  obtain ⟨c', hemit, -, hl', hmem, hsrcLen, hcur, hcommitted, hpending, hstatus, herr, hcsLen, hcsMem⟩ :=
    c.emitCopy_spec hc.stored hl m hpos hrun hlen hform
  refine ⟨c', (Cmp.cmpStep_of_match h).trans hemit, hl', ?_, hmem, hsrcLen, hcur, hcommitted, hpending, hstatus, herr⟩
  rw [← Cmp.flushed_stream hc.csWf, Cmp.stream, Cmp.stream, hcsLen, hcsMem,
    Memory.toBytes_writeAll _ _ _ (Cmp.flushed_stored hc.stored).csWf]

/-- What a step of a sound CMP in its call can do: the header step or the size check, a source position, or the end. -/
theorem step_cmp_cases {s t : State} (hc : s.cmp.Inv) (hturn : s.turn = .cmp) (hrun : s.cmp.status = .running)
    (h : step s = .next t) :
    t = { s with cmp := s.cmp.withHeader } ∨ t = { s with cmp := s.cmp.afterRaise .inputTooLarge } ∨
    (s.AtCmpStep ∧ ∃ c, s.cmp.cmpStep = .ok c ∧ c.status = .running ∧ t = { s with cmp := c }) ∨
    (s.cmp.headerWritten = true ∧ s.cmp.InLoop ∧ s.cmp.cur = s.cmp.srcLen ∧ t = { s with cmp := s.cmp.finished }) := by
  cases hwritten : s.cmp.headerWritten with
  | false =>
    rcases Nat.lt_or_ge 65535 s.cmp.srcLen with hsize | hsize
    · cases (step_of_cmp_tooLarge hturn hrun hwritten hsize).symm.trans h
      exact .inr (.inl rfl)
    · cases (step_of_cmp_header hturn hrun hwritten hsize).symm.trans h
      exact .inl rfl
  | true =>
    have hl := hc.running hrun hwritten
    rcases Nat.lt_or_ge s.cmp.cur s.cmp.srcLen with hcur | hend
    · have hat : s.AtCmpStep := ⟨hturn, hrun, hwritten, hcur⟩
      obtain ⟨c, hstep, -, -, -, -, -, hstatus, -⟩ := s.cmp.cmpStep_spec hc.stored hl hcur
      cases (step_of_cmpStep hat hstep).symm.trans h
      exact .inr (.inr (.inl ⟨hat, c, hstep, hstatus.trans hrun, rfl⟩))
    · cases (step_of_cmp_end hturn hrun hl hend).symm.trans h
      exact .inr (.inr (.inr ⟨rfl, hl, Nat.le_antisymm hl.curHigh hend, rfl⟩))

/-! ### Runs -/

/-- What holds of the first state of a run and is kept by every step from a state of the run holds of its last state. -/
theorem StepsTo.induction {P : State → Prop} {k : Nat} {s t : State} (h : StepsTo k s t) (hfirst : P s)
    (hstep : ∀ n u v, StepsTo n s u → P u → step u = .next v → P v) : P t := by
  induction k generalizing s with
  | zero => exact stepsTo_zero.1 h ▸ hfirst
  | succ k ih =>
    obtain ⟨u, hu, hrest⟩ := stepsTo_succ.1 h
    exact ih hrest (hstep 0 s u (stepsTo_zero.2 rfl) hfirst hu)
      fun n v w hv => hstep (n + 1) v w (stepsTo_succ.2 ⟨u, hu, hv⟩)

/-- A longer run passes through the end of a shorter one. -/
theorem StepsTo.remainder {k n : Nat} {s t u : State} (h : StepsTo k s t) (h' : StepsTo (k + n) s u) :
    StepsTo n t u := by
  induction k generalizing s with
  | zero =>
    rw [stepsTo_zero] at h
    subst h
    rwa [Nat.zero_add] at h'
  | succ k ih =>
    rw [Nat.add_right_comm] at h'
    obtain ⟨v, hv, hrest⟩ := stepsTo_succ.1 h
    obtain ⟨v', hv', hrest'⟩ := stepsTo_succ.1 h'
    cases hv.symm.trans hv'
    exact ih hrest hrest'

/-! ### The end of an encode call -/

/-- On its turn, a machine whose CMP is `c` comes within `n` steps to a state whose CMP is `c'`. -/
def Cmp.ReachesIn (c : Cmp) (n : Nat) (c' : Cmp) : Prop :=
  ∀ s : State, s.turn = .cmp → s.cmp = c → ∃ k t, k ≤ n ∧ StepsTo k s t ∧ t.cmp = c'

/-- The last step of a call. -/
theorem Cmp.finished_reachesIn {c : Cmp} (hrun : c.status = .running) (hl : c.InLoop) (hcur : c.srcLen ≤ c.cur)
    (n : Nat) : c.ReachesIn (n + 1) c.finished := by
  rintro s hturn rfl
  exact ⟨1, _, Nat.le_add_left 1 n, stepsTo_one (step_of_cmp_end hturn hrun hl hcur), rfl⟩

/-- A step at a source position, before a run. -/
theorem Cmp.ReachesIn.of_cmpStep {c c1 c' : Cmp} {n : Nat} (h : c1.ReachesIn n c') (hrun : c.status = .running)
    (hwritten : c.headerWritten = true) (hcur : c.cur < c.srcLen) (hstep : c.cmpStep = .ok c1) :
    c.ReachesIn (n + 1) c' := by
  rintro s hturn rfl
  obtain ⟨k, t, hk, hsteps, ht⟩ := h { s with cmp := c1 } hturn rfl
  exact ⟨k + 1, t, Nat.succ_le_succ hk,
    stepsTo_succ.2 ⟨_, step_of_cmpStep ⟨hturn, hrun, hwritten, hcur⟩ hstep, hsteps⟩, ht⟩

/-- Past its header step every call of CMP ends DONE, in a CMP that the one now determines, within one step more than the
source has bytes left (R212): by induction on the bytes left, of which every step takes at least one. -/
theorem Cmp.exists_reachesIn_done (n : Nat) (c : Cmp) (hc : c.Inv) (hrun : c.status = .running)
    (hwritten : c.headerWritten = true) (hleft : c.srcLen - c.cur ≤ n) :
    ∃ c', c'.status = .done ∧ c.ReachesIn (n + 1) c' := by
  induction n generalizing c with
  | zero =>
    exact ⟨_, rfl, Cmp.finished_reachesIn hrun (hc.running hrun hwritten) (by omega) 0⟩
  | succ n ih =>
    have hl := hc.running hrun hwritten
    by_cases hcur : c.cur < c.srcLen
    · obtain ⟨c1, hstep, hstored, hl1, -, hlen, hforward, hstatus, herr⟩ := c.cmpStep_spec hc.stored hl hcur
      have hrun1 := hstatus.trans hrun
      have herr1 := herr.trans (hc.errNone.2 (by simp [hrun]))
      obtain ⟨c', hdone, hreach⟩ := ih c1 (hstored.inv_running hrun1 herr1 hl1) hrun1 hl1.headerWritten (by omega)
      exact ⟨c', hdone, hreach.of_cmpStep hrun hwritten hcur hstep⟩
    · exact ⟨_, rfl, Cmp.finished_reachesIn hrun hl (Nat.not_lt.1 hcur) (n + 1)⟩

/-- CMP after the header step of an encode call: nothing of it is older than the call. -/
def Cmp.started (source : List Byte) : Cmp :=
  ({ Cmp.reset with srcMem := Memory.ofBytes source, srcLen := source.length }.begin 0).withHeader

theorem Cmp.started_inv {source : List Byte} (hsize : source.length ≤ 65535) : (Cmp.started source).Inv := by
  have hbegun := Cmp.begin_inv { Cmp.reset with srcMem := Memory.ofBytes source, srcLen := source.length } 0
    (Memory.ofBytes_wf source) (Memory.ofBytes_below source)
  obtain ⟨c, hheader, hstored, hl, -⟩ := Cmp.headerStep_spec _ hbegun.stored hsize
  cases (Cmp.headerStep_eq _).symm.trans hheader
  exact hstored.inv_running rfl rfl hl

/-- The first step of an encode call. -/
theorem startEncode_step {source : List Byte} {s s1 : State} (hstart : startEncode source s = .next s1)
    (hsize : source.length ≤ 65535) : s1.turn = .cmp ∧ step s1 = .next { s1 with cmp := Cmp.started source } := by
  obtain ⟨-, rfl⟩ := startEncode_cases hstart
  exact ⟨rfl, step_of_cmp_header rfl rfl rfl hsize⟩

/-- Every encode call on a source that is not too large ends DONE within two steps more than the source has bytes, in a CMP
that the source determines. -/
theorem encodeCall_done {source : List Byte} (hsize : source.length ≤ 65535) : ∃ c : Cmp, c.status = .done ∧
    ∀ s s1, startEncode source s = .next s1 → ∃ k t, k ≤ source.length + 2 ∧ StepsTo k s1 t ∧ t.cmp = c := by
  obtain ⟨c, hdone, hreach⟩ := Cmp.exists_reachesIn_done source.length _ (Cmp.started_inv hsize) rfl rfl (Nat.le_refl _)
  refine ⟨c, hdone, fun s s1 hstart => ?_⟩
  obtain ⟨hturn, hstep⟩ := startEncode_step hstart hsize
  obtain ⟨k, t, hk, hsteps, ht⟩ := hreach { s1 with cmp := Cmp.started source } hturn rfl
  exact ⟨k + 1, t, Nat.succ_le_succ hk, stepsTo_succ.2 ⟨_, hstep, hsteps⟩, ht⟩

/-- An encode call on a source that is too large ends at once (R244). -/
theorem encodeCall_tooLarge {source : List Byte} {s s1 : State} (hsize : 65535 < source.length)
    (hstart : startEncode source s = .next s1) :
    StepsTo 1 s1 { s1 with cmp := s1.cmp.afterRaise .inputTooLarge } := by
  obtain ⟨-, rfl⟩ := startEncode_cases hstart
  exact stepsTo_one (step_of_cmp_tooLarge rfl rfl rfl hsize)

/-- Every encode call comes to a result, which its source determines. -/
theorem encodeCall_ends (source : List Byte) : ∃ r, ∀ s s1, startEncode source s = .next s1 →
    ∃ k t, StepsTo k s1 t ∧ cmpResult t.cmp = some r := by
  by_cases hsize : source.length ≤ 65535
  · obtain ⟨c, hdone, hcall⟩ := encodeCall_done hsize
    refine ⟨.ok c.stream, fun s s1 hstart => ?_⟩
    obtain ⟨k, t, -, hsteps, rfl⟩ := hcall s s1 hstart
    exact ⟨k, t, hsteps, cmpResult_eq_ok.2 ⟨hdone, rfl⟩⟩
  · exact ⟨.error .inputTooLarge, fun s s1 hstart => ⟨1, _, encodeCall_tooLarge (Nat.not_le.1 hsize) hstart, rfl⟩⟩

/-! ### After the end of an encode call -/

theorem status_ne_running_of_cmpResult {c : Cmp} {r : Except ErrCode (List Byte)} (h : cmpResult c = some r) :
    c.status ≠ .running := by
  intro hrun
  simp [cmpResult, hrun] at h

/-- A CMP whose call has ended takes no step (R246). -/
theorem stepsTo_keeps_ended_cmp {k : Nat} {s t : State} (hended : s.cmp.status ≠ .running) (h : StepsTo k s t) :
    t.cmp = s.cmp := by
  refine h.induction (P := fun u => u.cmp = s.cmp) rfl fun _ u v _ hu hstep => ?_
  rcases step_next hstep with ⟨-, rfl⟩ | ⟨-, -, _, _, rfl⟩ | ⟨-, hrun, -⟩ | ⟨-, -, _, _, rfl⟩
  · exact hu
  · exact hu
  · exact absurd hrun (by rwa [hu])
  · exact hu

/-- Two runs from one state at whose ends CMP is not RUNNING leave the same CMP. -/
theorem StepsTo.ended_cmp_unique {k k' : Nat} {s t t' : State} (h : StepsTo k s t) (h' : StepsTo k' s t')
    (ht : t.cmp.status ≠ .running) (ht' : t'.cmp.status ≠ .running) : t.cmp = t'.cmp := by
  rcases Nat.le_total k k' with hle | hle
  · obtain ⟨n, rfl⟩ := Nat.exists_eq_add_of_le hle
    exact (stepsTo_keeps_ended_cmp ht (h.remainder h')).symm
  · obtain ⟨n, rfl⟩ := Nat.exists_eq_add_of_le hle
    exact stepsTo_keeps_ended_cmp ht' (h'.remainder h)

/-! ### What holds along an encode call -/

/-- `P` holds of a CMP past its header step in a call, and one that is DONE was finished from a CMP of which `P` holds. -/
structure Cmp.Along (P : Cmp → Prop) (c : Cmp) : Prop where
  running : c.status = .running → c.headerWritten = true → P c
  done : c.status = .done → ∃ b : Cmp, P b ∧ b.Stored ∧ b.InLoop ∧ b.cur = b.srcLen ∧ c = b.finished

/-- What the header step establishes and every source position keeps holds along an encode call. -/
theorem encodeCall_along {P : Cmp → Prop} {source : List Byte} {s s1 t : State} {k : Nat}
    (hstart : startEncode source s = .next s1) (hrun : StepsTo k s1 t)
    (hheader : ∀ c : Cmp, P c.withHeader)
    (hposition : ∀ n u c, StepsTo n s1 u → u.AtCmpStep → u.cmp.Inv → P u.cmp → u.cmp.cmpStep = .ok c → P c) :
    t.cmp.Along P := by
  refine hrun.induction (P := fun u => u.cmp.Along P) ?_ fun n u v hreach hu hstep => ?_
  · obtain ⟨-, rfl⟩ := startEncode_cases hstart
    exact ⟨fun _ h => (by cases h), fun h => by cases h⟩
  · obtain ⟨hc, -⟩ := encodeCall_cmp hstart hreach
    rcases step_next hstep with ⟨-, rfl⟩ | ⟨-, -, _, _, rfl⟩ | ⟨hturn, hrunning, -⟩ | ⟨-, -, _, _, rfl⟩
    · exact hu
    · exact hu
    · rcases step_cmp_cases hc hturn hrunning hstep with rfl | rfl | ⟨hat, c, hc', hstatus, rfl⟩ | ⟨hwritten, hl, hend, rfl⟩
      · exact ⟨fun _ _ => hheader _, fun h => by cases hrunning.symm.trans h⟩
      · exact ⟨nofun, nofun⟩
      · have ⟨_, _, hwritten, _⟩ := hat
        exact ⟨fun _ _ => hposition n u c hreach hat hc (hu.running hrunning hwritten) hc',
          fun h => by cases hstatus.symm.trans h⟩
      · exact ⟨nofun, fun _ => ⟨u.cmp, hu.running hrunning hwritten, hc.stored, hl, hend, rfl⟩⟩
    · exact hu

/-! ### A call that finds no match (R219) -/

/-- Only whole ShortLiterals of sixteen bytes have been emitted. -/
structure Cmp.LiteralOnly (c : Cmp) : Prop where
  aligned : c.committed % 16 = 0
  csLen : c.csLen = 2 + c.committed / 16 + c.committed

theorem Cmp.withHeader_literalOnly (c : Cmp) : c.withHeader.LiteralOnly := ⟨Nat.zero_mod 16, by simp⟩

/-- A literal push keeps it: the one flush it makes is of sixteen bytes. -/
theorem Cmp.LiteralOnly.pushLiteral {c c' : Cmp} (h : c.LiteralOnly) (hl : c.InLoop) (hcur : c.cur < c.srcLen)
    (hpush : c.pushLiteral = .ok c') : c'.LiteralOnly := by
  obtain ⟨haligned, hlen⟩ := h
  cases (Cmp.pushLiteral_eq hl hcur).symm.trans hpush
  by_cases hfull : c.pending = 15
  · obtain ⟨-, -, -, hcommitted, -, -, -, -, hcsLen⟩ := c.pushed.flushed_fields
    simp only [Cmp.pushed_committed, Cmp.pushed_pending, Cmp.pushed_csLen, hfull] at hcommitted hcsLen
    rw [if_pos hfull]
    exact ⟨by omega, by rw [hcsLen, hcommitted]; simp only [Nat.zero_lt_succ, if_true]; omega⟩
  · rw [if_neg hfull]
    exact ⟨haligned, hlen⟩

/-- The last flush adds the rest of the source, with one opcode when there is a rest. -/
theorem Cmp.LiteralOnly.finished_csLen {c : Cmp} (h : c.LiteralOnly) (hl : c.InLoop) (hcur : c.cur = c.srcLen) :
    c.finished.csLen = 2 + (c.srcLen + 15) / 16 + c.srcLen := by
  obtain ⟨haligned, hlen⟩ := h
  obtain ⟨-, -, -, -, -, -, -, -, hcsLen⟩ := c.flushed_fields
  have hcurEq := hl.curEq
  have hpending := hl.pendMax
  refine hcsLen.trans ?_
  split <;> omega

/-! ### The program that a stream spells (R203, R217) -/

/-- What CMP emits: a well-formed instruction that is no LongLiteral, with its payload, a MedCopy with an offset above those
of ShortCopy. -/
structure Emittable (p : Instr × List Byte) : Prop where
  wf : p.1.wf = true
  form : p.1.form ≠ .longLiteral
  payload : p.2.length = if p.1.form = .shortLiteral then p.1.length else 0
  medOffset : ∀ length offset, p.1 = .medCopy length offset → 16 ≤ offset ∧ offset ≤ 1023

theorem emittable_shortLiteral {n : Nat} {payload : List Byte} (h1 : 1 ≤ n) (h16 : n ≤ 16)
    (hpayload : payload.length = n) : Emittable (.shortLiteral n, payload) where
  wf := Instr.wf_shortLiteral.2 ⟨h1, h16⟩
  form := by simp [Instr.form]
  payload := hpayload
  medOffset := nofun

/-- The copy that carries a match. -/
theorem emittable_matchInstr {m : Match} (hlen : 3 ≤ m.len) (hform : selectForm m.len m.effOff = some m.form) :
    Emittable (matchInstr m, []) ∧ (matchInstr m).form ≠ .shortLiteral := by
  obtain ⟨hwf, hmatchForm, -⟩ := selectForm_wf hlen hform
  have hcases := selectForm_cases hform
  have hcopy : m.form ≠ .longLiteral ∧ m.form ≠ .shortLiteral := by
    rcases hcases with ⟨h, -⟩ | ⟨h, -⟩ | ⟨h, -⟩ | ⟨h, -⟩ <;> simp [h]
  refine ⟨⟨hwf, hmatchForm ▸ hcopy.1, by simp [hmatchForm, hcopy.2], fun length offset hmed => ?_⟩, hmatchForm ▸ hcopy.2⟩
  rcases hcases with ⟨h, -⟩ | ⟨h, -, hlow, hhigh⟩ | ⟨h, -⟩ | ⟨h, -⟩ <;> simp [matchInstr, h] at hmed
  omega

/-- A ShortLiteral that another follows is full (R202). -/
def FullBetween (p q : Instr × List Byte) : Prop :=
  p.1.form = .shortLiteral → q.1.form = .shortLiteral → p.1.length = 16

/-- The stream of CMP is the header of its source, followed by a program. -/
structure Cmp.Spells (c : Cmp) (prog : List (Instr × List Byte)) : Prop where
  stream : c.stream = headerBytes c.srcLen ++ prog.flatMap (fun p => encode p.1 ++ p.2)
  emittable : ∀ p ∈ prog, Emittable p
  separated : prog.IsChain FullBetween

/-- A ShortLiteral at the end of a program is full, so that another may follow. -/
def EndsFull (prog : List (Instr × List Byte)) : Prop :=
  ∀ p ∈ prog.getLast?, p.1.form = .shortLiteral → p.1.length = 16

theorem endsFull_append (prog : List (Instr × List Byte)) {p : Instr × List Byte} :
    EndsFull (prog ++ [p]) ↔ (p.1.form = .shortLiteral → p.1.length = 16) := by
  simp [EndsFull]

theorem Cmp.withHeader_spells (c : Cmp) : c.withHeader.Spells [] where
  stream := by rw [c.withHeader_stream]; rfl
  emittable := by simp
  separated := .nil

/-- One more instruction at the end of the stream. -/
theorem Cmp.Spells.append {c c' : Cmp} {prog : List (Instr × List Byte)} {p : Instr × List Byte} (h : c.Spells prog)
    (hp : Emittable p) (hlast : ∀ q ∈ prog.getLast?, FullBetween q p) (hsrcLen : c'.srcLen = c.srcLen)
    (hstream : c'.stream = c.stream ++ (encode p.1 ++ p.2)) : c'.Spells (prog ++ [p]) where
  stream := by rw [hstream, h.stream, hsrcLen]; simp
  emittable := by
    intro q hq
    rcases List.mem_append.1 hq with hq | hq
    · exact h.emittable q hq
    · exact List.mem_singleton.1 hq ▸ hp
  separated := List.isChain_append.2 ⟨h.separated, .singleton p, fun q hq r hr => by
    rw [List.head?_singleton, Option.mem_some_iff] at hr
    exact hr ▸ hlast q hq⟩

/-- A flush appends at most one ShortLiteral, and a full one may be followed by another. -/
theorem Cmp.Spells.flushed {c : Cmp} {prog : List (Instr × List Byte)} (h : c.Spells prog) (hfull : EndsFull prog)
    (hwf : c.csMem.wf) (h16 : c.pending ≤ 16) :
    ∃ prog', c.flushed.Spells prog' ∧ (c.pending = 16 → EndsFull prog') := by
  rcases Nat.eq_zero_or_pos c.pending with hempty | hpos
  · exact ⟨prog, by rwa [Cmp.flushed_of_empty hempty], fun _ => hfull⟩
  · refine ⟨prog ++ [(.shortLiteral c.pending, c.pendMem.toBytes c.pending)],
      h.append (emittable_shortLiteral hpos h16 (by simp)) (fun q hq hlit _ => hfull q hq hlit)
        c.flushed_srcLen ?_,
      fun hsixteen => ?_⟩
    · rw [Cmp.flushed_stream hwf, Cmp.flushBytes, if_neg hpos.ne']
    · exact (endsFull_append prog).2 fun _ => hsixteen

/-- A program that has been emitted, at a step boundary. -/
def Cmp.SpellsFull (c : Cmp) : Prop := ∃ prog, c.Spells prog ∧ EndsFull prog

/-- A literal push emits nothing, or one full ShortLiteral. -/
theorem Cmp.SpellsFull.pushLiteral {c c' : Cmp} (h : c.SpellsFull) (hc : c.Inv) (hl : c.InLoop)
    (hcur : c.cur < c.srcLen) (hpush : c.pushLiteral = .ok c') : c'.SpellsFull := by
  obtain ⟨prog, hspells, hfull⟩ := h
  have hpushed : c.pushed.Spells prog := ⟨hspells.stream, hspells.emittable, hspells.separated⟩
  cases (Cmp.pushLiteral_eq hl hcur).symm.trans hpush
  by_cases hsixteenth : c.pending = 15
  · have hsixteen : c.pushed.pending = 16 := by rw [Cmp.pushed_pending, hsixteenth]
    obtain ⟨prog', hspells', hfull'⟩ := hpushed.flushed hfull hc.csWf hsixteen.le
    rw [if_pos hsixteenth]
    exact ⟨prog', hspells', hfull' hsixteen⟩
  · rw [if_neg hsixteenth]
    exact ⟨prog, hpushed, hfull⟩

/-- A copy emission emits the pending literals, and then the copy. -/
theorem Cmp.SpellsFull.emitCopy {c c' : Cmp} {m : Match} (h : c.SpellsFull) (hc : c.Inv) (hl : c.InLoop)
    (hmatch : c.findMatch = .ok (some m)) (hstep : c.cmpStep = .ok c') : c'.SpellsFull := by
  obtain ⟨prog, hspells, hfull⟩ := h
  obtain ⟨-, -, hlen, hform⟩ := hl.match_spec hmatch
  obtain ⟨hemittable, hcopy⟩ := emittable_matchInstr hlen hform
  obtain ⟨c1, hstep1, -, hstream, -, hsrcLen, -⟩ := Cmp.emitCopy_next hc hl hmatch
  cases hstep1.symm.trans hstep
  obtain ⟨prog', hspells', -⟩ := hspells.flushed hfull hc.csWf (hl.pendMax.trans (Nat.le_succ 15))
  refine ⟨prog' ++ [(matchInstr m, [])], hspells'.append hemittable (fun _ _ _ hlit => absurd hlit hcopy) ?_ ?_,
    (endsFull_append prog').2 fun hlit => absurd hlit hcopy⟩
  · rw [hsrcLen, Cmp.flushed_srcLen]
  · rw [hstream, Cmp.flushed_stream hc.csWf, List.append_nil]

theorem Cmp.SpellsFull.cmpStep {c c' : Cmp} (h : c.SpellsFull) (hc : c.Inv) (hl : c.InLoop) (hcur : c.cur < c.srcLen)
    (hstep : c.cmpStep = .ok c') : c'.SpellsFull := by
  obtain ⟨found, hfound, -⟩ := c.findMatch_spec hl.bounded
  cases found with
  | none => exact h.pushLiteral hc hl hcur ((Cmp.cmpStep_of_none hfound).symm.trans hstep)
  | some m => exact h.emitCopy hc hl hfound hstep

/-! ### A decode call on a stream that decodes whole -/

/-- Whole instructions are steps. -/
theorem WholeRun.stepsTo {s t : State} (h : WholeRun s t) : ∃ k, StepsTo k s t := by
  induction h with
  | refl => exact ⟨0, stepsTo_zero.2 rfl⟩
  | tail _ _ hstep ih =>
    obtain ⟨k, hsteps⟩ := ih
    exact ⟨k + 1, hsteps.trans (stepsTo_one hstep)⟩

/-- A run of whole instructions stays in its call. -/
theorem WholeRun.sameCall {s t : State} (h : WholeRun s t) (hturn : s.turn = .dec) : SameCall s t :=
  (h.withInput hturn (m := s.dec.inMem) (n := s.dec.inLen) ⟨Nat.le_refl _, fun _ _ => rfl⟩).2

/-- A decode call on a stream that decodes to as many bytes as its header declares is DONE with them: the loop test ends
the run where the stream ends (R152). -/
theorem DecodesTo.decResult {stream out : List Byte} (h : DecodesTo stream out) (h2 : 2 ≤ stream.length)
    (hheader : concat 8 (stream.getD 1 0).toNat (stream.getD 0 0).toNat = out.length) {s s1 : State}
    (hstart : startDecode stream s = .next s1) : ∃ k t, StepsTo k s1 t ∧
      decResult t.dec = some (.ok ⟨out, out.length, stream.length, out.length, false⟩) := by
  obtain ⟨t, hwhole, hrun, -, hptr, hout⟩ := (decodesTo_iff h2).1 h s (startDecode_cases hstart).1
  have hsame := hwhole.sameCall rfl
  have hinLen : t.dec.inLen = stream.length := hsame.inLen
  have hsize : t.dec.declaredSize = out.length := hsame.declaredSize.trans hheader
  have houtPtr : t.dec.outPtr = out.length := by rw [← hout, Memory.toBytes_length]
  obtain ⟨k, hsteps⟩ := hwhole.stepsTo
  have hhalt := step_of_loop_ended (s := t) (.inl ⟨hsame.turn, hrun⟩)
  rw [State.curDec_of_dec hsame.turn, State.setCurDec_of_dec hsame.turn] at hhalt
  have hhalt := hhalt hsame.headerRead (by omega)
  refine ⟨1 + k + 1, _, ((stepsTo_one (step_afterHeader h2 hstart)).trans hsteps).trans (stepsTo_one hhalt),
    decResult_eq_ok.2 ⟨rfl, ?_⟩⟩
  simp only [Dec.afterHalt_outMem, Dec.afterHalt_outLen, Dec.afterHalt_compSize, Dec.afterHalt_produced,
    Dec.afterHalt_short, Dec.shortFlag, hsize, hptr, houtPtr, Nat.lt_irrefl, decide_false]
  rw [← houtPtr, hout]

/-- Every run of steps keeps R215 (e). -/
theorem stepsTo_keeps_streamInv {k : Nat} {s t : State} (hc : s.cmp.Inv) (he : s.StreamInv) (h : StepsTo k s t) :
    t.StreamInv :=
  h.induction he fun _ _ _ hreach hu hstep => step_keeps_streamInv (stepsTo_keeps_cmp_call hc hreach).1 hu hstep

/-- The header of a finished stream declares the source length (R200). -/
theorem Cmp.Finished.header {c : Cmp} (h : c.Finished) :
    concat 8 (c.stream.getD 1 0).toNat (c.stream.getD 0 0).toNat = c.srcLen := by
  have hlow := h.csLow
  have hmax : c.srcLen ≤ 65535 := h.srcMax
  rw [Cmp.stream, List.getD_eq_getElem _ _ (by simp; omega), List.getD_eq_getElem _ _ (by simp; omega),
    Memory.toBytes_getElem, Memory.toBytes_getElem, h.header0, h.header1, toNat_ofNat_byte _ (by omega)]
  simp [concat]
  omega

/-- The stream of an encode call that is DONE decodes to the source (R216). -/
theorem encodeCall_decodesTo {source : List Byte} {s s1 t : State} {k : Nat} (hstart : startEncode source s = .next s1)
    (hrun : StepsTo k s1 t) (hdone : t.cmp.status = .done) : DecodesTo t.cmp.stream source := by
  obtain ⟨hinv, hmem, hlen⟩ := encodeCall_cmp hstart hrun
  have hfin := hinv.done hdone
  obtain ⟨hinv1, -⟩ := encodeCall_cmp hstart (stepsTo_zero.2 rfl)
  have hstream1 : s1.StreamInv := by
    obtain ⟨-, rfl⟩ := startEncode_cases hstart
    exact streamInv_of_no_stream rfl (by simp)
  have hdecodes := stepsTo_keeps_streamInv hinv1 hstream1 hrun (.inr hdone)
  rwa [hfin.committed, Memory.toBytes_congr hfin.shadow, hmem, hlen, Memory.toBytes_ofBytes] at hdecodes

/-! ### The obligations -/

/-- Settles O57: the step is that of O28, and it keeps R215 (e) whichever unit it serves. -/
theorem everyStepKeepsTheEmittedStreamDecodable : Obligations.EveryStepKeepsTheEmittedStreamDecodable := by
  unfold Obligations.EveryStepKeepsTheEmittedStreamDecodable
  intro s hs he
  obtain ⟨t, hstep, ht⟩ := soundStateStepsToSoundState s hs
  exact ⟨t, hstep, ht, step_keeps_streamInv hs.cmp he hstep⟩

/-- Settles O38: the two header bytes are all of the stream, and the second needs no mask. -/
theorem compressorHeaderStep : Obligations.CompressorHeaderStep := by
  unfold Obligations.CompressorHeaderStep
  intro s hturn hrun hwritten hsize
  refine ⟨_, step_of_cmp_header hturn hrun hwritten hsize, ?_, rfl, rfl, rfl, rfl, hrun, rfl, rfl, rfl, rfl, rfl, rfl,
    rfl⟩
  refine s.cmp.withHeader_stream.trans ?_
  rw [headerBytes, Nat.shiftRight_eq_div_pow, Nat.and_two_pow_sub_one_eq_mod _ 8]
  simp [BitVec.toNat_eq]

/-- Settles O39: a flush writes its bytes behind those of `CS` and of `SHADOW`, and nothing else. -/
theorem flushEmitsOneShortLiteral : Obligations.FlushEmitsOneShortLiteral := by
  unfold Obligations.FlushEmitsOneShortLiteral
  intro c hcs hshadow
  refine ⟨fun hempty => by simp [Cmp.flush, hempty], fun hpos h16 hroom hsrc => ?_⟩
  have hfixed := encode_shortLiteral hpos h16
  refine ⟨c.flushed, Cmp.flush_eq c h16 hroom hsrc, ?_⟩
  rw [Cmp.flushed_of_pending hpos, hfixed]
  refine ⟨rfl, rfl, rfl, ?_, fun j hj => ⟨?_, ?_⟩, fun a ha => ?_, fun a ha => ?_, rfl⟩
  · exact Memory.read_writeAll_inside _ _ _ 0 hcs (by simp)
  · simp only
    rw [Nat.add_assoc, Memory.read_writeAll_inside _ _ _ _ hcs (by simp; omega)]
    simp [Nat.add_comm 1, Memory.toBytes_getElem]
  · simp only
    rw [Memory.read_writeAll_inside _ _ _ _ hshadow (by simpa using hj), Memory.toBytes_getElem]
  · exact Memory.read_writeAll_outside _ _ _ _ (by simpa [Nat.add_assoc, Nat.add_comm 1] using ha)
  · exact Memory.read_writeAll_outside _ _ _ _ (by simpa using ha)

/-- Settles O41: a form with a shorter fixed part has a range in which the length or the offset does not lie. -/
theorem selectedFormIsSmallest : Obligations.SelectedFormIsSmallest := by
  unfold Obligations.SelectedFormIsSmallest
  intro pos len offset form hlen hform
  obtain ⟨hwf, -, -⟩ := selectForm_wf (m := ⟨pos, len, offset, form⟩) hlen hform
  refine ⟨hwf, ?_⟩
  rcases selectForm_cases hform with ⟨rfl, h⟩ | ⟨rfl, h⟩ | ⟨rfl, h⟩ | ⟨rfl, h⟩
  all_goals
    refine ⟨by simp [matchInstr, copyForms], fun i hi hiwf => ?_⟩
    rcases mem_copyForms.1 hi with rfl | rfl | rfl | rfl
    all_goals simp [matchInstr, encode] at hiwf ⊢ <;> omega

/-- Settles O45: a push below the sixteenth writes `PEND` only, and the sixteenth flushes. -/
theorem pushLiteralStep : Obligations.PushLiteralStep := by
  unfold Obligations.PushLiteralStep
  intro s hc hat hnone
  have hl := hat.inLoop hc
  have ⟨_, hrun, _, hcur⟩ := hat
  have herr : s.cmp.err = .none := hc.errNone.2 (by simp [hrun])
  have hpush := (Cmp.cmpStep_of_none hnone).trans (Cmp.pushLiteral_eq hl hcur)
  refine ⟨_, step_of_cmpStep hat hpush, ?_⟩
  by_cases hfull : s.cmp.pending = 15
  · obtain ⟨-, -, hcur', hcommitted, hempty, hstatus, herr', -⟩ := s.cmp.pushed.flushed_fields
    rw [if_pos hfull]
    refine ⟨hcur', rfl, rfl, hstatus.trans hrun, herr'.trans herr, fun h => absurd hfull h.ne, fun _ =>
      ⟨hempty, by rw [hcommitted, Cmp.pushed_pending, hfull]; rfl, Cmp.pushed_flushed_stream hc.stored hl hfull,
        fun j hj => ?_, fun i hi => s.cmp.pushed.flushed_shadow_below hi⟩⟩
    exact Cmp.flushed_shadow (Cmp.pushed_stored hc.stored) hl.shadow (Cmp.pushed_pend hc.stored hl) _
      (by rw [Cmp.pushed_committed, Cmp.pushed_pending]; omega)
  · rw [if_neg hfull]
    exact ⟨rfl, rfl, rfl, hrun, herr, fun _ => ⟨rfl, Memory.read_write_same _ _ _ hc.pendWf,
      fun j hj => Memory.read_write_other _ _ _ _ hj.ne, rfl, rfl, rfl, rfl⟩, fun h => absurd h hfull⟩

/-- Settles O46, by what a copy emission leaves. -/
theorem emitCopyStep : Obligations.EmitCopyStep := by
  unfold Obligations.EmitCopyStep
  intro s m hc hat hmatch
  have ⟨_, hrun, _, _⟩ := hat
  obtain ⟨c', hstep, hl', hstream, hmem, -, hcur, hcommitted, hpending, hstatus, herr⟩ :=
    Cmp.emitCopy_next hc (hat.inLoop hc) hmatch
  exact ⟨_, step_of_cmpStep hat hstep, hcur, hpending, hcommitted, hstream, hmem ▸ hl'.shadow, hstatus.trans hrun,
    herr.trans (hc.errNone.2 (by simp [hrun])), rfl, rfl⟩

/-- Settles O47: the size check ends the call at once, and past the header step every step takes a byte of the source. -/
theorem encodeCallTerminates : Obligations.EncodeCallTerminates := by
  unfold Obligations.EncodeCallTerminates
  intro source s s1 hstart
  refine ⟨fun hsize => ?_, fun hsize => ⟨_, encodeCall_tooLarge hsize hstart, rfl, rfl, rfl⟩⟩
  obtain ⟨c, hdone, hcall⟩ := encodeCall_done hsize
  obtain ⟨k, t, hk, hsteps, rfl⟩ := hcall s s1 hstart
  obtain ⟨hinv, -⟩ := encodeCall_cmp hstart hsteps
  exact ⟨k, t, hk, hsteps, hdone, hinv.errNone.2 (by simp [hdone])⟩

/-- Settles O49: the loop of CMP ends before its first position, and the stream declares size 0 (O21). -/
theorem emptyInputGivesZeroHeader : Obligations.EmptyInputGivesZeroHeader := by
  unfold Obligations.EmptyInputGivesZeroHeader
  refine ⟨fun s s1 hstart => ?_, fun s s1 hstart => ?_⟩
  · obtain ⟨hturn, hstep⟩ := startEncode_step hstart (Nat.zero_le _)
    have hl := (Cmp.started_inv (source := []) (Nat.zero_le _)).running rfl rfl
    have hend := step_of_cmp_end (s := { s1 with cmp := Cmp.started [] }) hturn rfl hl (Nat.le_refl _)
    exact ⟨2, _, (stepsTo_one hstep).trans (stepsTo_one hend), rfl, rfl, rfl, rfl, rfl⟩
  · obtain ⟨k, t, hsteps, -, hresult, -⟩ := declaredSizeZeroGivesEmptyOutput [] s s1 hstart
    exact ⟨k, t, _, hsteps, hresult, rfl⟩

/-- Settles O50: every flush before the last is of sixteen bytes, and the last adds one opcode for the rest. -/
theorem literalOnlySizeIsExact : Obligations.LiteralOnlySizeIsExact := by
  unfold Obligations.LiteralOnlySizeIsExact
  intro source s s1 hsize hstart hnone
  obtain ⟨c, hdone, hcall⟩ := encodeCall_done hsize
  obtain ⟨k, t, -, hsteps, rfl⟩ := hcall s s1 hstart
  obtain ⟨-, -, hlen⟩ := encodeCall_cmp hstart hsteps
  have halong := encodeCall_along hstart hsteps Cmp.withHeader_literalOnly fun n u c hreach hat hc hu hstep =>
    hu.pushLiteral (hat.inLoop hc) hat.cur_lt ((Cmp.cmpStep_of_none (hnone n u hreach hat)).symm.trans hstep)
  obtain ⟨b, hb, -, hl, hcur, hfinished⟩ := halong.done hdone
  have hsrcLen : b.srcLen = t.cmp.srcLen := by rw [hfinished]; exact b.flushed_srcLen.symm
  refine ⟨k, t, hsteps, hdone, ?_⟩
  rw [hfinished, hb.finished_csLen hl hcur, hsrcLen, hlen]

/-- Settles O51: the program grows with every step, and the last flush adds at most one ShortLiteral to it. -/
theorem compressorNeverEmitsLongLiteral : Obligations.CompressorNeverEmitsLongLiteral := by
  unfold Obligations.CompressorNeverEmitsLongLiteral
  intro source bytes s s1 t k hstart hrun hresult
  obtain ⟨hdone, rfl⟩ := cmpResult_eq_ok.1 hresult
  obtain ⟨-, -, hlen⟩ := encodeCall_cmp hstart hrun
  have halong := encodeCall_along (P := Cmp.SpellsFull) hstart hrun (fun c => ⟨[], c.withHeader_spells, nofun⟩)
    fun _ u c _ hat hc hu hstep => hu.cmpStep hc (hat.inLoop hc) hat.cur_lt hstep
  obtain ⟨b, ⟨prog, hspells, hfull⟩, hstored, hl, -, hfinished⟩ := halong.done hdone
  obtain ⟨prog', ⟨hstream, hemittable, hseparated⟩, -⟩ :=
    hspells.flushed hfull hstored.csWf (hl.pendMax.trans (Nat.le_succ 15))
  have hsrcLen : b.flushed.srcLen = source.length := by rw [← hlen, hfinished]; rfl
  refine ⟨prog', ?_, fun p hp => ?_, fun before p q after heq => ?_⟩
  · rw [hsrcLen] at hstream
    rw [hfinished]
    exact hstream
  · obtain ⟨hwf, hform, hpayload, hmed⟩ := hemittable p hp
    exact ⟨hwf, hform, hpayload, hmed⟩
  · exact List.isChain_iff_forall_rel_of_append_cons_cons.1 hseparated heq

/-- Settles O52: the stream decodes to the history (R215 (e)), which is the whole source, as the header declares. -/
theorem roundTripIsExact : Obligations.RoundTripIsExact := by
  unfold Obligations.RoundTripIsExact
  intro source s s1 hsize hstart
  obtain ⟨hended, -⟩ := encodeCallTerminates source s s1 hstart
  obtain ⟨k, t, -, hsteps, hdone, herr⟩ := hended hsize
  obtain ⟨hinv, -, hlen⟩ := encodeCall_cmp hstart hsteps
  have hfin := hinv.done hdone
  refine ⟨k, t, hsteps, hdone, herr, fun s' s1' hstart' => ?_⟩
  have hresult := (encodeCall_decodesTo hstart hsteps hdone).decResult (by simpa [Cmp.stream] using hfin.csLow)
    (hfin.header.trans hlen) hstart'
  rwa [Cmp.stream, Memory.toBytes_length] at hresult

/-- Settles O58: the host moves of DEC and VER leave CMP as it is, and those of CMP put it where it has emitted nothing. -/
theorem resetAndHostMovesKeepSoundness : Obligations.ResetAndHostMovesKeepSoundness := by
  unfold Obligations.ResetAndHostMovesKeepSoundness
  refine ⟨⟨resetIsSound, streamInv_of_no_stream rfl (by decide)⟩, fun s hs he =>
    ⟨fun input t h => ⟨startDecode_inv hs h, ?_⟩, fun source t h => ⟨startEncode_inv hs h, ?_⟩,
      fun original candidate t h => ⟨startVerify_inv hs h, ?_⟩, fun u t h => ⟨acknowledge_inv hs h, ?_⟩⟩⟩
  · obtain ⟨-, rfl⟩ := startDecode_cases h
    exact he.of_cmp_eq rfl
  · obtain ⟨-, rfl⟩ := startEncode_cases h
    exact streamInv_of_no_stream rfl (by simp)
  · obtain ⟨-, rfl⟩ := startVerify_cases h
    exact he.of_cmp_eq rfl
  · rcases acknowledge_cases h with ⟨-, rfl⟩ | ⟨-, rfl⟩
    · exact he
    · cases u with
      | dec => exact he.of_cmp_eq rfl
      | cmp => exact streamInv_of_no_stream rfl (by simp)
      | ver => exact he.of_cmp_eq rfl

/-- Settles O59, as O24: each call leaves the CMP of the run that `encodeCall_ends` gives, with the one result of the source. -/
theorem encodeResultDependsOnSourceOnly : Obligations.EncodeResultDependsOnSourceOnly := by
  unfold Obligations.EncodeResultDependsOnSourceOnly
  intro source s s' s1 s1' t t' k k' hstart hstart' hrun hrun' hended hended'
  obtain ⟨r, hr⟩ := encodeCall_ends source
  have hresult {s s1 t : State} {k : Nat} (hstart : startEncode source s = .next s1) (hrun : StepsTo k s1 t)
      (hended : t.cmp.status ≠ .running) : cmpResult t.cmp = some r := by
    obtain ⟨n, u, hsteps, hu⟩ := hr s s1 hstart
    rw [hrun.ended_cmp_unique hsteps hended (status_ne_running_of_cmpResult hu), hu]
  rw [hresult hstart hrun hended, hresult hstart' hrun' hended']
  exact ⟨rfl, by simp⟩

end Sys2Proof.Machine

/-! PROOFS of the statements of 45_round_trip_verifier.md: what the comparison of VER gives, VER along a verify call, the
inner DEC as a decode call, and the obligations O53 to O56. -/

namespace Sys2Proof.Machine

/-! ### The indices that differ (R231) -/

theorem Ver.differing_eq_nil_iff {v : Ver} :
    v.differing = [] ↔ v.inner.outMem.toBytes v.origLen = v.origMem.toBytes v.origLen := by
  simp [Ver.differing, Memory.toBytes, List.filter_eq_nil_iff, List.map_inj_left]

/-- The indices are listed in ascending order, so nothing differs before the first. -/
theorem Ver.read_eq_of_lt_first {v : Ver} {first i : Nat} {rest : List Nat} (hdiff : v.differing = first :: rest)
    (hi : i < first) : v.inner.outMem.read i = v.origMem.read i := by
  have hmem (j : Nat) : j ∈ v.differing ↔ j < v.origLen ∧ v.inner.outMem.read j ≠ v.origMem.read j := by
    simp [Ver.differing]
  have hfirst : first < v.origLen := ((hmem first).1 (by simp [hdiff])).1
  have hsorted : (first :: rest).Pairwise (· < ·) := hdiff ▸ List.pairwise_lt_range.filter _
  by_contra hne
  have hlisted : i ∈ first :: rest := hdiff ▸ (hmem i).2 ⟨hi.trans hfirst, hne⟩
  rcases List.mem_cons.1 hlisted with rfl | hrest
  · exact Nat.lt_irrefl _ hi
  · exact Nat.lt_asymm hi (List.rel_of_pairwise_cons hsorted hrest)

/-! ### What the comparison leaves (R231, R233) -/

/-- VER after the comparison: the length first, then the content. -/
def Ver.compared (v : Ver) : Ver :=
  if v.inner.outLen ≠ v.origLen then
    (v.report .length (min v.origLen v.inner.outLen) 0).afterRaise .verifyMismatch
  else
    match v.differing with
    | [] => { v with status := .done }
    | first :: rest => (v.report .content first (rest.length + 1)).afterRaise .verifyMismatch

theorem Ver.compared_of_length {v : Ver} (hlen : v.inner.outLen ≠ v.origLen) :
    v.compared = (v.report .length (min v.origLen v.inner.outLen) 0).afterRaise .verifyMismatch := if_pos hlen

theorem Ver.compared_of_content {v : Ver} (hlen : v.inner.outLen = v.origLen) {first : Nat} {rest : List Nat}
    (hdiff : v.differing = first :: rest) :
    v.compared = (v.report .content first (rest.length + 1)).afterRaise .verifyMismatch := by
  rw [Ver.compared, if_neg (not_not.2 hlen), hdiff]

theorem Ver.compared_of_same {v : Ver} (hlen : v.inner.outLen = v.origLen) (hdiff : v.differing = []) :
    v.compared = { v with status := .done } := by
  rw [Ver.compared, if_neg (not_not.2 hlen), hdiff]

/-- The comparison ends the call (R231) and leaves the inner DEC and `ORIG` as they are. -/
theorem Ver.compared_frame (v : Ver) : v.compared.status ≠ .idle ∧ v.compared.inner = v.inner ∧
    v.compared.origMem = v.origMem ∧ v.compared.origLen = v.origLen := by
  by_cases hlen : v.inner.outLen = v.origLen
  · cases hdiff : v.differing with
    | nil => rw [Ver.compared_of_same hlen hdiff]; exact ⟨nofun, rfl, rfl, rfl⟩
    | cons first rest => rw [Ver.compared_of_content hlen hdiff]; exact ⟨nofun, rfl, rfl, rfl⟩
  · rw [Ver.compared_of_length hlen]
    exact ⟨nofun, rfl, rfl, rfl⟩

/-- Against an inner DEC that is DONE and sound the comparison completes: `out_len` is the declared size, so every byte
compared lies in its space. -/
theorem State.compareStep_eq {s : State} (hinv : s.ver.inner.Inv) (hdone : s.ver.inner.status = .done) :
    s.compareStep = .next { s with ver := s.ver.compared } := by
  unfold State.compareStep
  by_cases hlen : s.ver.inner.outLen = s.ver.origLen
  · have hsize : s.ver.origLen ≤ s.ver.inner.declaredSize := by rw [← hlen, (hinv.done hdone).outLen]
    rw [if_neg (not_not.2 hlen), Ver.mismatches_all _ hsize]
    cases hdiff : s.ver.differing with
    | nil => rw [Ver.compared_of_same hlen hdiff]
    | cons first rest => rw [Ver.compared_of_content hlen hdiff]; rfl
  · rw [if_pos hlen, Ver.compared_of_length hlen]
    rfl

/-! ### A step of VER, at each place of its call -/

/-- The machine with the inner DEC started (R231). -/
def State.startInner (s : State) : State :=
  { s with ver := { s.ver with inner := s.ver.inner.begin s.freeSeed }, freeSeed := s.freeSeed + 1 }

theorem step_of_inner_idle {s : State} (hturn : s.turn = .ver) (hrun : s.ver.status = .running)
    (hinner : s.ver.inner.status = .idle) :
    step s = .next s.startInner := by
  rw [step_of_ver hturn hrun, State.serveVer, hinner]
  rfl

/-- The error of the inner DEC is passed on (R231, R251). -/
theorem step_of_inner_failed {s : State} (hturn : s.turn = .ver) (hrun : s.ver.status = .running)
    (hinner : s.ver.inner.status = .failed) : step s = .next (s.raise .ver s.ver.inner.err) := by
  rw [step_of_ver hturn hrun, State.serveVer, hinner]

/-- The output of the inner DEC is compared (R231). -/
theorem step_of_inner_done {s : State} (hturn : s.turn = .ver) (hrun : s.ver.status = .running)
    (hinv : s.ver.inner.Inv) (hinner : s.ver.inner.status = .done) : step s = .next { s with ver := s.ver.compared } := by
  rw [step_of_ver hturn hrun, State.serveVer, hinner]
  exact State.compareStep_eq hinv hinner

/-! ### VER along a verify call -/

/-- A step of VER in its call leaves it RUNNING or ended: it is not put between calls (R28). -/
theorem State.serveVer_status_ne_idle {s t : State} (hturn : s.turn = .ver) (hv : s.ver.Inv)
    (hrun : s.ver.status = .running) (h : s.serveVer = .next t) : t.ver.status ≠ .idle := by
  have hidle : s.ver.status ≠ .idle := by simp [hrun]
  rw [← step_of_ver hturn hrun] at h
  cases hinner : s.ver.inner.status with
  | idle => cases (step_of_inner_idle hturn hrun hinner).symm.trans h; exact hidle
  | running =>
    rw [step_of_serving (.inr ⟨hturn, hrun, hinner⟩)] at h
    obtain ⟨d, n, rfl⟩ := State.serveDec_next h
    rwa [State.setCurDec_of_ver (s := { s with freeSeed := n }) hturn]
  | done => cases (step_of_inner_done hturn hrun hv.inner hinner).symm.trans h; exact s.ver.compared_frame.1
  | failed => cases (step_of_inner_failed hturn hrun hinner).symm.trans h; nofun

/-- What holds of VER in every state after the start of a verify call: it is sound, it is not between calls, and its
inputs are the host's. -/
structure Ver.InCall (v : Ver) (original candidate : List Byte) : Prop where
  inv : v.Inv
  status : v.status ≠ .idle
  origMem : v.origMem = Memory.ofBytes original
  origLen : v.origLen = original.length
  inMem : v.inner.inMem = Memory.ofBytes candidate
  inLen : v.inner.inLen = candidate.length

theorem step_keeps_verify_call {original candidate : List Byte} {s t : State} (hv : s.ver.InCall original candidate)
    (h : step s = .next t) : t.ver.InCall original candidate := by
  rcases step_next h with ⟨-, rfl⟩ | ⟨-, -, _, _, rfl⟩ | ⟨-, -, _, rfl⟩ | ⟨hturn, hrun, -⟩
  · exact hv
  · exact hv
  · exact hv
  · rw [step_of_ver hturn hrun] at h
    obtain ⟨v, n, hnext, hinv⟩ := s.serveVer_sound hturn hv.inv hrun
    have hstatus := State.serveVer_status_ne_idle hturn hv.inv hrun h
    obtain ⟨horig, horigLen, hin, hinLen⟩ := Ver.inputs_eq_iff.1 (State.serveVer_inputs hturn h)
    cases hnext.symm.trans h
    exact ⟨hinv, hstatus, horig.trans hv.origMem, horigLen.trans hv.origLen, hin.trans hv.inMem, hinLen.trans hv.inLen⟩

theorem verifyCall_inCall {original candidate : List Byte} {s s1 t : State} {k : Nat}
    (hstart : startVerify original candidate s = .next s1) (hrun : StepsTo k s1 t) :
    t.ver.InCall original candidate := by
  refine hrun.induction (P := fun u => u.ver.InCall original candidate) ?_ fun _ _ _ _ hu => step_keeps_verify_call hu
  obtain ⟨-, rfl⟩ := startVerify_cases hstart
  exact ⟨Ver.begin_inv _ _ (Memory.ofBytes_wf _) (Memory.ofBytes_below _) (Memory.ofBytes_wf _) (Memory.ofBytes_below _),
    nofun, rfl, rfl, rfl, rfl⟩

/-! ### The inner DEC runs as any DEC does (R38, R231) -/

/-- What a step makes of the DEC that executes is determined by that DEC alone, unless it raises. -/
theorem State.serveDec_of_curDec_eq {s t u : State} (hcur : u.curDec = s.curDec) (h : s.serveDec = .next t)
    (hok : t.curDec.status ≠ .failed) : u.serveDec = .next (u.setCurDec t.curDec) := by
  unfold State.serveDec at h ⊢
  rw [hcur]
  split_ifs at h ⊢ with hread hloop hshort
  · unfold State.instrStep at h ⊢
    rw [hcur]
    rcases s.curDec.fetch_cases hloop.2 with ⟨i, -, -, -, hfetch⟩ | ⟨-, hfetch⟩
    · simp only [hfetch, exec_eq_execInstr, State.curDec_setCurDec] at h ⊢
      obtain ⟨d, hexec, rfl⟩ := outcomeOf_eq_next.1 h
      simp [hexec, outcomeOf]
    · rw [hfetch] at h
      cases h
      simp at hok
  · cases h
    rw [State.curDec_setCurDec]
  · cases h
    simp at hok
  · obtain ⟨d, hheader, rfl⟩ := outcomeOf_eq_next.1 h
    rw [hheader, State.curDec_setCurDec]
    rfl

/-- A run in which DEC does not fail is a run of VER's inner DEC, from any VER in its call whose inner DEC is the DEC at
its start. -/
theorem StepsTo.inner_of_dec {k : Nat} {s t u : State} (h : StepsTo k s t) (hdec : s.turn = .dec)
    (hok : t.dec.status ≠ .failed) (hturn : u.turn = .ver) (hrun : u.ver.status = .running)
    (hinner : u.ver.inner = s.dec) : ∃ n, StepsTo n u (u.setCurDec t.dec) := by
  have hcur := State.curDec_of_dec hdec
  have hucur := (State.curDec_of_ver hturn).trans hinner
  induction k generalizing s u with
  | zero =>
    rw [← stepsTo_zero.1 h, ← hucur, State.setCurDec_curDec]
    exact ⟨0, stepsTo_zero.2 rfl⟩
  | succ k ih =>
    by_cases hsrun : s.dec.status = .running
    · obtain ⟨s', hstep, hrest⟩ := stepsTo_succ.1 h
      rw [step_of_serving (.inl ⟨hdec, hsrun⟩)] at hstep
      have hdec' : s'.turn = .dec := by
        obtain ⟨d, n, rfl⟩ := State.serveDec_next hstep
        rwa [State.setCurDec_turn]
      have hcur' := State.curDec_of_dec hdec'
      have hok' : s'.dec.status ≠ .failed := fun hfailed =>
        hok (by rw [stepsTo_keeps_ended_dec (by simp [hfailed]) hrest, hfailed])
      have hustep := State.serveDec_of_curDec_eq (hucur.trans hcur.symm) hstep (by rwa [hcur'])
      rw [hcur', ← step_of_serving (.inr ⟨hturn, hrun, by rw [hinner, hsrun]⟩)] at hustep
      have hset := State.setCurDec_of_ver hturn s'.dec
      obtain ⟨n, hn⟩ := ih (u := u.setCurDec s'.dec) hrest hdec' (by rw [hset]; exact hturn) (by rw [hset]; exact hrun)
        (by rw [hset]) hcur' (State.curDec_setCurDec u _)
      rw [State.setCurDec_setCurDec] at hn
      exact ⟨n + 1, stepsTo_succ.2 ⟨_, hustep, hn⟩⟩
    · rw [stepsTo_keeps_ended_dec hsrun h, ← hucur, State.setCurDec_curDec]
      exact ⟨0, stepsTo_zero.2 rfl⟩

/-- A verify call on a candidate whose decode calls are DONE comes to the comparison with their result in its inner DEC. -/
theorem verifyCall_decodes {original candidate : List Byte} {r : DecResult} {s s1 : State}
    (hdecode : ∀ s' s1', startDecode candidate s' = .next s1' →
      ∃ k t, StepsTo k s1' t ∧ decResult t.dec = some (.ok r))
    (hstart : startVerify original candidate s = .next s1) :
    ∃ k t, StepsTo k s1 t ∧ t.turn = .ver ∧ t.ver.status = .running ∧ decResult t.ver.inner = some (.ok r) := by
  obtain ⟨-, hs1⟩ := startVerify_cases hstart
  have hturn : s1.turn = .ver := by rw [hs1]
  have hrun : s1.ver.status = .running := by rw [hs1]; rfl
  have hfirst := step_of_inner_idle hturn hrun (by rw [hs1]; rfl)
  obtain ⟨k, t, hsteps, hresult⟩ := hdecode { State.reset with freeSeed := s1.freeSeed } _ rfl
  have hok : t.dec.status ≠ .failed := by simp [(decResult_eq_ok.1 hresult).1]
  obtain ⟨n, hn⟩ := hsteps.inner_of_dec (u := s1.startInner) rfl hok hturn hrun (by rw [hs1]; rfl)
  rw [State.setCurDec_of_ver (s := s1.startInner) hturn] at hn
  exact ⟨n + 1, _, stepsTo_succ.2 ⟨_, hfirst, hn⟩, hturn, hrun, hresult⟩

/-! ### The obligations -/

/-- Settles O53: the five registers of each mismatch are those of `Ver.report`, and DONE reports none. -/
theorem verifyComparesLengthThenContent : Obligations.VerifyComparesLengthThenContent := by
  unfold Obligations.VerifyComparesLengthThenContent
  intro s hturn hrun hinv hdone
  obtain ⟨-, hinner, horigMem, horigLen⟩ := s.ver.compared_frame
  refine ⟨_, step_of_inner_done hturn hrun hinv hdone, rfl, rfl, hinner, horigMem, horigLen, fun hlen => ?_, fun hlen =>
    ⟨fun first rest hdiff => ⟨?_, fun i hi => Ver.read_eq_of_lt_first hdiff hi⟩, fun hdiff => ?_⟩⟩
  · rw [Ver.compared_of_length hlen]; rfl
  · rw [Ver.compared_of_content hlen hdiff]; simp [verResult, hlen]
  · rw [Ver.compared_of_same hlen hdiff]; rfl

/-- Settles O54: VER raises the inner DEC's error, and `raise` writes `status` and `err` only. -/
theorem verifyPassesOnDecoderErrors : Obligations.VerifyPassesOnDecoderErrors := by
  unfold Obligations.VerifyPassesOnDecoderErrors
  intro s hturn hrun hinner
  exact step_of_inner_failed hturn hrun hinner

/-- Settles O55: the inner DEC declares at most 65535 bytes (R64), so the lengths differ when it is DONE. -/
theorem oversizedOriginalNeverVerifies : Obligations.OversizedOriginalNeverVerifies := by
  unfold Obligations.OversizedOriginalNeverVerifies
  intro original candidate s s1 t k hsize hstart hrun hended
  have hcall := verifyCall_inCall hstart hrun
  have hinv := hcall.inv
  have hshort (hdone : t.ver.inner.status = .done) : t.ver.inner.outLen < 65536 := by
    have hfin := hinv.inner.done hdone
    rw [hfin.outLen, hfin.inLoop.header]
    exact t.ver.inner.headerValue_lt
  have horig : t.ver.origLen = original.length := hcall.origLen
  cases hstatus : t.ver.status with
  | idle => exact absurd hstatus hcall.status
  | running => exact absurd hstatus hended
  | done =>
    obtain ⟨hinner, hlen, -⟩ := hinv.done hstatus
    have := hshort hinner
    omega
  | failed =>
    refine ⟨rfl, ?_⟩
    rcases hinv.failed hstatus with ⟨herr, hreported⟩ | ⟨hinner, herr⟩
    · have hactual := hshort hreported.innerDone
      rw [← hreported.actualLen] at hactual
      have hexpected := hreported.expectedLen.trans horig
      cases hkind : t.ver.kind with
      | length => exact .inl ⟨herr, rfl, hexpected, Nat.le_of_lt_succ hactual⟩
      | content =>
        obtain ⟨hequal, -⟩ := hreported.content hkind
        omega
    · rw [herr]
      exact .inr (hinv.inner.errFailed hinner)

/-- Settles O56: the inner DEC makes the source of the stream (O52), and then nothing differs. -/
theorem compressedStreamAlwaysVerifies : Obligations.CompressedStreamAlwaysVerifies := by
  unfold Obligations.CompressedStreamAlwaysVerifies
  intro source s s1 hsize hstart
  obtain ⟨k, t, hsteps, hdone, -, hdecode⟩ := roundTripIsExact source s s1 hsize hstart
  refine ⟨k, t, hsteps, hdone, fun s' s1' hstart' => ?_⟩
  obtain ⟨n, u, hreach, hturn, hrun, hresult⟩ := verifyCall_decodes hdecode hstart'
  have hcall := verifyCall_inCall hstart' hreach
  obtain ⟨hinner, hout⟩ := decResult_eq_ok.1 hresult
  injection hout with hbytes hoLen
  have hlen : u.ver.inner.outLen = u.ver.origLen := hoLen.symm.trans hcall.origLen.symm
  have hdiff : u.ver.differing = [] := by
    rw [Ver.differing_eq_nil_iff, ← hlen, ← hbytes, hcall.origMem, ← hoLen, Memory.toBytes_ofBytes]
  refine ⟨n + 1, _, hreach.trans (stepsTo_one (step_of_inner_done hturn hrun hcall.inv.inner hinner)), ?_⟩
  rw [Ver.compared_of_same hlen hdiff]
  rfl

end Sys2Proof.Machine

/-! PROOFS of the statements of 60_exceptions.md: which errors a sound unit can hold, and the obligations O30, O33 and
O37. -/

namespace Sys2Proof.Machine

/-! ### The errors of a sound unit (R241, R249) -/

/-- A sound DEC holds no error but those of the header check and of the fetch: FORMAT_UNKNOWN_OPCODE is not among them
(R242). -/
theorem Dec.Inv.err_listed {d : Dec} (h : d.Inv) :
    d.err = .none ∨ d.err = .formatHeaderTooShort ∨ d.err = .truncatedStream := by
  by_cases hfailed : d.status = .failed
  · exact .inr (h.errFailed hfailed)
  · exact .inl (h.errNone.2 hfailed)

/-- A sound CMP holds no error but that of the size check (R244). -/
theorem Cmp.Inv.err_listed {c : Cmp} (h : c.Inv) : c.err = .none ∨ c.err = .inputTooLarge := by
  by_cases hfailed : c.status = .failed
  · exact .inr (h.errFailed hfailed).1
  · exact .inl (h.errNone.2 hfailed)

/-- A sound VER holds its own VERIFY_MISMATCH or what its inner DEC raised (R231, R249). -/
theorem Ver.Inv.err_listed {v : Ver} (h : v.Inv) :
    v.err = .none ∨ v.err = .formatHeaderTooShort ∨ v.err = .truncatedStream ∨ v.err = .verifyMismatch := by
  by_cases hfailed : v.status = .failed
  · rcases h.failed hfailed with ⟨hmismatch, -⟩ | ⟨hinner, hpassed⟩
    · exact .inr (.inr (.inr hmismatch))
    · rw [hpassed]
      exact .inr ((h.inner.errFailed hinner).imp_right .inl)
  · exact .inl (h.errNone.2 hfailed)

/-! ### The obligations -/

/-- Settles O30: the one unit that a step can write is RUNNING. -/
theorem endedUnitTakesNoStep : Obligations.EndedUnitTakesNoStep := by
  unfold Obligations.EndedUnitTakesNoStep
  intro s t h
  rcases step_next h with ⟨-, rfl⟩ | ⟨-, hrun, d, n, rfl⟩ | ⟨-, hrun, c, rfl⟩ | ⟨-, hrun, v, n, rfl⟩
  · exact ⟨fun _ => rfl, fun _ => rfl, fun _ => rfl⟩
  · exact ⟨fun hended => absurd hrun hended, fun _ => rfl, fun _ => rfl⟩
  · exact ⟨fun _ => rfl, fun hended => absurd hrun hended, fun _ => rfl⟩
  · exact ⟨fun _ => rfl, fun _ => rfl, fun hended => absurd hrun hended⟩

/-- Settles O33: a reachable state is sound (O29), and a sound unit holds its own errors only. -/
theorem onlyTheListedErrorsOccur : Obligations.OnlyTheListedErrorsOccur := by
  unfold Obligations.OnlyTheListedErrorsOccur
  intro s hreach
  obtain ⟨hdec, hcmp, hver⟩ := reachableStatesAreSound s hreach
  exact ⟨hdec.err_listed, hcmp.err_listed, hver.err_listed, hdec.errNone, hcmp.errNone, hver.errNone⟩

/-- Settles O37: above the limit the size check raises, which writes `status`, `err` and `CS` only; at the limit the
header step runs, which leaves `status` and `err` as they are. -/
theorem oversizedInputRaises : Obligations.OversizedInputRaises := by
  unfold Obligations.OversizedInputRaises
  refine ⟨fun s hturn hrun hwritten hsize => ?_, fun s hturn hrun hwritten hsize => ?_⟩
  · exact step_of_cmp_tooLarge hturn hrun hwritten hsize
  · exact ⟨_, step_of_cmp_header hturn hrun hwritten hsize.le, hrun, rfl⟩

end Sys2Proof.Machine

/-! PROOFS of the statements of 70_reset_and_hazards.md: when a host move is refused, and the obligation O34. -/

namespace Sys2Proof.Machine

/-! ### A host move is refused on a RUNNING unit, and on no other (R284, R285) -/

theorem startDecode_of_running {input : List Byte} {s : State} (h : s.dec.status = .running) :
    startDecode input s = .refused .callInProgress := if_pos h

theorem startDecode_of_not_running {input : List Byte} {s : State} (h : s.dec.status ≠ .running) :
    ∃ t, startDecode input s = .next t := ⟨_, if_neg h⟩

theorem startEncode_of_running {source : List Byte} {s : State} (h : s.cmp.status = .running) :
    startEncode source s = .refused .callInProgress := if_pos h

theorem startEncode_of_not_running {source : List Byte} {s : State} (h : s.cmp.status ≠ .running) :
    ∃ t, startEncode source s = .next t := ⟨_, if_neg h⟩

theorem startVerify_of_running {original candidate : List Byte} {s : State} (h : s.ver.status = .running) :
    startVerify original candidate s = .refused .callInProgress := if_pos h

theorem startVerify_of_not_running {original candidate : List Byte} {s : State} (h : s.ver.status ≠ .running) :
    ∃ t, startVerify original candidate s = .next t := ⟨_, if_neg h⟩

theorem acknowledge_of_running {u : Agent} {s : State} (h : s.statusOf u = .running) :
    acknowledge u s = .refused .callInProgress := by
  rw [acknowledge, h]

/-- An IDLE unit stays as it is, and an ended one is put between calls. -/
theorem acknowledge_of_not_running {u : Agent} {s : State} (h : s.statusOf u ≠ .running) :
    ∃ t, acknowledge u s = .next t := by
  unfold acknowledge
  cases hstatus : s.statusOf u with
  | idle => exact ⟨s, rfl⟩
  | running => exact absurd hstatus h
  | done => exact ⟨s.toIdle u, rfl⟩
  | failed => exact ⟨s.toIdle u, rfl⟩

/-! ### The obligation -/

/-- Settles O34: each call looks at the status of its own unit alone, and so does an acknowledgement. -/
theorem runningUnitAcceptsNoCall : Obligations.RunningUnitAcceptsNoCall := by
  unfold Obligations.RunningUnitAcceptsNoCall
  intro a b s
  exact ⟨startDecode_of_running, startDecode_of_not_running, startEncode_of_running, startEncode_of_not_running,
    startVerify_of_running, startVerify_of_not_running, fun _ => acknowledge_of_running,
    fun _ => acknowledge_of_not_running⟩

end Sys2Proof.Machine
